-- ==== Sys2Proof/Word.lean ====
section
/-! DEFINITION. The word types of CORE: 32-bit registers, bytes of DMEM, binary64 patterns and complex elements. -/
namespace Sys2Proof

/-- Every register and every command word is 32 bits wide (`10_state.md` R34, `30_encoding.md` R110). -/
abbrev Word := BitVec 32

/-- One byte of DMEM, its smallest addressable unit (`20_memory.md` R80). -/
abbrev Byte := BitVec 8

/-- The 64-bit pattern of a binary64 value; `f64_of_bits` and `bits_of_f64` are the identity (`40_numerics.md` R140). -/
abbrev F64 := BitVec 64

/-- A complex value `(re, im)`, real part first (`20_memory.md` R83). -/
structure Cplx where
  re : F64
  im : F64
  deriving DecidableEq, Repr

end Sys2Proof
end

