-- ==== Sys2Proof/Machine/Float.lean ====
section
/-! DEFINITION. Binary64 arithmetic, comparison and rounding (`40_numerics.md` R140 to R149, R155). Every finite value is
an integer number of units of 2^-1074, so each operation is computed exactly and rounded once. -/
namespace Sys2Proof.Machine

/-! ### Fields and classes (`40_numerics.md` R140) -/

/-- The sign bit. -/
def f64Sign (v : F64) : Bool := v.getLsbD 63

/-- The 11 exponent bits. -/
def f64Exp (v : F64) : Nat := v.toNat / 2 ^ 52 % 2048

/-- The 52 fraction bits. -/
def f64Frac (v : F64) : Nat := v.toNat % 2 ^ 52

/-- NaN: exponent all ones, fraction not 0. -/
def isNaN (v : F64) : Bool := f64Exp v == 2047 && f64Frac v != 0

/-- ±Inf: exponent all ones, fraction 0. -/
def isInf (v : F64) : Bool := f64Exp v == 2047 && f64Frac v == 0

/-- `isfinite(v)`: ±0, subnormals and normals. -/
def isFin (v : F64) : Bool := f64Exp v != 2047

/-- ±0. -/
def isZero (v : F64) : Bool := v.toNat % 2 ^ 63 == 0

/-- One unit is 2^-1074, the least positive binary64; `unitsOne` units are 1. -/
def unitsOne : Nat := 2 ^ 1074

/-- The magnitude of a finite value, in units: `frac` for a subnormal, `(2^52 + frac)·2^(exp-1)` for a normal. -/
def f64Mag (v : F64) : Nat :=
  if f64Exp v == 0 then f64Frac v else (2 ^ 52 + f64Frac v) * 2 ^ (f64Exp v - 1)

/-- A finite value as an integer number of units. -/
def f64Units (v : F64) : Int := if f64Sign v then -(f64Mag v : Int) else (f64Mag v : Int)

/-- The value with sign `neg` and low 63 bits `bits`. -/
def mkF64 (neg : Bool) (bits : Nat) : F64 := BitVec.ofNat 64 (if neg then 2 ^ 63 + bits else bits)

/-- +0.0 or −0.0. -/
def f64Zero (neg : Bool) : F64 := mkF64 neg 0

/-- ±Inf. -/
def f64Inf (neg : Bool) : F64 := mkF64 neg (2047 * 2 ^ 52)

/-- The canonical NaN (`40_numerics.md` R145). -/
def f64NaN : F64 := 0x7FF8000000000000#64

/-- `canon(v)` (`20_memory.md` R82, `40_numerics.md` R145). -/
def canon (v : F64) : F64 := if isNaN v then f64NaN else v

/-! ### Rounding (`40_numerics.md` R149, R155) -/

/-- The integer nearest `n/d`, ties to even. -/
def divRne (n d : Nat) : Nat :=
  if 2 * (n % d) < d then n / d
  else if d < 2 * (n % d) then n / d + 1
  else n / d + n / d % 2

/-- The low 63 bits of the binary64 nearest `n/d` units, ties to even: the quotient keeps 53 significant bits (all of
its integer bits when it is below 2^53 units) and reaches the infinity pattern on overflow. -/
def rneBits (n d : Nat) : Nat :=
  min ((Nat.log2 (n / d) - 52) * 2 ^ 52 + divRne n (d * 2 ^ (Nat.log2 (n / d) - 52))) (2047 * 2 ^ 52)

/-- `RNE` of the real `±n/d` units. -/
def rne (neg : Bool) (n d : Nat) : F64 := mkF64 neg (rneBits n d)

/-- `ROUNDI(t)` for finite t: the nearest integer, ties to even (`40_numerics.md` R155). -/
def roundi (t : F64) : Int :=
  if f64Sign t then -(divRne (f64Mag t) unitsOne : Int) else (divRne (f64Mag t) unitsOne : Int)

/-- `f64(n)` (`40_numerics.md` R149). -/
def f64OfNat (n : Nat) : F64 := rne false (n * unitsOne) 1

/-! ### Constants (`40_numerics.md` R144) -/

/-- The binary64 nearest 1e-6. -/
def EPS : F64 := 0x3EB0C6F7A0B5ED8D#64
/-- 10. -/
def TEN : F64 := 0x4024000000000000#64
/-- 255. -/
def C255 : F64 := 0x406FE00000000000#64
/-- 0.5. -/
def HALF : F64 := 0x3FE0000000000000#64
/-- 1. -/
def ONE : F64 := 0x3FF0000000000000#64

/-! ### Arithmetic (`40_numerics.md` R141, R142) -/

/-- `fneg(v)` flips the sign bit and nothing else (`40_numerics.md` R142). -/
def fneg (v : F64) : F64 := v ^^^ 0x8000000000000000#64

/-- `fadd(a, b)` (`40_numerics.md` R141). An exact zero sum is −0 only when both operands are negative
(log entry 15). -/
def fadd (a b : F64) : F64 :=
  if isNaN a || isNaN b then f64NaN
  else if isInf a then (if isInf b && f64Sign a != f64Sign b then f64NaN else a)
  else if isInf b then b
  else if f64Units a + f64Units b = 0 then f64Zero (f64Sign a && f64Sign b)
  else rne (decide (f64Units a + f64Units b < 0)) (f64Units a + f64Units b).natAbs 1

/-- `fsub(a, b)`, the sum with the negated operand (`40_numerics.md` R141). -/
def fsub (a b : F64) : F64 := fadd a (fneg b)

/-- `fmul(a, b)` (`40_numerics.md` R141): one rounding of the exact product, sign by the sign rule. -/
def fmul (a b : F64) : F64 :=
  if isNaN a || isNaN b then f64NaN
  else if isInf a || isInf b then
    (if isZero a || isZero b then f64NaN else f64Inf (f64Sign a != f64Sign b))
  else rne (f64Sign a != f64Sign b) (f64Mag a * f64Mag b) unitsOne

/-- `fdiv(a, b)` (`40_numerics.md` R141): one rounding of the exact quotient, sign by the sign rule. -/
def fdiv (a b : F64) : F64 :=
  if isNaN a || isNaN b then f64NaN
  else if isInf a then (if isInf b then f64NaN else f64Inf (f64Sign a != f64Sign b))
  else if isInf b then f64Zero (f64Sign a != f64Sign b)
  else if isZero b then (if isZero a then f64NaN else f64Inf (f64Sign a != f64Sign b))
  else rne (f64Sign a != f64Sign b) (f64Mag a * unitsOne) (f64Mag b)

/-! ### Comparisons (`40_numerics.md` R143) -/

/-- The order of the non-NaN values as integers: sign and low 63 bits; both zeros are 0. -/
def f64Key (v : F64) : Int :=
  if f64Sign v then -((v.toNat % 2 ^ 63 : Nat) : Int) else ((v.toNat % 2 ^ 63 : Nat) : Int)

/-- `a < b`: false when either operand is NaN. -/
def flt (a b : F64) : Bool := !isNaN a && !isNaN b && decide (f64Key a < f64Key b)

/-- `a == b`: false when either operand is NaN; +0 == −0. -/
def feq (a b : F64) : Bool := !isNaN a && !isNaN b && decide (f64Key a = f64Key b)

/-- `min` of a list of finite values; of equal least ones the one with the lowest index (`40_numerics.md` R143). -/
def fminList : List F64 → F64
  | [] => f64NaN
  | x :: xs => xs.foldl (fun m y => if flt y m then y else m) x

/-- `max` of a list of finite values; of equal greatest ones the one with the lowest index. -/
def fmaxList : List F64 → F64
  | [] => f64NaN
  | x :: xs => xs.foldl (fun m y => if flt m y then y else m) x

/-! ### Complex operations (`40_numerics.md` R146 to R148) -/

/-- `cadd`, componentwise. -/
def cadd (x y : Cplx) : Cplx := ⟨fadd x.re y.re, fadd x.im y.im⟩

/-- `csub`, componentwise. -/
def csub (x y : Cplx) : Cplx := ⟨fsub x.re y.re, fsub x.im y.im⟩

/-- `cmul`: four products and two sums, each rounded, no special case. -/
def cmul (x y : Cplx) : Cplx :=
  ⟨fsub (fmul x.re y.re) (fmul x.im y.im), fadd (fmul x.re y.im) (fmul x.im y.re)⟩

/-- `conj`. -/
def conj (x : Cplx) : Cplx := ⟨x.re, fneg x.im⟩

end Sys2Proof.Machine
end

