-- ==== Sys2Proof/Config.lean ====
section
/-! DEFINITION. What an implementation of CORE fixes (its two parameters) and the free values of the model. -/
namespace Sys2Proof

/-- The parameters that software reads in CAP (`00_scope.md` R9, `10_state.md` R37), by their base-2 logarithms. -/
structure Params where
  /-- log2 of NMAX, the largest transform and window size. -/
  log2Nmax : Nat
  /-- log2 of DMEM_SIZE, the bytes of the data memory. -/
  log2Dmem : Nat
  deriving DecidableEq, Repr

/-- The ranges of `00_scope.md` R9: 2^10 ≤ NMAX ≤ 2^20 and 2^16 ≤ DMEM_SIZE ≤ 2^32. -/
abbrev Params.legal (p : Params) : Prop :=
  10 ≤ p.log2Nmax ∧ p.log2Nmax ≤ 20 ∧ 16 ≤ p.log2Dmem ∧ p.log2Dmem ≤ 32

/-- NMAX, a power of two. -/
def Params.nmax (p : Params) : Nat := 2 ^ p.log2Nmax

/-- DMEM_SIZE, a power of two. -/
def Params.dmemSize (p : Params) : Nat := 2 ^ p.log2Dmem

/-- The reference values of `00_scope.md` R9: NMAX = 2^16 and DMEM_SIZE = 2^24. DESIGN CHOICE (log entry 1). -/
def Config.referenceParams : Params := { log2Nmax := 16, log2Dmem := 24 }

/-- FREE VALUE: the byte that draw occasion `n` gives at DMEM address `a` (`20_memory.md` R93 and R97,
`45_control.md` R258, `70_reset_and_hazards.md` R306). No body: nothing constrains it (log entries 5 and 6). -/
opaque Config.draw (n a : Nat) : Byte

/-- FREE VALUE: what draw occasion `n` gives to a HOST read made while RESET is asserted; `70_reset_and_hazards.md`
R305 states no read data there (log entry 10). -/
opaque Config.drawRead (n : Nat) : BitVec 64

/-- The fixed-point precisions, in bits, at which a reference function is enclosed, in the order tried
(log entry 14). -/
def Config.precisions : List Nat := [160, 320, 640, 1280]

end Sys2Proof
end

