-- ==== Sys2Proof/Syntax.lean ====
section
/-! DEFINITION. The commands of CORE: one constructor per row of the opcode map (`30_encoding.md` R112). -/
namespace Sys2Proof

/-- The nine commands. A command word has no operand field (`30_encoding.md` R116, R117), so no constructor
carries an argument: every operand is read from the snapshot of the parameter registers. -/
inductive Instr where
  /-- 0x00, `45_control.md` R256. -/
  | nop
  /-- 0x01, `41_fft.md` R172. -/
  | fft
  /-- 0x02, `41_fft.md` R174. -/
  | ifft
  /-- 0x03, `42_stft.md` R191. -/
  | stft
  /-- 0x04, `43_quantizer.md` R206. -/
  | qenc
  /-- 0x05, `43_quantizer.md` R207. -/
  | qdec
  /-- 0x06, `44_reconstruction.md` R229. -/
  | istft
  /-- 0x07, `44_reconstruction.md` R228. -/
  | zphase
  /-- 0x08, `44_reconstruction.md` R226. -/
  | hann
  deriving DecidableEq, Repr

end Sys2Proof
end

