-- ==== Sys2Proof/Decode.lean ====
section
/-! DEFINITION. The decoder and the encoder of the one instruction format CMD32 (`30_encoding.md` R110 to R114). -/
namespace Sys2Proof

/-- Why a command word names no command. -/
inductive IllegalWord where
  /-- A bit of the field RSVD, [31:8], is set (`30_encoding.md` R113). -/
  | rsvdSet
  /-- RSVD is 0 and OP is in 0x09..0xFF (`30_encoding.md` R114). -/
  | reservedOpcode
  deriving DecidableEq, Repr

/-- What a command word decodes to: one of the nine commands, or ILLEGAL with its reason (`30_encoding.md` R111). -/
inductive Decoded where
  | command (i : Instr)
  | illegal (why : IllegalWord)
  deriving DecidableEq, Repr

/-- The field OP, bits [7:0] of a command word (`30_encoding.md` R110). -/
def opField (c : Word) : BitVec 8 := c.extractLsb' 0 8

/-- The field RSVD, bits [31:8] of a command word (`30_encoding.md` R110). -/
def rsvdField (c : Word) : BitVec 24 := c.extractLsb' 8 24

/-- The opcode map (`30_encoding.md` R112); no reserved opcode executes (`30_encoding.md` R114). -/
def decodeOp (op : BitVec 8) : Decoded :=
  match op.toNat with
  | 0x00 => .command .nop
  | 0x01 => .command .fft
  | 0x02 => .command .ifft
  | 0x03 => .command .stft
  | 0x04 => .command .qenc
  | 0x05 => .command .qdec
  | 0x06 => .command .istft
  | 0x07 => .command .zphase
  | 0x08 => .command .hann
  | _ => .illegal .reservedOpcode

/-- `decode(c)` (`30_encoding.md` R111): total, with a word whose RSVD is not 0 illegal whatever its OP (R113). -/
def decode (c : Word) : Decoded :=
  if rsvdField c = 0 then decodeOp (opField c) else .illegal .rsvdSet

/-- The field OP of each command (`30_encoding.md` R112). -/
def opcode : Instr → BitVec 8
  | .nop => 0x00#8
  | .fft => 0x01#8
  | .ifft => 0x02#8
  | .stft => 0x03#8
  | .qenc => 0x04#8
  | .qdec => 0x05#8
  | .istft => 0x06#8
  | .zphase => 0x07#8
  | .hann => 0x08#8

/-- The command word of a command, `{RSVD = 0, OP}` (`30_encoding.md` R110, R112). -/
def encode (i : Instr) : Word := 0#24 ++ opcode i

/-- The command the decoder reads from a command word of `nbits` bits `w`, numbered as `spec/opcode_table.json`
numbers them; none for an ILLEGAL word. A command word is one 32-bit word (`30_encoding.md` R110), so bits above 31
are none of its. -/
def decodeTableWord (nbits w : Nat) : Option Instr :=
  if w % 2 ^ nbits < 2 ^ 32 then
    match decode (BitVec.ofNat 32 (w % 2 ^ nbits)) with
    | .command i => some i
    | .illegal _ => none
  else none

end Sys2Proof
end

