-- ==== Sys2Proof/Machine/HostEvent.lean ====
section
/-! DEFINITION. What the outside world does to CORE: the HOST's port accesses and the platform's RESET level
(`10_state.md` R30, R31, `45_control.md` R263), and which agent has the turn. -/
namespace Sys2Proof.Machine

/-- One entry of the script in State: a line of the HOST's program as bus transactions, or a drive of RESET. -/
inductive HostEvent where
  /-- A REG write of `width` bytes at `offset` (`10_state.md` R31, R34). -/
  | regWrite (offset : BitVec 12) (width : Nat) (data : Word)
  /-- A REG read of `width` bytes at `offset`. -/
  | regRead (offset : BitVec 12) (width : Nat)
  /-- A DMEMP write of the `width` low bytes of `data` at byte offset `addr` (`20_memory.md` R91). -/
  | memWrite (addr width : Nat) (data : BitVec 64)
  /-- A DMEMP read of `width` bytes at `addr`. -/
  | memRead (addr width : Nat)
  /-- The platform drives the RESET input to `level` (`70_reset_and_hazards.md` R305). -/
  | resetPin (level : Bool)
  /-- The HOST's `wait` loop, at its label: read STATUS, and stay here while bit 0 of the value read is 1
  (`30_encoding.md` R121). -/
  | waitLoop
  deriving DecidableEq, Repr

/-- Which agent takes a step: the HOST (or the platform), whose steps the script holds, or the CORE sequencer
(`10_state.md` R30, `45_control.md` R252). -/
inductive Turn where
  | host
  | core
  deriving DecidableEq, Repr

end Sys2Proof.Machine
end

