-- ==== Sys2Proof/Machine/State.lean ====
section
/-! DEFINITION. The state of CORE as plain data, and its value right after hardware reset (`10_state.md`). -/
namespace Sys2Proof.Machine

/-- DMEM as the list of the bytes written since hardware reset, addresses strictly rising (`10_state.md` R60). -/
abbrev Memory := List Host.Cell

/-- CTRL without SRST, which is an action and no storage (`10_state.md` R38). -/
structure CtrlReg where
  ieDone : Bool
  ieErr : Bool
  deriving DecidableEq, Repr

/-- STATUS without BUSY, which mirrors the sequencer phase and is stored there (`10_state.md` R39, R62). -/
structure StatusReg where
  done : Bool
  err : Bool
  busyWr : Bool
  errCode : BitVec 8
  lastOp : BitVec 8
  deriving DecidableEq, Repr

/-- META_VALID: which of the five metadata scalars are present (`10_state.md` R41). -/
structure MetaValid where
  vWsize : Bool
  vOverlap : Bool
  vSrate : Bool
  vMin : Bool
  vMax : Bool
  deriving DecidableEq, Repr

/-- The parameter registers that a command can read (`10_state.md` R42 to R49, R51, R52, R54, R55). -/
structure ParamRegs where
  src : Word
  dst : Word
  scr : Word
  size : Word
  stride : Word
  sigLen : Word
  wsize : Word
  overlap : Word
  nbins : Word
  nframes : Word
  qminLo : Word
  qminHi : Word
  qmaxLo : Word
  qmaxHi : Word
  deriving DecidableEq, Repr

/-- The register snapshot taken at acceptance (`45_control.md` R251). -/
structure Snapshot where
  regs : ParamRegs
  metaValid : MetaValid
  deriving DecidableEq, Repr

/-- The command in flight (`10_state.md` R62, `45_control.md` R250). -/
structure Latched where
  /-- `latched.op`: a command or ILLEGAL. -/
  op : Decoded
  /-- `latched.regs`. -/
  snap : Snapshot
  /-- The HOST has written into one of the command's footprints since acceptance (`20_memory.md` R97 (c)). -/
  raced : Bool
  deriving DecidableEq, Repr

/-- The state of one CORE instance together with what its environment does next. -/
structure State where
  /-- NMAX and DMEM_SIZE: arguments of the model that no step changes (`00_scope.md` R9). -/
  params : Params
  ctrl : CtrlReg
  status : StatusReg
  /-- CMD: the last accepted command word (`10_state.md` R40). -/
  cmd : Word
  metaValid : MetaValid
  regs : ParamRegs
  /-- SRATE (`10_state.md` R50). -/
  srate : Word
  /-- OUTLEN (`10_state.md` R53). -/
  outlen : Word
  /-- The sequencer phase: IDLE (none) or BUSY with the latched command (`10_state.md` R62). -/
  inFlight : Option Latched
  /-- The level of the RESET input (`70_reset_and_hazards.md` R305). -/
  resetLevel : Bool
  /-- DMEM (`10_state.md` R60). -/
  dmem : Memory
  /-- The draw occasion of the last hardware reset: what a never-written byte reads as (`20_memory.md` R93). -/
  coldDraw : Nat
  /-- MODEL: the next draw occasion not yet used (log entry 6). -/
  draws : Nat
  /-- MODEL: what the HOST and the platform do next, in order (log entry 2). -/
  script : List HostEvent
  /-- MODEL: which agent takes each of the next steps (log entries 2 and 3). -/
  turns : List Turn
  /-- MODEL: the value the ports last gave back to the HOST (log entry 12). -/
  rdata : BitVec 64
  deriving DecidableEq, Repr

/-- CORE never stops with a fault: every error is a completion that STATUS reports (`60_exceptions.md` R276, R286), so
no constructor exists. Nothing raises it. -/
inductive Fault where
  deriving DecidableEq, Repr

/-- A step the model does not have. -/
inductive Refusal where
  /-- An instruction whose arm of `exec` has no meaning yet; no arm raises it. Safe. -/
  | notModelled (mnemonic : String)
  /-- Raised by the REG port: an access of a width other than 32 bits, a HOST duty never to make
  (`10_state.md` R57). Unsafe by the spec's own account: a real HOST could make it (log entry 16). -/
  | regAccessWidth
  /-- Raised by the REG port: an access at an offset that is no multiple of 4 (`10_state.md` R57). Unsafe as above. -/
  | regAccessUnaligned
  /-- Raised by the DMEM port: an access of a width other than 1, 2, 4 or 8 bytes (`20_memory.md` R91). Unsafe as
  above. -/
  | memAccessWidth
  /-- Raised by the DMEM port: an access misaligned for its width (`20_memory.md` R91). Unsafe as above. -/
  | memAccessMisaligned
  deriving DecidableEq, Repr

/-- CTRL after reset (`10_state.md` R38). -/
def CtrlReg.reset : CtrlReg := { ieDone := false, ieErr := false }

/-- STATUS after reset (`10_state.md` R39). -/
def StatusReg.reset : StatusReg := { done := false, err := false, busyWr := false, errCode := 0, lastOp := 0 }

/-- META_VALID after reset: all five scalars absent (`10_state.md` R41). -/
def MetaValid.reset : MetaValid :=
  { vWsize := false, vOverlap := false, vSrate := false, vMin := false, vMax := false }

/-- The parameter registers after reset: 0, but STRIDE 1 (`10_state.md` R34, R64). -/
def ParamRegs.reset : ParamRegs :=
  { src := 0, dst := 0, scr := 0, size := 0, stride := 1, sigLen := 0, wsize := 0, overlap := 0
    nbins := 0, nframes := 0, qminLo := 0, qminHi := 0, qmaxLo := 0, qmaxHi := 0 }

/-- The machine right after hardware reset (`70_reset_and_hazards.md` R305 to R307): every register at its reset value,
IDLE, RESET released, and no byte of DMEM written. The parameters, the draw counters, the script, the turns and `rdata` are the
model's (log entries 1, 2, 3, 6 and 12). -/
def State.reset : State :=
  { params := Config.referenceParams
    ctrl := CtrlReg.reset, status := StatusReg.reset, cmd := 0, metaValid := MetaValid.reset
    regs := ParamRegs.reset, srate := 0, outlen := 0, inFlight := none, resetLevel := false
    dmem := [], coldDraw := 0, draws := 1, script := [], turns := [], rdata := 0 }

end Sys2Proof.Machine
end

