-- ==== Sys2Proof/Machine/Ops.lean ====
section
/-! DEFINITION. The named operations over memory and registers, and the two completions every command ends in: success, and
the error completion, CORE's only trap-like event (`60_exceptions.md` R276). -/
namespace Sys2Proof.Machine

/-! ### Bytes and words, little-endian (`00_scope.md` R14, `20_memory.md` R81) -/

/-- The `n` low bytes of `v`, least significant first. -/
def leBytes : Nat → Nat → List Byte
  | 0, _ => []
  | n + 1, v => BitVec.ofNat 8 v :: leBytes n (v / 256)

/-- The unsigned integer of a list of bytes, least significant first. -/
def leNat : List Byte → Nat
  | [] => 0
  | b :: bs => b.toNat + 256 * leNat bs

/-! ### The cell list -/

/-- The byte listed at `a`; none where nothing has been written since hardware reset. -/
def Memory.get? : Memory → Nat → Option Byte
  | [], _ => none
  | (x, b) :: m, a => if x = a then some b else Memory.get? m a

/-- The cells of a block of bytes that starts at `base`. -/
def cellsFrom : Nat → List Byte → Memory
  | _, [] => []
  | base, b :: bs => (base, b) :: cellsFrom (base + 1) bs

/-- Store a block of bytes at `base`: what lies below it, the block, what lies above it. -/
def Memory.store (m : Memory) (base : Nat) (bytes : List Byte) : Memory :=
  m.filter (fun c => decide (c.1 < base)) ++ cellsFrom base bytes ++
    m.filter (fun c => decide (base + bytes.length ≤ c.1))

/-- The canonical form: addresses strictly rising. An unlisted address reads as no written byte, which no entry can
equal, so a memory has one form (log entry 5). -/
def Memory.wf : Memory → Bool
  | [] => true
  | [_] => true
  | c :: d :: m => decide (c.1 < d.1) && Memory.wf (d :: m)

/-! ### Reading DMEM -/

/-- What a byte that nothing has written since hardware reset reads as: the draw of that reset, fixed per byte
(`20_memory.md` R93, `70_reset_and_hazards.md` R306). -/
def State.unwrittenByte (s : State) (a : Nat) : Byte := Config.draw s.coldDraw a

/-- The byte of DMEM at `a`. -/
def State.byteAt (s : State) (a : Nat) : Byte := (s.dmem.get? a).getD (s.unwrittenByte a)

/-- The bytes of DMEM at `a .. a+n-1`. -/
def State.bytesAt (s : State) (a n : Nat) : List Byte := (List.range n).map (fun i => s.byteAt (a + i))

/-- `MemRead(addr, n)` (`00_scope.md` R14). -/
def State.memRead (s : State) (a n : Nat) : Nat := leNat (s.bytesAt a n)

/-- `ReadF64(a)`: the pattern as it stands (`20_memory.md` R82). -/
def State.readF64 (s : State) (a : Nat) : F64 := BitVec.ofNat 64 (s.memRead a 8)

/-- `ReadC(a)` (`20_memory.md` R83). -/
def State.readC (s : State) (a : Nat) : Cplx := ⟨s.readF64 a, s.readF64 (a + 8)⟩

/-- `ReadU8(a)` (`20_memory.md` R84). -/
def State.readU8 (s : State) (a : Nat) : Nat := s.memRead a 1

/-! ### Writing DMEM -/

/-- A block of bytes stored at `base`. -/
def State.storeBytes (s : State) (base : Nat) (bytes : List Byte) : State :=
  { s with dmem := s.dmem.store base bytes }

/-- `MemWrite(addr, n, v)` (`00_scope.md` R14). -/
def State.memWrite (s : State) (a n v : Nat) : State := s.storeBytes a (leBytes n v)

/-- The bytes `WriteF64` stores: every NaN canonical (`20_memory.md` R82). -/
def f64Bytes (v : F64) : List Byte := leBytes 8 (canon v).toNat

/-- The bytes `WriteC` stores: real part, then imaginary part (`20_memory.md` R83). -/
def cplxBytes (z : Cplx) : List Byte := f64Bytes z.re ++ f64Bytes z.im

/-- `WriteF64(base + 8·j, vs[j])` for every j: a dense real array (`20_memory.md` R82, R85). -/
def State.writeF64s (s : State) (base : Nat) (vs : List F64) : State := s.storeBytes base (vs.flatMap f64Bytes)

/-- `WriteC(base + 16·j, zs[j])` for every j: a dense complex array (`20_memory.md` R83, R85). -/
def State.writeCs (s : State) (base : Nat) (zs : List Cplx) : State := s.storeBytes base (zs.flatMap cplxBytes)

/-- `WriteU8(base + j, qs[j])` for every j: a dense byte array (`20_memory.md` R84, R85). -/
def State.writeU8s (s : State) (base : Nat) (qs : List Byte) : State := s.storeBytes base qs

/-! ### Footprints (`20_memory.md` R87 to R90) -/

/-- The half-open byte interval `[base, base + len)`. -/
structure Footprint where
  base : Nat
  len : Nat
  deriving DecidableEq, Repr

/-- The address lies in the interval. -/
def Footprint.has (f : Footprint) (a : Nat) : Bool := decide (f.base ≤ a) && decide (a < f.base + f.len)

/-- In bounds: empty, or `base + len ≤ DMEM_SIZE`, without wrap-around (`20_memory.md` R88). -/
def Footprint.inBounds (f : Footprint) (size : Nat) : Bool := f.len == 0 || decide (f.base + f.len ≤ size)

/-- `[a, a+n)` and `[b, b+m)` intersect when n > 0, m > 0, a < b + m and b < a + n (`20_memory.md` R90). -/
def Footprint.meets (f g : Footprint) : Bool :=
  decide (0 < f.len) && decide (0 < g.len) && decide (f.base < g.base + g.len) && decide (g.base < f.base + f.len)

/-- The part of a footprint that exists: its bytes below DMEM_SIZE (`45_control.md` R258). -/
def Footprint.clip (f : Footprint) (size : Nat) : Footprint := ⟨f.base, min (f.base + f.len) size - f.base⟩

/-- One of the footprints holds the address. -/
def anyHas (fs : List Footprint) (a : Nat) : Bool := fs.any (fun f => f.has a)

/-- Two different footprints of the list intersect. -/
def anyPairMeets : List Footprint → Bool
  | [] => false
  | f :: fs => fs.any (fun g => f.meets g) || anyPairMeets fs

/-- The overlap check: a written footprint intersects a read one or another written one (`20_memory.md` R90). -/
def overlapFails (reads writes : List Footprint) : Bool :=
  writes.any (fun w => reads.any (fun r => w.meets r)) || anyPairMeets writes

/-- The bounds check: some footprint is out of bounds (`20_memory.md` R88). -/
def boundsFail (size : Nat) (fs : List Footprint) : Bool := fs.any (fun f => !f.inBounds size)

/-- The alignment check on the base of a real or complex array: bits [2:0] are not 0 (`20_memory.md` R89). -/
def misaligned (base : Nat) : Bool := base % 8 != 0

/-! ### Draws -/

/-- The bytes of one footprint replaced by the draws of occasion `n`. -/
def Memory.drawFootprint (n : Nat) (m : Memory) (f : Footprint) : Memory :=
  m.store f.base ((List.range f.len).map (fun i => Config.draw n (f.base + i)))

/-- Every byte below DMEM_SIZE of the given footprints becomes a fresh draw (`20_memory.md` R97 (c),
`45_control.md` R258). -/
def State.drawFootprints (s : State) (fs : List Footprint) : State :=
  { s with
    dmem := (fs.map (fun f => f.clip s.params.dmemSize)).foldl (Memory.drawFootprint s.draws) s.dmem
    draws := s.draws + 1 }

/-! ### Errors and completions -/

/-- The error kinds of `60_exceptions.md` R275. -/
inductive ErrorKind where
  | InvalidSize | OutOfBounds | InvalidWindow | SignalTooShort | DegenerateRange | MissingMetadata
  | ShapeMismatch | IllegalCommand | Misaligned | BufferOverlap | NonFinite
  deriving DecidableEq, Repr

/-- The code of each error kind (`60_exceptions.md` R275). -/
def errorCode : ErrorKind → BitVec 8
  | .InvalidSize => 1
  | .OutOfBounds => 2
  | .InvalidWindow => 3
  | .SignalTooShort => 4
  | .DegenerateRange => 5
  | .MissingMetadata => 6
  | .ShapeMismatch => 7
  | .IllegalCommand => 8
  | .Misaligned => 9
  | .BufferOverlap => 10
  | .NonFinite => 11

/-- One check of a command's ordered list: whether it fails, and the error it raises. -/
abbrev Check := Bool × ErrorKind

/-- The first failing check in the given order decides the error (`60_exceptions.md` R280, `45_control.md` R252). -/
def firstError : List Check → Option ErrorKind
  | [] => none
  | (fails, e) :: cs => if fails then some e else firstError cs

/-- `error_complete(e)`: STATUS alone changes, and the sequencer is IDLE (`60_exceptions.md` R276). -/
def State.errorComplete (s : State) (e : ErrorKind) : State :=
  { s with status := { s.status with errCode := errorCode e, err := true, done := true }, inFlight := none }

/-- The STATUS effects of a success completion: DONE ← 1 and BUSY ← 0 (`45_control.md` R252, R253). -/
def State.successComplete (s : State) : State :=
  { s with status := { s.status with done := true }, inFlight := none }

/-- The completion of a command: the error its checks decide, or its effects and the success completion
(`45_control.md` R252). -/
def State.finish (s : State) (error : Option ErrorKind) (effects : State → State) :
    Host.Outcome State Fault Refusal :=
  match error with
  | some e => .next (s.errorComplete e)
  | none => .next (effects s).successComplete

/-- A HOST write of `v` to STATUS clears the W1C bits it names, and nothing else (`45_control.md` R259): the HOST's
acknowledgement, and CORE's nearest thing to a return from a trap (`60_exceptions.md` R283, R285). -/
def State.statusWrite (s : State) (v : Word) : State :=
  { s with status := { s.status with
      done := s.status.done && !v.getLsbD 1
      err := s.status.err && !v.getLsbD 2
      busyWr := s.status.busyWr && !v.getLsbD 3 } }

/-! ### Reset -/

/-- Every register at its reset value and the sequencer IDLE: what hardware and soft reset share
(`10_state.md` R64, `45_control.md` R258, `70_reset_and_hazards.md` R305, R307). -/
def State.resetRegs (s : State) : State :=
  { s with
    ctrl := CtrlReg.reset, status := StatusReg.reset, cmd := 0, metaValid := MetaValid.reset
    regs := ParamRegs.reset, srate := 0, outlen := 0, inFlight := none }

/-- The release of RESET: registers and sequencer reset, and every byte of DMEM a fresh draw
(`70_reset_and_hazards.md` R305, R306). -/
def State.hardReset (s : State) : State :=
  { s.resetRegs with dmem := [], coldDraw := s.draws, draws := s.draws + 1, resetLevel := false }

end Sys2Proof.Machine
end

