-- ==== Sys2Proof/Machine/Flags.lean ====
section
/-! DEFINITION. CORE's flags: the STATUS and META_VALID words, how each flag is set and cleared, and the IRQ level
(`10_state.md` R38, R39, R41, R59, R61). CORE has no arithmetic condition codes (R59) and no IEEE flags (R156). -/
namespace Sys2Proof.Machine

/-- STATUS.BUSY: the mirror of the sequencer phase (`10_state.md` R39, R62). -/
def State.busy (s : State) : Bool := s.inFlight.isSome

/-- The STATUS word: BUSY, DONE, ERR, BUSYWR in bits 0 to 3, ERRCODE in [15:8], LASTOP in [23:16], the rest 0
(`10_state.md` R39). -/
def State.statusWord (s : State) : Word :=
  0#8 ++ s.status.lastOp ++ s.status.errCode ++ 0#4 ++ BitVec.ofBool s.status.busyWr ++
    BitVec.ofBool s.status.err ++ BitVec.ofBool s.status.done ++ BitVec.ofBool s.busy

/-- The CTRL word: IE_DONE in bit 0, IE_ERR in bit 1; SRST and the reserved bits read 0 (`10_state.md` R38). -/
def State.ctrlWord (s : State) : Word := 0#30 ++ BitVec.ofBool s.ctrl.ieErr ++ BitVec.ofBool s.ctrl.ieDone

/-- The META_VALID word, bits 0 to 4; the rest read 0 (`10_state.md` R41). -/
def metaWord (m : MetaValid) : Word :=
  0#27 ++ BitVec.ofBool m.vMax ++ BitVec.ofBool m.vMin ++ BitVec.ofBool m.vSrate ++
    BitVec.ofBool m.vOverlap ++ BitVec.ofBool m.vWsize

/-- All five scalars are present: `META_VALID[4:0] = 0b11111` (`43_quantizer.md` R207). -/
def MetaValid.allPresent (m : MetaValid) : Bool := m.vWsize && m.vOverlap && m.vSrate && m.vMin && m.vMax

/-- A write to META_VALID clears the bits it names; none can be set (`10_state.md` R41). -/
def MetaValid.clearBits (m : MetaValid) (v : Word) : MetaValid :=
  { vWsize := m.vWsize && !v.getLsbD 0
    vOverlap := m.vOverlap && !v.getLsbD 1
    vSrate := m.vSrate && !v.getLsbD 2
    vMin := m.vMin && !v.getLsbD 3
    vMax := m.vMax && !v.getLsbD 4 }

/-- The IRQ level: `(DONE ∧ IE_DONE) ∨ (ERR ∧ IE_ERR)`, no stored state (`10_state.md` R61, `60_exceptions.md` R282). -/
def State.irq (s : State) : Bool := (s.status.done && s.ctrl.ieDone) || (s.status.err && s.ctrl.ieErr)

/-- STATUS.BUSYWR ← 1: a write was ignored because BUSY = 1 (`45_control.md` R254, R255). -/
def State.setBusyWr (s : State) : State := { s with status := { s.status with busyWr := true } }

end Sys2Proof.Machine
end

