-- ==== Sys2Proof/Machine/Operands.lean ====
section
/-! DEFINITION. Operands: the snapshot, the integers each command computes from it, its footprints and the checks that read
them (`30_encoding.md` R116, R117, `00_scope.md` R12, R18). -/
namespace Sys2Proof.Machine

/-- `snapshot()` (`45_control.md` R251). -/
def State.snapshot (s : State) : Snapshot := ⟨s.regs, s.metaValid⟩

/-- The operands a command reads: the snapshot latched at acceptance (`30_encoding.md` R116). Where nothing is in
flight, the snapshot an acceptance would take (log entry 7). -/
def State.operands (s : State) : Snapshot :=
  match s.inFlight with
  | some l => l.snap
  | none => s.snapshot

/-! ### Register operands: unsigned integers (`30_encoding.md` R117) -/

def Snapshot.src (r : Snapshot) : Nat := r.regs.src.toNat
def Snapshot.dst (r : Snapshot) : Nat := r.regs.dst.toNat
def Snapshot.scr (r : Snapshot) : Nat := r.regs.scr.toNat
def Snapshot.size (r : Snapshot) : Nat := r.regs.size.toNat
def Snapshot.stride (r : Snapshot) : Nat := r.regs.stride.toNat
/-- L, the signal length. -/
def Snapshot.sigLen (r : Snapshot) : Nat := r.regs.sigLen.toNat
/-- W (`00_scope.md` R18). -/
def Snapshot.wsize (r : Snapshot) : Nat := r.regs.wsize.toNat
/-- OV (`00_scope.md` R18). -/
def Snapshot.overlap (r : Snapshot) : Nat := r.regs.overlap.toNat
def Snapshot.nbins (r : Snapshot) : Nat := r.regs.nbins.toNat
def Snapshot.nframes (r : Snapshot) : Nat := r.regs.nframes.toNat
/-- QMIN as a binary64 pattern, the high half above the low (`10_state.md` R54, R58). -/
def Snapshot.qmin (r : Snapshot) : F64 := r.regs.qminHi ++ r.regs.qminLo
/-- QMAX as a binary64 pattern (`10_state.md` R55). -/
def Snapshot.qmax (r : Snapshot) : F64 := r.regs.qmaxHi ++ r.regs.qmaxLo

/-! ### Derived integers, unbounded (`00_scope.md` R12, R18) -/

/-- `ispow2(n)`: n = 2^j for some j ≥ 0. -/
def isPow2 (n : Nat) : Bool := 2 ^ Nat.log2 n == n

/-- `B(W) = floor(W/2) + 1` (`40_numerics.md` R157). -/
def binCount (W : Nat) : Nat := W / 2 + 1

/-- `step = W − OV`, a mathematical integer (`10_state.md` R49, `00_scope.md` R18). -/
def Snapshot.step (r : Snapshot) : Int := (r.wsize : Int) - (r.overlap : Int)

/-- `nf = floor((L − W)/step) + 1` (`42_stft.md` R190); with no positive step there is no frame (log entry 9). -/
def Snapshot.frames (r : Snapshot) : Int :=
  if 0 < r.step then ((r.sigLen : Int) - (r.wsize : Int)) / r.step + 1 else 0

/-- n = NBINS·NFRAMES (`43_quantizer.md`). -/
def Snapshot.elems (r : Snapshot) : Nat := r.nbins * r.nframes

/-- `OUTLEN = NFRAMES·step + W` (`44_reconstruction.md` R229). -/
def Snapshot.outLen (r : Snapshot) : Int := (r.nframes : Int) * r.step + (r.wsize : Int)

/-! ### Footprints of each command (`30_encoding.md` R116) -/

/-- The footprint at `base` of a length computed as a mathematical integer; a length that is not positive is empty
(`20_memory.md` R87; log entry 9). -/
def span (base : Nat) (len : Int) : Footprint := ⟨base, len.toNat⟩

/-- The hull of the strided FFT and IFFT source (`20_memory.md` R87). -/
def Snapshot.strided (r : Snapshot) : Footprint :=
  span r.src (16 * (((r.size : Int) - 1) * (r.stride : Int) + 1))

/-- The DMEM read footprints of a command. -/
def readFootprints (i : Instr) (r : Snapshot) : List Footprint :=
  match i with
  | .nop => []
  | .fft => [r.strided]
  | .ifft => [r.strided]
  | .stft => [span r.src (8 * (r.sigLen : Int))]
  | .qenc => [span r.src (8 * (r.elems : Int))]
  | .qdec => [span r.src (r.elems : Int)]
  | .istft => [span r.src (8 * (r.elems : Int))]
  | .zphase => [span r.src (8 * (binCount r.wsize : Int))]
  | .hann => []

/-- The DMEM write footprints of a command. -/
def writeFootprints (i : Instr) (r : Snapshot) : List Footprint :=
  match i with
  | .nop => []
  | .fft => [span r.dst (16 * (r.size : Int))]
  | .ifft => [span r.dst (16 * (r.size : Int))]
  | .stft => [span r.dst (8 * ((binCount r.wsize : Int) * r.frames))]
  | .qenc => [span r.dst (r.elems : Int)]
  | .qdec => [span r.dst (8 * (r.elems : Int))]
  | .istft => [span r.dst (8 * r.outLen), span r.scr (8 * r.outLen)]
  | .zphase => [span r.dst (16 * (r.wsize : Int))]
  | .hann => [span r.dst (8 * (r.wsize : Int))]

/-- The read footprints of the command in flight; an illegal word has none. -/
def Latched.reads (l : Latched) : List Footprint :=
  match l.op with
  | .command i => readFootprints i l.snap
  | .illegal _ => []

/-- The write footprints of the command in flight; an illegal word has none. -/
def Latched.writes (l : Latched) : List Footprint :=
  match l.op with
  | .command i => writeFootprints i l.snap
  | .illegal _ => []

/-! ### The shared checks -/

/-- The size check: not a power of two, or above NMAX (`60_exceptions.md` R275). -/
def sizeCheck (p : Params) (n : Nat) : Check := (!isPow2 n || decide (p.nmax < n), .InvalidSize)

/-- The step check: `step = W − OV ≤ 0` (`60_exceptions.md` R275). -/
def stepCheck (r : Snapshot) : Check := (decide (r.step ≤ 0), .InvalidWindow)

/-- The alignment check of the given bases of real and complex arrays (`20_memory.md` R89). -/
def alignCheck (bases : List Nat) : Check := (bases.any misaligned, .Misaligned)

/-- The bounds check of every footprint of the command (`20_memory.md` R88). -/
def boundsCheck (p : Params) (i : Instr) (r : Snapshot) : Check :=
  (boundsFail p.dmemSize (readFootprints i r ++ writeFootprints i r), .OutOfBounds)

/-- The overlap check of the command's footprints (`20_memory.md` R90). -/
def overlapCheck (i : Instr) (r : Snapshot) : Check :=
  (overlapFails (readFootprints i r) (writeFootprints i r), .BufferOverlap)

end Sys2Proof.Machine
end

