-- ==== Sys2Proof/Machine/Control.lean ====
section
/-! DEFINITION. The command lifecycle: acceptance, the NOP command and the soft reset (`45_control.md`). -/
namespace Sys2Proof.Machine

/-- Acceptance of the word `c`: stored in CMD, STATUS set, the decoded command and the snapshot latched, no check
made (`45_control.md` R250, R251). -/
def State.accept (s : State) (c : Word) : State :=
  { s with
    cmd := c
    status := { s.status with lastOp := opField c, done := false, err := false, errCode := 0 }
    inFlight := some { op := decode c, snap := s.snapshot, raced := false } }

/-- NOP: no checks and nothing beyond the completion effects (`45_control.md` R256). -/
def execNop (s : State) : Host.Outcome State Fault Refusal := s.finish none id

/-- The write footprints of an abandoned command become draws; with none in flight DMEM keeps its contents
(`45_control.md` R258). -/
def State.abandon (s : State) : State :=
  match s.inFlight with
  | some l => s.drawFootprints l.writes
  | none => s

/-- The soft reset, whether or not a command is in flight (`45_control.md` R258). -/
def State.softReset (s : State) : State := s.abandon.resetRegs

end Sys2Proof.Machine
end

