-- ==== Sys2Proof/Machine/Elementary.lean ====
section
/-! DEFINITION. The five reference functions of `40_numerics.md` R150 to R154, each correctly rounded from the exact real
value. MAG is computed exactly. The others are enclosed between two rationals at a fixed-point precision, and the result is
taken when both ends round to the same binary64. Should no configured precision settle a value, the result is found by
comparing it exactly, in integers, with the points half way between neighbouring binary64 values (log entry 14). -/
namespace Sys2Proof.Machine

/-! ### Enclosures: a real x ≥ 0 at precision p lies between lo/2^p and hi/2^p -/

/-- `t 0 + … + t (n-1)`. -/
def sumTo (t : Nat → Nat) : Nat → Nat
  | 0 => 0
  | n + 1 => sumTo t n + t n

/-- Lower end of `T 0 − T 1 + T 2 − …`, 2n terms, where `t i` is the floor of `T i` and `T` decreases to 0. -/
def altLo (t : Nat → Nat) (n : Nat) : Nat :=
  sumTo (fun i => t (2 * i)) n - (sumTo (fun i => t (2 * i + 1)) n + n)

/-- Upper end of the same series, 2n + 1 terms. -/
def altHi (t : Nat → Nat) (n : Nat) : Nat :=
  sumTo (fun i => t (2 * i)) n + n + (t (2 * n) + 1) - sumTo (fun i => t (2 * i + 1)) n

/-- Floor of the term `(1/k)^(2i+1)/(2i+1)` of `arctan (1/k)`. -/
def atanTerm (p k i : Nat) : Nat := 2 ^ p / ((2 * i + 1) * k ^ (2 * i + 1))

/-- Floor of the term `(a/b)^(2i+1)/(2i+1)` of `artanh (a/b)`. -/
def atanhTerm (p a b i : Nat) : Nat := 2 ^ p * a ^ (2 * i + 1) / ((2 * i + 1) * b ^ (2 * i + 1))

/-- Lower end of `artanh (a/b)`, 0 ≤ a/b ≤ 1/2, from n terms. -/
def atanhLo (p a b n : Nat) : Nat := sumTo (atanhTerm p a b) n

/-- Upper end of `artanh (a/b)`: the tail after n terms is at most twice the next term. -/
def atanhHi (p a b n : Nat) : Nat := sumTo (atanhTerm p a b) n + n + 2 * (atanhTerm p a b n + 1)

/-- How many terms of each series are summed at precision p; the enclosure holds for every count. -/
def seriesTerms (p : Nat) : Nat := p / 3 + 4

/-- π by Machin's formula, π/4 = 4·arctan(1/5) − arctan(1/239): lower end. -/
def piLo (p : Nat) : Nat :=
  4 * (4 * altLo (atanTerm p 5) (seriesTerms p) - altHi (atanTerm p 239) (seriesTerms p))

/-- π: upper end. -/
def piHi (p : Nat) : Nat :=
  4 * (4 * altHi (atanTerm p 5) (seriesTerms p) - altLo (atanTerm p 239) (seriesTerms p))

/-- ln 2 = 2·artanh(1/3): lower end. -/
def ln2Lo (p : Nat) : Nat := 2 * atanhLo p 1 3 (seriesTerms p)

/-- ln 2: upper end. -/
def ln2Hi (p : Nat) : Nat := 2 * atanhHi p 1 3 (seriesTerms p)

/-- ln 10 = 3·ln 2 + 2·artanh(1/9): lower end. -/
def ln10Lo (p : Nat) : Nat := 3 * ln2Lo p + 2 * atanhLo p 1 9 (seriesTerms p)

/-- ln 10: upper end. -/
def ln10Hi (p : Nat) : Nat := 3 * ln2Hi p + 2 * atanhHi p 1 9 (seriesTerms p)

/-- The low 63 bits of RNE of a real between `n1/d1` and `n2/d2` units, when both ends round alike. -/
def settle (n1 d1 n2 d2 : Nat) : Option Nat :=
  if rneBits n1 d1 = rneBits n2 d2 then some (rneBits n1 d1) else none

/-- The first precision of the configured list that settles. -/
def firstSettled (f : Nat → Option Nat) : Option Nat := Config.precisions.findSome? f

/-! ### Exact comparison with the points half way between neighbours -/

/-- The pattern of +Inf, one above the greatest finite pattern. -/
def infBits : Nat := 2047 * 2 ^ 52

/-- The value, in units, of the non-negative pattern `b`; at `infBits` it is 2^1024, the value that follows the greatest
finite one. -/
def bitsMag (b : Nat) : Nat := if b / 2 ^ 52 = 0 then b else (2 ^ 52 + b % 2 ^ 52) * 2 ^ (b / 2 ^ 52 - 1)

/-- Twice the point half way between the patterns `b` and `b + 1`, in units. -/
def midUnits (b : Nat) : Nat := bitsMag b + bitsMag (b + 1)

/-- A value rounds to a pattern above `b`: it is past the half-way point, or at it and `b` is odd. -/
def roundsAbove (past onIt : Bool) (b : Nat) : Bool := decide (b < infBits) && (past || onIt && b % 2 == 1)

/-- The least pattern from `b` on, within `2^k`, that the predicate does not hold of; one binary digit a step. -/
def bisect (above : Nat → Bool) : Nat → Nat → Nat
  | 0, b => b
  | k + 1, b => if above (b + 2 ^ k - 1) then bisect above k (b + 2 ^ k) else bisect above k b

/-- The low 63 bits of RNE: at the first precision that settles, else by the exact comparison. -/
def refRound (atPrecision : Nat → Option Nat) (above : Nat → Bool) : Nat :=
  match firstSettled atPrecision with
  | some b => b
  | none => bisect above 63 0

/-! ### Cosine of a fraction of a turn (`40_numerics.md` R150, R151) -/

/-- Floor of the term `x^(2i)/(2i)!` of `cos x` at `x = X/2^p`. -/
def cosTerm (p X i : Nat) : Nat := 2 ^ p * X ^ (2 * i) / (2 ^ (p * (2 * i)) * (2 * i).factorial)

/-- Floor of the term `x^(2i+1)/(2i+1)!` of `sin x` at `x = X/2^p`. -/
def sinTerm (p X i : Nat) : Nat :=
  2 ^ p * X ^ (2 * i + 1) / (2 ^ (p * (2 * i + 1)) * (2 * i + 1).factorial)

/-- Lower end of the angle 2π·u/v. -/
def angleLo (p u v : Nat) : Nat := 2 * piLo p * u / v

/-- Upper end of the angle 2π·u/v. -/
def angleHi (p u v : Nat) : Nat := 2 * piHi p * u / v + 1

/-- RNE of cos(2π·u/v) at precision p, for 0 ≤ u/v ≤ 1/8: cosine falls, so its lower end is at the upper angle. -/
def cosOctAt (u v p : Nat) : Option Nat :=
  if angleHi p u v ≤ 2 ^ p then
    settle (altLo (cosTerm p (angleHi p u v)) (p / 6) * unitsOne) (2 ^ p)
      (altHi (cosTerm p (angleLo p u v)) (p / 6) * unitsOne) (2 ^ p)
  else none

/-- RNE of sin(2π·u/v) at precision p, for 0 ≤ u/v ≤ 1/8: sine rises. -/
def sinOctAt (u v p : Nat) : Option Nat :=
  if angleHi p u v ≤ 2 ^ p then
    settle (altLo (sinTerm p (angleLo p u v)) (p / 6) * unitsOne) (2 ^ p)
      (altHi (sinTerm p (angleHi p u v)) (p / 6) * unitsOne) (2 ^ p)
  else none

/-- `sin(jθ)/sin θ` and `sin((j+1)θ)/sin θ` for cos θ = M/D, scaled by `D^(j-1)` and `D^j`. -/
def sinSeq (M D : Nat) : Nat → Int × Int
  | 0 => (0, 1)
  | j + 1 => ((sinSeq M D j).2, 2 * (M : Int) * (sinSeq M D j).2 - (D : Int) * (D : Int) * (sinSeq M D j).1)

/-- How many positive multiples of π lie below `jθ` for cos θ = M/D: each step crosses at most one, and crosses it
exactly when the sine takes the sign of the next half turn. -/
def halfTurns (M D : Nat) : Nat → Nat
  | 0 => 0
  | j + 1 =>
    if halfTurns M D j % 2 = 0 then
      (if (sinSeq M D j).2 < 0 then halfTurns M D j + 1 else halfTurns M D j)
    else if 0 < (sinSeq M D j).2 then halfTurns M D j + 1
    else halfTurns M D j

/-- cos(2π·u/v), 0 < u/v < 1/4, compared with the half-way point above `b`, which is cos θ: it is past the point when
2π·u/v < θ, that is when 2u multiples of π lie below vθ, and at the point when vθ is the multiple 2u itself. -/
def cosAbove (u v b : Nat) : Bool :=
  decide (midUnits b < 2 * unitsOne) &&
    roundsAbove (decide (2 * u ≤ halfTurns (midUnits b) (2 * unitsOne) v))
      ((sinSeq (midUnits b) (2 * unitsOne) v).1 == 0 && halfTurns (midUnits b) (2 * unitsOne) v + 1 == 2 * u) b

/-- RNE of ±cos(2π·u/v) for 0 ≤ u/v ≤ 1/4, with the exact values 1 at 0 and +0.0 at 1/4 (`40_numerics.md` R149: a real
zero gives +0.0). Beyond 1/8 it is the sine of the complement. -/
def cosQuarter (neg : Bool) (u v : Nat) : F64 :=
  if u = 0 then mkF64 neg (rneBits unitsOne 1)
  else if 4 * u = v then f64Zero false
  else mkF64 neg (refRound (if 8 * u ≤ v then cosOctAt u v else sinOctAt (v - 4 * u) (4 * v)) (cosAbove u v))

/-- RNE of cos(2π·r/d) for 0 ≤ r/d ≤ 1/2: beyond 1/4 it is minus the cosine of 1/2 − r/d. -/
def cosHalf (r d : Nat) : F64 :=
  if 4 * r ≤ d then cosQuarter false r d else cosQuarter true (d - 2 * r) (2 * d)

/-- RNE of cos(2π·n/d), d > 0: the fraction is taken modulo one turn, and beyond 1/2 the angle is mirrored. -/
def cosTurns (n d : Nat) : F64 :=
  if 2 * (n % d) ≤ d then cosHalf (n % d) d else cosHalf (d - n % d) d

/-- `TWIDDLE(k, m)` (`40_numerics.md` R150); −sin θ is the cosine a quarter turn later. -/
def twiddle (k m : Nat) : Cplx := ⟨cosTurns k m, cosTurns (4 * k + m) (4 * m)⟩

/-- `HANNCOS(n, W)` for W ≥ 2 (`40_numerics.md` R151). -/
def hannCos (n W : Nat) : F64 := cosTurns n (W - 1)

/-! ### Magnitude (`40_numerics.md` R152) -/

/-- Integer square root of `n < 4^k`, one binary digit a step. -/
def isqrt : Nat → Nat → Nat
  | 0, _ => 0
  | k + 1, n =>
    if (2 * isqrt k (n / 4) + 1) * (2 * isqrt k (n / 4) + 1) ≤ n then 2 * isqrt k (n / 4) + 1
    else 2 * isqrt k (n / 4)

/-- How many low base-4 digits of `n` the root drops: about 57 bits of root remain. -/
def sqrtShift (n : Nat) : Nat := (Nat.log2 n - 112) / 2

/-- The leading bits of the square root of `n`. -/
def sqrtHead (n : Nat) : Nat := isqrt 58 (n / 4 ^ sqrtShift n)

/-- RNE of the square root of `n` (in units). The root of 4n is found in half units; an inexact root is replaced by a
point strictly between its neighbours, where no rounding boundary lies. -/
def rneSqrtBits (n : Nat) : Nat :=
  if sqrtHead (4 * n) * sqrtHead (4 * n) * 4 ^ sqrtShift (4 * n) = 4 * n then
    rneBits (2 * sqrtHead (4 * n) * 2 ^ sqrtShift (4 * n)) 4
  else rneBits ((2 * sqrtHead (4 * n) + 1) * 2 ^ sqrtShift (4 * n)) 4

/-- `MAG((re, im))` (`40_numerics.md` R152). -/
def mag (z : Cplx) : F64 :=
  if isInf z.re || isInf z.im then f64Inf false
  else if isNaN z.re || isNaN z.im then f64NaN
  else mkF64 false (rneSqrtBits (f64Mag z.re * f64Mag z.re + f64Mag z.im * f64Mag z.im))

/-! ### Base-10 logarithm (`40_numerics.md` R153) -/

/-- The 53-bit significand of a magnitude of M > 0 units: `M = sig·2^(log2 M − 52)`. -/
def sig53 (M : Nat) : Nat := M * 2 ^ 52 / 2 ^ Nat.log2 M

/-- The reduced value f = sig/2^c lies in [2/3, 4/3]: c is 52, or 53 when sig/2^52 is above 4/3. -/
def sigShift (M : Nat) : Nat := if 3 * sig53 M ≤ 4 * 2 ^ 52 then 52 else 53

/-- |f − 1| over f + 1, the argument of artanh: numerator. -/
def atanhNum (M : Nat) : Nat :=
  if 2 ^ sigShift M ≤ sig53 M then sig53 M - 2 ^ sigShift M else 2 ^ sigShift M - sig53 M

/-- |f − 1| over f + 1: denominator. -/
def atanhDen (M : Nat) : Nat := sig53 M + 2 ^ sigShift M

/-- The power of two taken out: a value of M units is f·2^E. -/
def logExp (M : Nat) : Int := (Nat.log2 M : Int) - 52 + (sigShift M : Int) - 1074

/-- Lower end of ln of M units at precision p, scaled: `E·ln 2 + 2·artanh((f−1)/(f+1))`. -/
def lnLo (M p : Nat) : Int :=
  logExp M * (if 0 ≤ logExp M then (ln2Lo p : Int) else (ln2Hi p : Int)) +
  (if 2 ^ sigShift M ≤ sig53 M then (2 * atanhLo p (atanhNum M) (atanhDen M) (seriesTerms p) : Int)
    else -(2 * atanhHi p (atanhNum M) (atanhDen M) (seriesTerms p) : Int))

/-- Upper end of ln of M units at precision p. -/
def lnHi (M p : Nat) : Int :=
  logExp M * (if 0 ≤ logExp M then (ln2Hi p : Int) else (ln2Lo p : Int)) +
  (if 2 ^ sigShift M ≤ sig53 M then (2 * atanhHi p (atanhNum M) (atanhDen M) (seriesTerms p) : Int)
    else -(2 * atanhLo p (atanhNum M) (atanhDen M) (seriesTerms p) : Int))

/-- RNE of |ln| / ln 10 at precision p, when the sign is settled: for a value above 1 (`big`) or below 1. -/
def log10At (M : Nat) (big : Bool) (p : Nat) : Option Nat :=
  if big then
    if 0 ≤ lnLo M p then
      settle ((lnLo M p).toNat * unitsOne) (ln10Hi p) ((lnHi M p).toNat * unitsOne) (ln10Lo p)
    else none
  else
    if lnHi M p ≤ 0 then
      settle ((-lnHi M p).toNat * unitsOne) (ln10Hi p) ((-lnLo M p).toNat * unitsOne) (ln10Lo p)
    else none

/-- |log10| of M units compared with the half-way point above `b`, which is the reduced fraction e/f: S/U is past it
when `S^f > 10^e·U^f`. -/
def log10Above (M : Nat) (big : Bool) (b : Nat) : Bool :=
  roundsAbove
    (decide ((if big then unitsOne else M) ^ (2 * unitsOne / Nat.gcd (midUnits b) (2 * unitsOne))
        * 10 ^ (midUnits b / Nat.gcd (midUnits b) (2 * unitsOne))
      < (if big then M else unitsOne) ^ (2 * unitsOne / Nat.gcd (midUnits b) (2 * unitsOne))))
    ((if big then unitsOne else M) ^ (2 * unitsOne / Nat.gcd (midUnits b) (2 * unitsOne))
        * 10 ^ (midUnits b / Nat.gcd (midUnits b) (2 * unitsOne))
      == (if big then M else unitsOne) ^ (2 * unitsOne / Nat.gcd (midUnits b) (2 * unitsOne))) b

/-- `LOG10R(s)` (`40_numerics.md` R153). -/
def log10R (s : F64) : F64 :=
  if isNaN s then f64NaN
  else if isZero s then f64Inf true
  else if f64Sign s then f64NaN
  else if isInf s then f64Inf false
  else if f64Mag s = unitsOne then f64Zero false
  else
    mkF64 (decide (f64Mag s < unitsOne))
      (refRound (log10At (f64Mag s) (decide (unitsOne < f64Mag s)))
        (log10Above (f64Mag s) (decide (unitsOne < f64Mag s))))

/-! ### Power of ten (`40_numerics.md` R154) -/

/-- Floor of the term `r^i/i!` of `exp r` at `r = R/2^p`. -/
def expTerm (p R i : Nat) : Nat := 2 ^ p * R ^ i / (2 ^ (p * i) * i.factorial)

/-- Lower end of `exp r`. -/
def expLo (p R n : Nat) : Nat := sumTo (expTerm p R) n

/-- Upper end of `exp r` for 0 ≤ r ≤ 1: the tail after n ≥ 1 terms is at most twice the next term. -/
def expHi (p R n : Nat) : Nat := sumTo (expTerm p R) n + n + 2 * (expTerm p R n + 1)

/-- |x|·ln 10 for x of X units, at precision p: lower end. -/
def tenLo (p X : Nat) : Nat := X * ln10Lo p / unitsOne

/-- |x|·ln 10: upper end. -/
def tenHi (p X : Nat) : Nat := X * ln10Hi p / unitsOne + 1

/-- RNE of 10^x for x = X units > 0, not an integer: 10^x = 2^k·exp(r), k = ⌊x·ln 10 / ln 2⌋ up to the enclosure. -/
def exp10PosAt (X p : Nat) : Option Nat :=
  if tenHi p X - tenLo p X / ln2Hi p * ln2Lo p ≤ 2 ^ p then
    settle
      (expLo p (tenLo p X - tenLo p X / ln2Hi p * ln2Hi p) (seriesTerms p)
        * 2 ^ (1074 + tenLo p X / ln2Hi p)) (2 ^ p)
      (expHi p (tenHi p X - tenLo p X / ln2Hi p * ln2Lo p) (seriesTerms p)
        * 2 ^ (1074 + tenLo p X / ln2Hi p)) (2 ^ p)
  else none

/-- RNE of 10^(−x) for x = X units > 0, not an integer: 10^(−x) = 2^(−k)·exp(r) with r = k·ln 2 − x·ln 10 ≥ 0. -/
def exp10NegAt (X p : Nat) : Option Nat :=
  if (tenHi p X / ln2Lo p + 1) * ln2Hi p - tenLo p X ≤ 2 ^ p then
    settle
      (expLo p ((tenHi p X / ln2Lo p + 1) * ln2Lo p - tenHi p X) (seriesTerms p) * unitsOne)
      (2 ^ (p + (tenHi p X / ln2Lo p + 1)))
      (expHi p ((tenHi p X / ln2Lo p + 1) * ln2Hi p - tenLo p X) (seriesTerms p) * unitsOne)
      (2 ^ (p + (tenHi p X / ln2Lo p + 1)))
  else none

/-- RNE of 10^j or 10^(−j) for an integer j: an exact rational. -/
def exp10Int (neg : Bool) (j : Nat) : F64 :=
  if neg then rne false unitsOne (10 ^ j) else rne false (10 ^ j * unitsOne) 1

/-- 10^x, x = ±e/f (reduced) of X units, compared with the half-way point above `b`, which is m/d: 10^(e/f) is past it
when `10^e·d^f > m^f`, and 10^(-e/f) when `d^f > m^f·10^e`. -/
def exp10Above (X : Nat) (neg : Bool) (b : Nat) : Bool :=
  roundsAbove
    (decide (midUnits b ^ (unitsOne / Nat.gcd X unitsOne) * (if neg then 10 ^ (X / Nat.gcd X unitsOne) else 1)
      < (2 * unitsOne) ^ (unitsOne / Nat.gcd X unitsOne) * (if neg then 1 else 10 ^ (X / Nat.gcd X unitsOne))))
    (midUnits b ^ (unitsOne / Nat.gcd X unitsOne) * (if neg then 10 ^ (X / Nat.gcd X unitsOne) else 1)
      == (2 * unitsOne) ^ (unitsOne / Nat.gcd X unitsOne) * (if neg then 1 else 10 ^ (X / Nat.gcd X unitsOne))) b

/-- `EXP10R(x)` (`40_numerics.md` R154); beyond |x| = 400 it overflows or underflows. -/
def exp10R (x : F64) : F64 :=
  if isNaN x then f64NaN
  else if isInf x || decide (400 * unitsOne < f64Mag x) then
    (if f64Sign x then f64Zero false else f64Inf false)
  else if f64Mag x % unitsOne = 0 then exp10Int (f64Sign x) (f64Mag x / unitsOne)
  else
    mkF64 false
      (refRound (if f64Sign x then exp10NegAt (f64Mag x) else exp10PosAt (f64Mag x))
        (exp10Above (f64Mag x) (f64Sign x)))

end Sys2Proof.Machine
end

