-- ==== Sys2Proof/Machine/Quantizer.lean ====
section
/-! DEFINITION. The Quantization Codec commands QENC and QDEC (`43_quantizer.md`). -/
namespace Sys2Proof.Machine

/-- `LOGMAG(v) = fmul(TEN, LOG10R(fadd(v, EPS)))` (`43_quantizer.md` R205). -/
def logMag (v : F64) : F64 := fmul TEN (log10R (fadd v EPS))

/-- The real array of n elements at `base`. -/
def State.readF64s (s : State) (base n : Nat) : List F64 := (List.range n).map (fun j => s.readF64 (base + 8 * j))

/-- Pass 1 of QENC: the log values of the n elements (`43_quantizer.md` R206). -/
def State.logValues (s : State) (r : Snapshot) : List F64 := (s.readF64s r.src r.elems).map logMag

/-- The byte of one log value: `255·(log − min)/(max − min)`, rounded ties to even and clamped to [0, 255]
(`43_quantizer.md` R206). -/
def quantize (mn mx l : F64) : Byte :=
  BitVec.ofInt 8 (min 255 (max 0 (roundi (fdiv (fmul C255 (fsub l mn)) (fsub mx mn)))))

/-- The parameter and memory checks of QENC, in order (`43_quantizer.md` R206, 1 to 4). -/
def qencChecks (p : Params) (r : Snapshot) : List Check :=
  [(r.elems == 0, .DegenerateRange), alignCheck [r.src], boundsCheck p .qenc r, overlapCheck .qenc r]

/-- The data checks of QENC on the log values, made after reading every element (`43_quantizer.md` R206, 5 and 6). -/
def qencDataChecks (ls : List F64) : List Check :=
  [(ls.any (fun l => !isFin l), .NonFinite), (feq (fmaxList ls) (fminList ls), .DegenerateRange)]

/-- The result registers of QENC: both halves of QMIN and QMAX, V_MIN and V_MAX (`43_quantizer.md` R206). -/
def State.setRange (s : State) (mn mx : F64) : State :=
  { s with
    regs := { s.regs with
      qminLo := mn.extractLsb' 0 32, qminHi := mn.extractLsb' 32 32
      qmaxLo := mx.extractLsb' 0 32, qmaxHi := mx.extractLsb' 32 32 }
    metaValid := { s.metaValid with vMin := true, vMax := true } }

/-- QENC (`43_quantizer.md` R206). -/
def execQenc (s : State) : Host.Outcome State Fault Refusal :=
  s.finish
    ((firstError (qencChecks s.params s.operands)).or (firstError (qencDataChecks (s.logValues s.operands))))
    (fun t =>
      (t.writeU8s s.operands.dst
        ((s.logValues s.operands).map
          (quantize (fminList (s.logValues s.operands)) (fmaxList (s.logValues s.operands))))).setRange
        (fminList (s.logValues s.operands)) (fmaxList (s.logValues s.operands)))

/-- The checks of QDEC, in order (`43_quantizer.md` R207). -/
def qdecChecks (p : Params) (r : Snapshot) : List Check :=
  [(!r.metaValid.allPresent, .MissingMetadata), alignCheck [r.dst],
    boundsCheck p .qdec r, overlapCheck .qdec r]

/-- One decoded element: `10^((q/255·(max−min) + min)/10) − 1e-6` (`43_quantizer.md` R207). -/
def dequantize (mn mx : F64) (q : Nat) : F64 :=
  fsub (exp10R (fdiv (fadd (fmul (fdiv (f64OfNat q) C255) (fsub mx mn)) mn) TEN)) EPS

/-- QDEC (`43_quantizer.md` R207). -/
def execQdec (s : State) : Host.Outcome State Fault Refusal :=
  s.finish (firstError (qdecChecks s.params s.operands)) (fun t =>
    t.writeF64s s.operands.dst
      ((List.range s.operands.elems).map (fun j =>
        dequantize s.operands.qmin s.operands.qmax (s.readU8 (s.operands.src + j)))))

end Sys2Proof.Machine
end

