-- ==== Sys2Proof/Machine/Fft.lean ====
section
/-! DEFINITION. The FFT Engine: the transform functions FFTL and IFFTL and the commands FFT and IFFT (`41_fft.md`). -/
namespace Sys2Proof.Machine

/-- `xs[0::2]`. -/
def evens {α : Type} : List α → List α
  | [] => []
  | [x] => [x]
  | x :: _ :: xs => x :: evens xs

/-- `xs[1::2]`. -/
def odds {α : Type} : List α → List α
  | [] => []
  | [_] => []
  | _ :: y :: xs => y :: odds xs

/-- The products `cmul(O[k], TWIDDLE(k, m))` for k = 0, 1, … (`41_fft.md` R170). -/
def twiddled (m : Nat) (os : List Cplx) : List Cplx := os.zipIdx.map (fun (o, k) => cmul o (twiddle k m))

/-- The butterfly: `E[k] + t[k]` for the lower half of the bins and `E[k] − t[k]` for the upper (`41_fft.md` R170). -/
def butterfly (es ts : List Cplx) : List Cplx := List.zipWith cadd es ts ++ List.zipWith csub es ts

/-- `FFTL(xs)` for a list of length `2^j`, by the recursion of `41_fft.md` R170. -/
def fftl : Nat → List Cplx → List Cplx
  | 0, xs => xs
  | j + 1, xs => butterfly (fftl j (evens xs)) (twiddled (2 ^ (j + 1)) (fftl j (odds xs)))

/-- `FFTL(xs)` with the length m = len(xs), a power of two. -/
def FFTL (xs : List Cplx) : List Cplx := fftl (Nat.log2 xs.length) xs

/-- `IFFTL(xs)`: conjugate, transform, conjugate, divide by m once (`41_fft.md` R173). -/
def IFFTL (xs : List Cplx) : List Cplx :=
  (FFTL (xs.map conj)).map
    (fun y => ⟨fdiv y.re (f64OfNat xs.length), fdiv (fneg y.im) (f64OfNat xs.length)⟩)

/-- `GATHER(src, size, stride)` (`41_fft.md` R171). -/
def State.gather (s : State) (src size stride : Nat) : List Cplx :=
  (List.range size).map (fun j => s.readC (src + 16 * stride * j))

/-- The checks of FFT, in order (`41_fft.md` R172). -/
def fftChecks (p : Params) (r : Snapshot) : List Check :=
  [sizeCheck p r.size, alignCheck [r.src, r.dst], boundsCheck p .fft r, overlapCheck .fft r]

/-- FFT (`41_fft.md` R172). -/
def execFft (s : State) : Host.Outcome State Fault Refusal :=
  s.finish (firstError (fftChecks s.params s.operands)) (fun t =>
    t.writeCs s.operands.dst (FFTL (s.gather s.operands.src s.operands.size s.operands.stride)))

/-- The checks of IFFT, the same four (`41_fft.md` R174). -/
def ifftChecks (p : Params) (r : Snapshot) : List Check :=
  [sizeCheck p r.size, alignCheck [r.src, r.dst], boundsCheck p .ifft r, overlapCheck .ifft r]

/-- IFFT (`41_fft.md` R174). -/
def execIfft (s : State) : Host.Outcome State Fault Refusal :=
  s.finish (firstError (ifftChecks s.params s.operands)) (fun t =>
    t.writeCs s.operands.dst (IFFTL (s.gather s.operands.src s.operands.size s.operands.stride)))

end Sys2Proof.Machine
end

