-- ==== Sys2Proof/Machine/Reconstruction.lean ====
section
/-! DEFINITION. The Audio Reconstruction commands HANN, ZPHASE and ISTFT (`44_reconstruction.md`). -/
namespace Sys2Proof.Machine

/-! ### Hann window -/

/-- `HANNW(W)[n] = fsub(HALF, fmul(HALF, HANNCOS(n, W)))` (`44_reconstruction.md` R225). -/
def hannW (W : Nat) : List F64 := (List.range W).map (fun n => fsub HALF (fmul HALF (hannCos n W)))

/-- The checks of HANN, in order; it reads no DMEM, so there is no overlap check (`44_reconstruction.md` R226). -/
def hannChecks (p : Params) (r : Snapshot) : List Check :=
  [sizeCheck p r.wsize, (decide (r.wsize < 2), .InvalidWindow), alignCheck [r.dst], boundsCheck p .hann r]

/-- HANN (`44_reconstruction.md` R226). -/
def execHann (s : State) : Host.Outcome State Fault Refusal :=
  s.finish (firstError (hannChecks s.params s.operands)) (fun t =>
    t.writeF64s s.operands.dst (hannW s.operands.wsize))

/-! ### Zero-phase spectrum builder -/

/-- Bin k of `ZP(c, W)`: the retained bins have imaginary part +0.0, the mirrored ones are conjugates, with −0.0
(`44_reconstruction.md` R227). -/
def zpBin (c : List F64) (W k : Nat) : Cplx :=
  if k < binCount W then ⟨c.getD k 0, f64Zero false⟩ else ⟨c.getD (W - k) 0, f64Zero true⟩

/-- `ZP(c, W)` (`44_reconstruction.md` R227). -/
def zp (c : List F64) (W : Nat) : List Cplx := (List.range W).map (zpBin c W)

/-- The checks of ZPHASE, in order (`44_reconstruction.md` R228). -/
def zphaseChecks (p : Params) (r : Snapshot) : List Check :=
  [sizeCheck p r.wsize, alignCheck [r.src, r.dst], boundsCheck p .zphase r, overlapCheck .zphase r]

/-- ZPHASE (`44_reconstruction.md` R228). -/
def execZphase (s : State) : Host.Outcome State Fault Refusal :=
  s.finish (firstError (zphaseChecks s.params s.operands)) (fun t =>
    t.writeCs s.operands.dst
      (zp ((List.range (binCount s.operands.wsize)).map (fun k => s.readF64 (s.operands.src + 8 * k)))
        s.operands.wsize))

/-! ### Inverse STFT with overlap-add -/

/-- `acc[p + n] ← fadd(acc[p + n], xs[n])` for every n, in ascending order (`44_reconstruction.md` R229). -/
def addAt : Nat → List F64 → List F64 → List F64
  | _, _, [] => []
  | _, [], acc => acc
  | 0, x :: xs, a :: acc => fadd a x :: addAt 0 xs acc
  | p + 1, xs, a :: acc => a :: addAt p xs acc

/-- Magnitude column i of the bin-major matrix at `src` (`44_reconstruction.md` R229, `20_memory.md` R86). -/
def State.column (s : State) (src nb nf i : Nat) : List F64 :=
  (List.range nb).map (fun k => s.readF64 (src + 8 * (k * nf + i)))

/-- The windowed real part of the inverse transform of column i (`44_reconstruction.md` R229). -/
def windowed (W : Nat) (c : List F64) : List F64 :=
  List.zipWith (fun x w => fmul x.re w) (IFFTL (zp c W)) (hannW W)

/-- The signal accumulator after all frames, in ascending order (`44_reconstruction.md` R229). -/
def State.signalAcc (s : State) (r : Snapshot) : List F64 :=
  (List.range r.nframes).foldl
    (fun acc i => addAt (i * r.step.toNat) (windowed r.wsize (s.column r.src (binCount r.wsize) r.nframes i)) acc)
    (List.replicate r.outLen.toNat (f64Zero false))

/-- The window-energy accumulator after all frames: it sums w itself (`44_reconstruction.md` R229,
`90_conflicts.md` C4). -/
def energyAcc (r : Snapshot) : List F64 :=
  (List.range r.nframes).foldl (fun en i => addAt (i * r.step.toNat) (hannW r.wsize) en)
    (List.replicate r.outLen.toNat (f64Zero false))

/-- One output sample: the quotient where the energy exceeds EPS, +0.0 elsewhere (`44_reconstruction.md` R229). -/
def normalize (a e : F64) : F64 := if flt EPS e then fdiv a e else f64Zero false

/-- The checks of ISTFT, in order (`44_reconstruction.md` R229). -/
def istftChecks (p : Params) (r : Snapshot) : List Check :=
  [stepCheck r, sizeCheck p r.wsize, (decide (r.wsize < 2), .InvalidWindow),
    (r.nbins != binCount r.wsize, .ShapeMismatch), alignCheck [r.src, r.dst, r.scr],
    boundsCheck p .istft r, overlapCheck .istft r]

/-- The result register of ISTFT (`44_reconstruction.md` R229, `10_state.md` R53). -/
def State.setOutlen (s : State) (n : Nat) : State := { s with outlen := BitVec.ofNat 32 n }

/-- ISTFT (`44_reconstruction.md` R229): the output to DST, the energies to SCR, the length to OUTLEN. -/
def execIstft (s : State) : Host.Outcome State Fault Refusal :=
  s.finish (firstError (istftChecks s.params s.operands)) (fun t =>
    ((t.writeF64s s.operands.dst
        (List.zipWith normalize (s.signalAcc s.operands) (energyAcc s.operands))).writeF64s
      s.operands.scr (energyAcc s.operands)).setOutlen s.operands.outLen.toNat)

end Sys2Proof.Machine
end

