-- ==== Sys2Proof/Machine/Stft.lean ====
section
/-! DEFINITION. The Spectrogram Transform command STFT (`42_stft.md`). -/
namespace Sys2Proof.Machine

/-- The bin-major flat array of a matrix given by its `nfr` columns: element `[k][i]` at index `k·nfr + i`
(`20_memory.md` R86). -/
def binMajor (nb : Nat) (cols : List (List F64)) : List F64 :=
  (List.range nb).flatMap (fun k => cols.map (fun c => c.getD k 0))

/-- Frame i: W samples from `i·step`, each a complex value with imaginary part +0 (`42_stft.md` R191). -/
def State.frameAt (s : State) (src W start : Nat) : List Cplx :=
  (List.range W).map (fun n => ⟨s.readF64 (src + 8 * (start + n)), 0⟩)

/-- The magnitudes of the transform of frame i; bins at and above B are dropped by `binMajor`. -/
def State.frameMags (s : State) (src W start : Nat) : List F64 := (FFTL (s.frameAt src W start)).map mag

/-- The magnitude columns, frame by frame. -/
def State.stftColumns (s : State) (src W step nf : Nat) : List (List F64) :=
  (List.range nf).map (fun i => s.frameMags src W (i * step))

/-- The checks of STFT, in order (`42_stft.md` R191). -/
def stftChecks (p : Params) (r : Snapshot) : List Check :=
  [stepCheck r, (decide (r.sigLen < r.wsize), .SignalTooShort), sizeCheck p r.wsize,
    alignCheck [r.src, r.dst], boundsCheck p .stft r, overlapCheck .stft r]

/-- The result registers of STFT: NBINS ← B and NFRAMES ← nf (`42_stft.md` R191). -/
def State.setShape (s : State) (nb nf : Nat) : State :=
  { s with regs := { s.regs with nbins := BitVec.ofNat 32 nb, nframes := BitVec.ofNat 32 nf } }

/-- STFT (`42_stft.md` R191). -/
def execStft (s : State) : Host.Outcome State Fault Refusal :=
  s.finish (firstError (stftChecks s.params s.operands)) (fun t =>
    (t.writeF64s s.operands.dst
      (binMajor (binCount s.operands.wsize)
        (s.stftColumns s.operands.src s.operands.wsize s.operands.step.toNat s.operands.frames.toNat))).setShape
      (binCount s.operands.wsize) s.operands.frames.toNat)

end Sys2Proof.Machine
end

