-- ==== Sys2Proof/Machine/Dispatch.lean ====
section
/-! DEFINITION. exec: the completion of each command, one arm per constructor of Instr (`45_control.md` R252). -/
namespace Sys2Proof.Machine

def exec (i : Instr) (s : State) : Host.Outcome State Fault Refusal :=
  match i with
  | .nop => Sys2Proof.Machine.execNop s
  | .fft => Sys2Proof.Machine.execFft s
  | .ifft => Sys2Proof.Machine.execIfft s
  | .stft => Sys2Proof.Machine.execStft s
  | .qenc => Sys2Proof.Machine.execQenc s
  | .qdec => Sys2Proof.Machine.execQdec s
  | .istft => Sys2Proof.Machine.execIstft s
  | .zphase => Sys2Proof.Machine.execZphase s
  | .hann => Sys2Proof.Machine.execHann s

end Sys2Proof.Machine
end

