-- ==== Sys2Proof/Machine/RegMap.lean ====
section
/-! DEFINITION. The register map: the mapped registers and their offsets in the 4 KiB window (`10_state.md` R34). -/
namespace Sys2Proof.Machine

/-- The mapped registers of `10_state.md` R34. -/
inductive RegName where
  | ID | VERSION | CAP | CTRL | STATUS | CMD | META_VALID
  | SRC | DST | SCR | SIZE | STRIDE | SIG_LEN | WSIZE | OVERLAP | SRATE | NBINS | NFRAMES | OUTLEN
  | QMIN_LO | QMIN_HI | QMAX_LO | QMAX_HI
  deriving DecidableEq, Repr

/-- The byte offset of each register in the window (`10_state.md` R34). -/
def regOffset : RegName → BitVec 12
  | .ID => 0x000#12
  | .VERSION => 0x004#12
  | .CAP => 0x008#12
  | .CTRL => 0x00C#12
  | .STATUS => 0x010#12
  | .CMD => 0x014#12
  | .META_VALID => 0x018#12
  | .SRC => 0x020#12
  | .DST => 0x024#12
  | .SCR => 0x028#12
  | .SIZE => 0x02C#12
  | .STRIDE => 0x030#12
  | .SIG_LEN => 0x034#12
  | .WSIZE => 0x038#12
  | .OVERLAP => 0x03C#12
  | .SRATE => 0x040#12
  | .NBINS => 0x044#12
  | .NFRAMES => 0x048#12
  | .OUTLEN => 0x04C#12
  | .QMIN_LO => 0x050#12
  | .QMIN_HI => 0x054#12
  | .QMAX_LO => 0x058#12
  | .QMAX_HI => 0x05C#12

/-- The register at an aligned offset; none at a reserved one, 0x01C and 0x060 to 0xFFF (`10_state.md` R34, R56). -/
def regAt (off : BitVec 12) : Option RegName :=
  match off.toNat with
  | 0x000 => some .ID
  | 0x004 => some .VERSION
  | 0x008 => some .CAP
  | 0x00C => some .CTRL
  | 0x010 => some .STATUS
  | 0x014 => some .CMD
  | 0x018 => some .META_VALID
  | 0x020 => some .SRC
  | 0x024 => some .DST
  | 0x028 => some .SCR
  | 0x02C => some .SIZE
  | 0x030 => some .STRIDE
  | 0x034 => some .SIG_LEN
  | 0x038 => some .WSIZE
  | 0x03C => some .OVERLAP
  | 0x040 => some .SRATE
  | 0x044 => some .NBINS
  | 0x048 => some .NFRAMES
  | 0x04C => some .OUTLEN
  | 0x050 => some .QMIN_LO
  | 0x054 => some .QMIN_HI
  | 0x058 => some .QMAX_LO
  | 0x05C => some .QMAX_HI
  | _ => none

end Sys2Proof.Machine
end

