-- ==== Sys2Proof/WellFormed.lean ====
section
/-! DEFINITION. Well-formedness. A command has no operand that could be ill-formed (`30_encoding.md` R116), so every
command is well-formed; the accesses that are HOST duties never to make are the ill-formed events (`45_control.md` R263). -/
namespace Sys2Proof

/-- Every command is well-formed: there is no operand field to check (`30_encoding.md` R110, R116). -/
def Instr.wellFormed : Instr → Bool
  | .nop => true
  | .fft => true
  | .ifft => true
  | .stft => true
  | .qenc => true
  | .qdec => true
  | .istft => true
  | .zphase => true
  | .hann => true

/-- The register port defines only accesses of 32 bits (`10_state.md` R57). -/
def regWidthOk (width : Nat) : Bool := width == 4

/-- The register port defines only offsets that are multiples of 4 (`10_state.md` R57). -/
def regOffsetOk (offset : BitVec 12) : Bool := offset.toNat % 4 == 0

/-- The DMEM port accepts widths 1, 2, 4 and 8 (`20_memory.md` R91). -/
def memWidthOk (width : Nat) : Bool := width == 1 || width == 2 || width == 4 || width == 8

/-- The DMEM port accepts addresses that are a multiple of the width (`20_memory.md` R91). -/
def memAlignOk (addr width : Nat) : Bool := addr % width == 0

/-- An event that has a step: for an access, one that keeps the HOST duties of `45_control.md` R263. -/
def HostEventOk : Machine.HostEvent → Bool
  | .regWrite off w _ => regWidthOk w && regOffsetOk off
  | .regRead off w => regWidthOk w && regOffsetOk off
  | .memWrite a w _ => memWidthOk w && memAlignOk a w
  | .memRead a w => memWidthOk w && memAlignOk a w
  | .resetPin _ => true
  | .waitLoop => true

end Sys2Proof
end

