-- ==== Sys2Proof/Machine/HostPort.lean ====
section
/-! DEFINITION. CORE's ports as the HOST uses them: register reads and writes, the DMEM port with the footprint race, and the
RESET level (`10_state.md`, `20_memory.md` R91 and R97, `45_control.md` R254 to R263). -/
namespace Sys2Proof.Machine

/-! ### Register reads (`45_control.md` R260) -/

/-- CAP: LOG2_NMAX in [4:0], LOG2_DMEM in [13:8], the rest 0 (`10_state.md` R37). -/
def State.capWord (s : State) : Word :=
  0#18 ++ BitVec.ofNat 6 s.params.log2Dmem ++ 0#3 ++ BitVec.ofNat 5 s.params.log2Nmax

/-- The current value of a register; a read has no side effect (`45_control.md` R260, `10_state.md` R34 to R55). -/
def State.readReg (s : State) : RegName → Word
  | .ID => 0x46465432#32
  | .VERSION => 0x00010000#32
  | .CAP => s.capWord
  | .CTRL => s.ctrlWord
  | .STATUS => s.statusWord
  | .CMD => s.cmd
  | .META_VALID => metaWord s.metaValid
  | .SRC => s.regs.src
  | .DST => s.regs.dst
  | .SCR => s.regs.scr
  | .SIZE => s.regs.size
  | .STRIDE => s.regs.stride
  | .SIG_LEN => s.regs.sigLen
  | .WSIZE => s.regs.wsize
  | .OVERLAP => s.regs.overlap
  | .SRATE => s.srate
  | .NBINS => s.regs.nbins
  | .NFRAMES => s.regs.nframes
  | .OUTLEN => s.outlen
  | .QMIN_LO => s.regs.qminLo
  | .QMIN_HI => s.regs.qminHi
  | .QMAX_LO => s.regs.qmaxLo
  | .QMAX_HI => s.regs.qmaxHi

/-- What a read at an aligned offset returns; a reserved offset reads 0 (`10_state.md` R56). -/
def State.readOffset (s : State) (off : BitVec 12) : Word :=
  match regAt off with
  | some n => s.readReg n
  | none => 0

/-! ### Register writes -/

/-- A write to CTRL: with bit 31 set the soft reset and nothing else, otherwise the two enables (`10_state.md` R38,
`45_control.md` R258). -/
def State.ctrlWrite (s : State) (v : Word) : State :=
  if v.getLsbD 31 then s.softReset
  else { s with ctrl := { ieDone := v.getLsbD 0, ieErr := v.getLsbD 1 } }

/-- A write, accepted because BUSY = 0, to CMD, META_VALID or a parameter register, with its effect on META_VALID
(`10_state.md` R40 to R52, R54, R55). The registers a write never changes here are CTRL and STATUS, which
`State.writeReg` handles, and the read-only ones. -/
def State.writeIdle (s : State) (n : RegName) (v : Word) : State :=
  match n with
  | .ID => s
  | .VERSION => s
  | .CAP => s
  | .CTRL => s
  | .STATUS => s
  | .CMD => s.accept v
  | .META_VALID => { s with metaValid := s.metaValid.clearBits v }
  | .SRC => { s with regs := { s.regs with src := v } }
  | .DST => { s with regs := { s.regs with dst := v } }
  | .SCR => { s with regs := { s.regs with scr := v } }
  | .SIZE => { s with regs := { s.regs with size := v } }
  | .STRIDE => { s with regs := { s.regs with stride := v } }
  | .SIG_LEN => { s with regs := { s.regs with sigLen := v } }
  | .WSIZE => { s with regs := { s.regs with wsize := v }, metaValid := { s.metaValid with vWsize := true } }
  | .OVERLAP => { s with regs := { s.regs with overlap := v }, metaValid := { s.metaValid with vOverlap := true } }
  | .SRATE => { s with srate := v, metaValid := { s.metaValid with vSrate := v != 0 } }
  | .NBINS => { s with regs := { s.regs with nbins := v } }
  | .NFRAMES => { s with regs := { s.regs with nframes := v } }
  | .OUTLEN => s
  | .QMIN_LO => { s with regs := { s.regs with qminLo := v } }
  | .QMIN_HI => { s with regs := { s.regs with qminHi := v }, metaValid := { s.metaValid with vMin := true } }
  | .QMAX_LO => { s with regs := { s.regs with qmaxLo := v } }
  | .QMAX_HI => { s with regs := { s.regs with qmaxHi := v }, metaValid := { s.metaValid with vMax := true } }

/-- A register the busy-write rule does not guard is read-only (writes ignored at all times) or CTRL or STATUS
(`45_control.md` R255). -/
def busyGuarded : RegName → Bool
  | .ID => false
  | .VERSION => false
  | .CAP => false
  | .CTRL => false
  | .STATUS => false
  | .OUTLEN => false
  | _ => true

/-- A HOST write of `v` to a register: CTRL and STATUS take effect at any time; a guarded register's write is ignored
and sets BUSYWR while BUSY; a read-only register's write is ignored (`45_control.md` R254, R255, R259). -/
def State.writeReg (s : State) (n : RegName) (v : Word) : State :=
  if busyGuarded n && s.busy then s.setBusyWr
  else
    match n with
    | .CTRL => s.ctrlWrite v
    | .STATUS => s.statusWrite v
    | _ => s.writeIdle n v

/-- A write at an aligned offset; at a reserved one it is ignored and BUSYWR stays (`10_state.md` R56). -/
def State.writeOffset (s : State) (off : BitVec 12) (v : Word) : State :=
  match regAt off with
  | some n => s.writeReg n v
  | none => s

/-! ### The DMEM port (`20_memory.md` R91, R97) -/

/-- Every footprint of the command in flight; none at idle. -/
def State.liveFootprints (s : State) : List Footprint :=
  match s.inFlight with
  | some l => l.reads ++ l.writes
  | none => []

/-- The write footprints of the command in flight; none at idle. -/
def State.liveWrites (s : State) : List Footprint :=
  match s.inFlight with
  | some l => l.writes
  | none => []

/-- Some byte of `a .. a+n-1` lies in one of the footprints. -/
def touches (fs : List Footprint) (a n : Nat) : Bool := (List.range n).any (fun i => anyHas fs (a + i))

/-- A byte as the HOST reads it: a draw inside a written footprint of the command in flight, else its current value
(`20_memory.md` R97 (a), (b)). -/
def State.hostByte (s : State) (a : Nat) : Byte :=
  if anyHas s.liveWrites a then Config.draw s.draws a else s.byteAt a

/-- A DMEMP read: the bytes little-endian, or 0 when the access does not fit below DMEM_SIZE (`20_memory.md` R91).
A read that drew a byte uses up its draw occasion. -/
def State.memPortRead (s : State) (a w : Nat) : State :=
  if a + w ≤ s.params.dmemSize then
    { s with
      rdata := BitVec.ofNat 64 (leNat ((List.range w).map (fun i => s.hostByte (a + i))))
      draws := if touches s.liveWrites a w then s.draws + 1 else s.draws }
  else { s with rdata := 0 }

/-- A racing write marks the command in flight (`20_memory.md` R97 (c)). -/
def State.markRace (s : State) (a w : Nat) : State :=
  match s.inFlight with
  | some l => { s with inFlight := some { l with raced := l.raced || touches (l.reads ++ l.writes) a w } }
  | none => s

/-- A DMEMP write of the `w` low bytes of `v`; ignored, whole, when it does not fit below DMEM_SIZE
(`20_memory.md` R91). -/
def State.memPortWrite (s : State) (a w : Nat) (v : BitVec 64) : State :=
  if a + w ≤ s.params.dmemSize then (s.memWrite a w v.toNat).markRace a w else s

/-! ### RESET and the events -/

/-- What a HOST read gives while RESET is asserted: a draw (`70_reset_and_hazards.md` R305; log entry 10). -/
def State.readInReset (s : State) : State := { s with rdata := Config.drawRead s.draws, draws := s.draws + 1 }

/-- The RESET input driven to a level: its release performs the hardware reset; while it is asserted nothing else
changes (`70_reset_and_hazards.md` R305; log entry 11). -/
def State.driveReset (s : State) (level : Bool) : State :=
  if level then { s with resetLevel := true }
  else if s.resetLevel then s.hardReset
  else s

/-- A REG write: no step for a HOST duty broken (`10_state.md` R57), no effect while RESET is asserted (R305). -/
def State.onRegWrite (s : State) (off : BitVec 12) (w : Nat) (v : Word) : Host.Outcome State Fault Refusal :=
  if !regWidthOk w then .refused .regAccessWidth
  else if !regOffsetOk off then .refused .regAccessUnaligned
  else if s.resetLevel then .next s
  else .next (s.writeOffset off v)

/-- A REG read, under the same duties. -/
def State.onRegRead (s : State) (off : BitVec 12) (w : Nat) : Host.Outcome State Fault Refusal :=
  if !regWidthOk w then .refused .regAccessWidth
  else if !regOffsetOk off then .refused .regAccessUnaligned
  else if s.resetLevel then .next s.readInReset
  else .next { s with rdata := (s.readOffset off).setWidth 64 }

/-- A DMEMP write: no step for a HOST duty broken (`20_memory.md` R91). -/
def State.onMemWrite (s : State) (a w : Nat) (v : BitVec 64) : Host.Outcome State Fault Refusal :=
  if !memWidthOk w then .refused .memAccessWidth
  else if !memAlignOk a w then .refused .memAccessMisaligned
  else if s.resetLevel then .next s
  else .next (s.memPortWrite a w v)

/-- A DMEMP read, under the same duties. -/
def State.onMemRead (s : State) (a w : Nat) : Host.Outcome State Fault Refusal :=
  if !memWidthOk w then .refused .memAccessWidth
  else if !memAlignOk a w then .refused .memAccessMisaligned
  else if s.resetLevel then .next s.readInReset
  else .next (s.memPortRead a w)

end Sys2Proof.Machine
end

