-- ==== Sys2Proof/Machine/Sequencer.lean ====
section
/-! DEFINITION. The CORE sequencer's completion step, the HOST's turn with its `wait` loop, and which of the two moves
(`45_control.md` R252, R263, `30_encoding.md` R121, `20_memory.md` R96, R97). -/
namespace Sys2Proof.Machine

/-- After a HOST write into a footprint of the command, its completion leaves every byte of every write footprint a
draw (`20_memory.md` R97 (c); log entry 8). -/
def State.settleRace (s : State) (l : Latched) : State :=
  if l.raced then s.drawFootprints l.writes else s

/-- `complete()` for the latched command `l`: IllegalCommand for an illegal word, else the command itself
(`45_control.md` R252, R257). -/
def State.complete (s : State) (l : Latched) : Host.Outcome State Fault Refusal :=
  match l.op with
  | .illegal _ => .next ((s.errorComplete .IllegalCommand).settleRace l)
  | .command i =>
    match exec i s with
    | .next t => .next (t.settleRace l)
    | .fault f => .fault f
    | .refused r => .refused r

/-- The sequencer's turn: no step while RESET is asserted (`70_reset_and_hazards.md` R305) or nothing is in flight
(`60_exceptions.md` R293), else the one enabled step, the completion (`45_control.md` R252). -/
def State.coreTurn (s : State) : Host.Outcome State Fault Refusal :=
  if s.resetLevel then .next s
  else
    match s.inFlight with
    | some l => s.complete l
    | none => .next s

/-- One pass of the HOST's `wait` loop: read STATUS; if bit 0 of the value read is 1, go back to the label, which puts
the loop at the head of the script again (`30_encoding.md` R121; log entry 18). -/
def State.waitPass (s : State) : Host.Outcome State Fault Refusal :=
  match s.onRegRead (regOffset .STATUS) 4 with
  | .next t => .next (if t.rdata.getLsbD 0 then { t with script := .waitLoop :: t.script } else t)
  | .fault f => .fault f
  | .refused r => .refused r

/-- One event of the script (`45_control.md` R263). -/
def State.onEvent (s : State) (e : HostEvent) : Host.Outcome State Fault Refusal :=
  match e with
  | .regWrite off w v => s.onRegWrite off w v
  | .regRead off w => s.onRegRead off w
  | .memWrite a w v => s.onMemWrite a w v
  | .memRead a w => s.onMemRead a w
  | .resetPin level => .next (s.driveReset level)
  | .waitLoop => s.waitPass

/-- The HOST's turn: the next event of the script; a HOST that has taken its last step changes nothing
(`45_control.md` R264; log entry 3). -/
def State.hostTurn (s : State) : Host.Outcome State Fault Refusal :=
  match s.script with
  | [] => .next s
  | e :: rest => State.onEvent { s with script := rest } e

/-- The sequencer takes the next step: the turns say so, or they are used up and its completion is enabled
(`45_control.md` R252; log entry 3). -/
def State.coreMoves (s : State) : Bool :=
  match s.turns with
  | .core :: _ => true
  | .host :: _ => false
  | [] => s.inFlight.isSome && !s.resetLevel

/-- One turn used up. -/
def State.passTurn (s : State) : State := { s with turns := s.turns.tail }

/-- One step of the machine: one completion of the CORE agent or one step of the HOST agent (`00_scope.md` R10; log
entries 2 and 3). -/
def State.advance (s : State) : Host.Outcome State Fault Refusal :=
  if s.coreMoves then s.passTurn.coreTurn else s.passTurn.hostTurn

/-- The command word `c` accepted and the sequencer's turn next: RESET released and nothing of the HOST before it. -/
def State.placeCommand (s : State) (c : Word) : State :=
  { s.accept c with script := [], turns := [], resetLevel := false }

end Sys2Proof.Machine
end

