-- ==== Sys2Proof/Machine/Step.lean ====
section
/-! DEFINITION. The step of the machine, and a command placed where the next step runs it. -/
namespace Sys2Proof.Machine

/-- One step: the sequencer's completion or the HOST's next event (`00_scope.md` R10, `45_control.md` R252). -/
def step (s : State) : Host.Outcome State Fault Refusal := s.advance

/-- The state whose very next step completes the command word `w` of `nbits` bits: the word accepted as a CMD write at
idle accepts it, and the sequencer's turn next (log entry 4). -/
def State.withFetchWord (s : State) (nbits w : Nat) : State := s.placeCommand (BitVec.ofNat 32 (w % 2 ^ nbits))

end Sys2Proof.Machine
end

