-- ==== Sys2Proof/Machine/RealValue.lean ====
section
/-! DEFINITION. The real number a binary64 pattern stands for, and what it is for a pattern to be RNE of a real number
(`40_numerics.md` R140, R149): the vocabulary of the statements about rounding. -/
namespace Sys2Proof.Machine

/-- The value of a finite pattern, a rational number (`40_numerics.md` R140). -/
def f64Rat (v : F64) : ℚ := (f64Units v : ℚ) / 2 ^ 1074

/-- `v` is `RNE(x)` (`40_numerics.md` R149): the finite value nearest x, of two equally near ones the one with the even
pattern; ±Inf from 2^1024·(1 − 2^-54) on. A real zero gives +0.0, and a negative real has its sign bit set even where it
rounds to a zero. -/
structure IsRne (x : ℝ) (v : F64) : Prop where
  sign : f64Sign v = true ↔ x < 0
  infinite : 2 ^ 1024 * (1 - (1 : ℝ) / 2 ^ 54) ≤ |x| → isInf v = true
  finite : |x| < 2 ^ 1024 * (1 - (1 : ℝ) / 2 ^ 54) → isFin v = true
  nearest : |x| < 2 ^ 1024 * (1 - (1 : ℝ) / 2 ^ 54) → ∀ w, isFin w = true → |x - f64Rat v| ≤ |x - f64Rat w|
  tie : |x| < 2 ^ 1024 * (1 - (1 : ℝ) / 2 ^ 54) → ∀ w, isFin w = true → |x - f64Rat w| = |x - f64Rat v| →
    f64Rat w ≠ f64Rat v → v.toNat % 2 = 0

end Sys2Proof.Machine
end

