-- ==== Sys2Proof/Machine/HostProgram.lean ====
section
/-! DEFINITION. HOST programs: the lines of `30_encoding.md` R119 to R121 and their exact expansions into port accesses. -/
namespace Sys2Proof.Machine

/-- A line of a HOST program: the primitives of `30_encoding.md` R120 and the pseudo-instructions of R121. -/
inductive HostLine where
  | wr (reg : RegName) (imm : Word)
  | rd (reg : RegName)
  | st8 (addr : Nat) (imm : Byte)
  | st16 (addr : Nat) (imm : BitVec 16)
  | st32 (addr : Nat) (imm : BitVec 32)
  | st64 (addr : Nat) (imm : BitVec 64)
  | ld8 (addr : Nat)
  | ld16 (addr : Nat)
  | ld32 (addr : Nat)
  | ld64 (addr : Nat)
  | stf (addr : Nat) (f : F64)
  | stc (addr : Nat) (re im : F64)
  | wr64Qmin (f : F64)
  | wr64Qmax (f : F64)
  | nop
  | fft (dst src size stride : Word)
  | ifft (dst src size stride : Word)
  | stft (dst src siglen wsize overlap : Word)
  | qenc (dst src nbins nframes : Word)
  | qdec (dst src nbins nframes : Word)
  | istft (dst scr src wsize overlap nbins nframes : Word)
  | zphase (dst src wsize : Word)
  | hann (dst wsize : Word)
  | srst
  | clr
  | wait
  deriving DecidableEq, Repr

/-- `wr NAME, imm32` as a bus transaction: `W off data` (`30_encoding.md` R120). -/
def busWrite (reg : RegName) (imm : Word) : HostEvent := .regWrite (regOffset reg) 4 imm

/-- `rd NAME` as a bus transaction: `R off` (`30_encoding.md` R120). -/
def busRead (reg : RegName) : HostEvent := .regRead (regOffset reg) 4

/-- The expansion of a line, in the order R121 lists. `wait` is the HOST's own loop of STATUS reads (log entry 18). -/
def expandLine : HostLine → List HostEvent
  | .wr reg imm => [busWrite reg imm]
  | .rd reg => [busRead reg]
  | .st8 a v => [.memWrite a 1 (v.setWidth 64)]
  | .st16 a v => [.memWrite a 2 (v.setWidth 64)]
  | .st32 a v => [.memWrite a 4 (v.setWidth 64)]
  | .st64 a v => [.memWrite a 8 v]
  | .ld8 a => [.memRead a 1]
  | .ld16 a => [.memRead a 2]
  | .ld32 a => [.memRead a 4]
  | .ld64 a => [.memRead a 8]
  | .stf a f => [.memWrite a 8 f]
  | .stc a re im => [.memWrite a 8 re, .memWrite (a + 8) 8 im]
  | .wr64Qmin f => [busWrite .QMIN_LO (f.extractLsb' 0 32), busWrite .QMIN_HI (f.extractLsb' 32 32)]
  | .wr64Qmax f => [busWrite .QMAX_LO (f.extractLsb' 0 32), busWrite .QMAX_HI (f.extractLsb' 32 32)]
  | .nop => [busWrite .CMD (encode .nop)]
  | .fft dst src size stride =>
    [busWrite .SRC src, busWrite .DST dst, busWrite .SIZE size, busWrite .STRIDE stride,
      busWrite .CMD (encode .fft)]
  | .ifft dst src size stride =>
    [busWrite .SRC src, busWrite .DST dst, busWrite .SIZE size, busWrite .STRIDE stride,
      busWrite .CMD (encode .ifft)]
  | .stft dst src siglen wsize overlap =>
    [busWrite .SRC src, busWrite .DST dst, busWrite .SIG_LEN siglen, busWrite .WSIZE wsize,
      busWrite .OVERLAP overlap, busWrite .CMD (encode .stft)]
  | .qenc dst src nbins nframes =>
    [busWrite .SRC src, busWrite .DST dst, busWrite .NBINS nbins, busWrite .NFRAMES nframes,
      busWrite .CMD (encode .qenc)]
  | .qdec dst src nbins nframes =>
    [busWrite .SRC src, busWrite .DST dst, busWrite .NBINS nbins, busWrite .NFRAMES nframes,
      busWrite .CMD (encode .qdec)]
  | .istft dst scr src wsize overlap nbins nframes =>
    [busWrite .SRC src, busWrite .DST dst, busWrite .SCR scr, busWrite .WSIZE wsize, busWrite .OVERLAP overlap,
      busWrite .NBINS nbins, busWrite .NFRAMES nframes, busWrite .CMD (encode .istft)]
  | .zphase dst src wsize =>
    [busWrite .SRC src, busWrite .DST dst, busWrite .WSIZE wsize, busWrite .CMD (encode .zphase)]
  | .hann dst wsize => [busWrite .DST dst, busWrite .WSIZE wsize, busWrite .CMD (encode .hann)]
  | .srst => [busWrite .CTRL 0x80000000#32]
  | .clr => [busWrite .STATUS 0x0000000E#32]
  | .wait => [.waitLoop]

/-- The events of a HOST program: its lines in order (`30_encoding.md` R119). -/
def expandProgram (lines : List HostLine) : List HostEvent := lines.flatMap expandLine

/-- The machine with a HOST program as what happens next. -/
def State.withProgram (s : State) (lines : List HostLine) : State := { s with script := expandProgram lines }

end Sys2Proof.Machine
end

