-- ==== Sys2Proof/Safety.lean ====
section
/-! DEFINITION. What counts as a safe step and a sound state, in the terms the statements use: the invariant every step keeps,
the HOST duties, the end of a run and what is observed then, and the plain-integer forms of the rules that the statements
about commands take as hypotheses. -/
namespace Sys2Proof.Machine

/-- A step is safe when it answers a next state: no fault exists, and a refusal is a broken HOST duty
(`45_control.md` R263). -/
def State.stepsOn (s : State) : Prop := ∃ t, step s = .next t

/-- The HOST keeps its duties in everything it still does (`45_control.md` R263). -/
abbrev State.dutiesKept (s : State) : Prop := ∀ e ∈ s.script, HostEventOk e = true

/-- The run is over: the HOST has taken its last step and nothing is in flight (`45_control.md` R264). -/
abbrev State.runOver (s : State) : Prop := s.script = [] ∧ s.inFlight = none

/-- Every listed byte lies below DMEM_SIZE (`10_state.md` R60). -/
abbrev Memory.below (m : Memory) (size : Nat) : Prop := ∀ c ∈ m, c.1 < size

/-- While a command is in flight its snapshot equals the live registers, its op is the decoding of CMD, and STATUS
reports nothing of it yet (`45_control.md` R250, R251, R255). -/
abbrev State.flightSound (s : State) : Prop :=
  ∀ l, s.inFlight = some l →
    l.snap = s.snapshot ∧ l.op = decode s.cmd ∧
      s.status.done = false ∧ s.status.err = false ∧ s.status.errCode = 0

/-- The invariant of the machine: legal parameters (`00_scope.md` R9), canonical DMEM inside DMEM_SIZE
(`10_state.md` R60), only defined error codes with ERR never set without one (`60_exceptions.md` R275, R276), LASTOP the
opcode field of CMD (`10_state.md` R39, R40), V_SRATE only with a nonzero SRATE (`10_state.md` R41, R50), the command
in flight sound (`45_control.md` R250, R251), and draw occasions used in order (log entry 6). -/
structure State.Inv (s : State) : Prop where
  params : s.params.legal
  canonical : s.dmem.wf = true
  inside : s.dmem.below s.params.dmemSize
  codes : s.status.errCode.toNat ≤ 11
  errHasCode : s.status.err = true → s.status.errCode ≠ 0
  lastOp : s.status.lastOp = opField s.cmd
  srate : s.metaValid.vSrate = true → s.srate ≠ 0
  flight : s.flightSound
  drawn : s.coldDraw < s.draws

/-- What is observed at the end of a run, but for DMEM, which is read byte by byte through `State.byteAt`: the value of
every register of `10_state.md` R34 and the IRQ level (`45_control.md` R264). -/
structure Observed where
  registers : List Word
  irq : Bool
  deriving DecidableEq, Repr

/-- The registers of `10_state.md` R34 in the order of the map. -/
def allRegs : List RegName :=
  [.ID, .VERSION, .CAP, .CTRL, .STATUS, .CMD, .META_VALID, .SRC, .DST, .SCR, .SIZE, .STRIDE, .SIG_LEN, .WSIZE,
    .OVERLAP, .SRATE, .NBINS, .NFRAMES, .OUTLEN, .QMIN_LO, .QMIN_HI, .QMAX_LO, .QMAX_HI]

/-- The observation of a state (`45_control.md` R264). -/
def State.observe (s : State) : Observed := ⟨allRegs.map s.readReg, s.irq⟩

/-! ### The memory checks in plain integers -/

/-- A footprint of `len` bytes at `base` is in bounds (`20_memory.md` R88). -/
abbrev fits (size base len : Nat) : Prop := len = 0 ∨ base + len ≤ size

/-- Two footprints do not intersect (`20_memory.md` R90). -/
abbrev apart (a n b m : Nat) : Prop := n = 0 ∨ m = 0 ∨ a + n ≤ b ∨ b + m ≤ a

/-- The length of the hull of a strided complex array (`20_memory.md` R87). -/
abbrev hullLen (size stride : Nat) : Nat := 16 * ((size - 1) * stride + 1)

/-! ### What a command answers -/

/-- The command completes with success: DONE set, ERR and ERRCODE as they were, the sequencer IDLE
(`45_control.md` R253). -/
abbrev succeeds (i : Instr) (s : State) : Prop :=
  ∃ t, exec i s = .next t ∧ t.status = { s.status with done := true } ∧ t.inFlight = none

/-- The command reports the error of the first condition of the list that holds, and succeeds when none does
(`60_exceptions.md` R280). -/
def decidesInOrder (i : Instr) (s : State) : List (Prop × ErrorKind) → Prop
  | [] => succeeds i s
  | (c, e) :: cs => (c → exec i s = .next (s.errorComplete e)) ∧ (¬ c → decidesInOrder i s cs)

/-- The value each register has after a reset (`10_state.md` R34, R64). -/
def resetWord (s : State) : RegName → Word
  | .ID => 0x46465432#32
  | .VERSION => 0x00010000#32
  | .CAP => s.capWord
  | .STRIDE => 1#32
  | _ => 0#32

/-! ### Overlap-add, sample by sample -/

/-- The accumulator of sample `p` after `nf` frames of `W` contributions `xs i n` each, `step` samples apart, added in
ascending frame order from +0.0 (`44_reconstruction.md` R229). -/
def overlapAdd (W step nf : Nat) (xs : Nat → Nat → F64) (p : Nat) : F64 :=
  (List.range nf).foldl
    (fun a i => if i * step ≤ p ∧ p < i * step + W then fadd a (xs i (p - i * step)) else a) 0#64

end Sys2Proof.Machine
end

