-- ==== Sys2Proof/Certificates/Slice0/Obligations.lean ====
section
/-! DEFINITION. The statements for the provers. Each docstring names the rules of spec/ that its statement formalises, or the
log entries it rests on. -/
section
open Sys2Proof Sys2Proof.Machine

/-! ### Decoding -/

/-- The nine words of the opcode map, and the words the spec's programs and vectors use as illegal ones
(`30_encoding.md` R112; `95_test_vectors.md` V-C3 to V-C5 and P3). -/
def Obligations.OpcodeMapWords : Prop :=
  decode 0x00000000#32 = .command .nop ∧ decode 0x00000001#32 = .command .fft ∧
  decode 0x00000002#32 = .command .ifft ∧ decode 0x00000003#32 = .command .stft ∧
  decode 0x00000004#32 = .command .qenc ∧ decode 0x00000005#32 = .command .qdec ∧
  decode 0x00000006#32 = .command .istft ∧ decode 0x00000007#32 = .command .zphase ∧
  decode 0x00000008#32 = .command .hann ∧ decode 0x00000009#32 = .illegal .reservedOpcode ∧
  decode 0x00000101#32 = .illegal .rsvdSet ∧ decode 0x00000109#32 = .illegal .rsvdSet ∧
  decode 0xFFFFFFFF#32 = .illegal .rsvdSet

/-- The match value of each row of the opcode map is the whole word: a word decodes to a command exactly when it is that
command's word, which is what the encoder gives; every other word, with a bit of [31:8] set or a reserved opcode, is
illegal (`30_encoding.md` R111, R112). -/
def Obligations.DecodeAgreesWithEncode : Prop :=
  (∀ (c : Word) (i : Instr), decode c = .command i ↔ c = encode i) ∧
  (∀ c : Word, ∀ p ∈ [(Instr.nop, 0x00000000#32), (.fft, 0x00000001#32), (.ifft, 0x00000002#32),
    (.stft, 0x00000003#32), (.qenc, 0x00000004#32), (.qdec, 0x00000005#32), (.istft, 0x00000006#32),
    (.zphase, 0x00000007#32), (.hann, 0x00000008#32)], decode c = .command p.1 ↔ c = p.2) ∧
  ∀ c : Word, (∃ why, decode c = .illegal why) ↔ 256 ≤ c.toNat ∨ 9 ≤ c.toNat % 256

/-! ### A command word in flight -/

/-- Acceptance of a word written to CMD at idle, legal or not (`45_control.md` R250). -/
def Obligations.AcceptanceOfAWord : Prop :=
  ∀ (s : State) (c : Word), s.busy = false → s.resetLevel = false →
    ∃ t, s.onRegWrite 0x014#12 4 c = .next t ∧
      t = { s with
        cmd := c
        status := { done := false, err := false, busyWr := s.status.busyWr, errCode := 0, lastOp := c.extractLsb' 0 8 }
        inFlight := some { op := decode c, snap := { regs := s.regs, metaValid := s.metaValid }, raced := false } } ∧
      t.busy = true ∧ t.irq = false

/-- When the sequencer has the turn and a command is latched, the step is exec of that command, with what the model's
step adds: the turn is used up, and after a HOST write into a footprint the written footprints become draws
(`45_control.md` R252, `20_memory.md` R97 (c); log entries 2, 3 and 8). A word accepted from CMD that decodes to a command
is run so by the very next step (log entry 4). -/
def Obligations.StepRunsTheLatchedCommand : Prop :=
  (∀ (s : State) (c : Word) (i : Instr), decode c = .command i →
    step (s.placeCommand c) = exec i (s.placeCommand c)) ∧
  ∀ (s : State) (l : Latched) (i : Instr) (rest : List Turn),
    s.inFlight = some l → l.op = .command i → s.resetLevel = false →
    (s.turns = .core :: rest ∨ s.turns = [] ∧ rest = []) →
    step s =
      match exec i { s with turns := rest } with
      | .next t => .next (if l.raced then t.drawFootprints (writeFootprints i l.snap) else t)
      | .fault f => .fault f
      | .refused r => .refused r

/-- The sequencer's turn with nothing to complete, or under RESET, changes nothing; a run that is over stays so; and when
the HOST has the turn, the step is the next event of the script (`60_exceptions.md` R293, `70_reset_and_hazards.md` R305,
`45_control.md` R252, R264; log entries 2 and 3). -/
def Obligations.TurnWithoutACommand : Prop :=
  ∀ s : State, (s.inFlight = none ∨ s.resetLevel = true → s.coreTurn = .next s) ∧
    (s.runOver → step s = .next { s with turns := s.turns.tail }) ∧
    ∀ e rest, s.script = e :: rest →
      (s.turns.head? = some .host ∨ s.turns = [] ∧ (s.inFlight = none ∨ s.resetLevel = true)) →
      step s = State.onEvent { s with script := rest, turns := s.turns.tail } e

/-- Any word with a bit of [31:8] set or a reserved opcode, once accepted, completes as IllegalCommand with code 8 and
no other effect (`30_encoding.md` R113, R114, `45_control.md` R257). -/
def Obligations.IllegalWordCompletes : Prop :=
  ∀ (s : State) (c : Word), s.resetLevel = false →
    c.extractLsb' 8 24 ≠ 0 ∨ 0x09 ≤ (c.extractLsb' 0 8).toNat →
    (s.accept c).coreTurn = .next { s with
      cmd := c
      status := { done := true, err := true, busyWr := s.status.busyWr, errCode := 8, lastOp := c.extractLsb' 0 8 }
      inFlight := none }

/-! ### Completion of each command -/

/-- NOP (`45_control.md` R256): accepted and completed, it leaves DONE set, CMD and LASTOP 0, IRQ at IE_DONE, and nothing
else changed. -/
def Obligations.NopCompletes : Prop :=
  (∀ s : State, exec .nop s = .next { s with status := { s.status with done := true }, inFlight := none }) ∧
  ∀ s : State, s.resetLevel = false →
    ∃ t, (s.accept 0x00000000#32).coreTurn = .next t ∧ t.irq = s.ctrl.ieDone ∧
      t = { s with
        cmd := 0
        status := { done := true, err := false, busyWr := s.status.busyWr, errCode := 0, lastOp := 0 }
        inFlight := none }

/-- FFT runs (`41_fft.md` R172, `45_control.md` R253): the transform of the gathered sequence stands at DST, and
nothing else changes. -/
def Obligations.FftCompletes : Prop :=
  ∀ (s : State) (l : Latched) (j : Nat), s.inFlight = some l →
    l.snap.size = 2 ^ j → l.snap.size ≤ s.params.nmax → l.snap.src % 8 = 0 → l.snap.dst % 8 = 0 →
    fits s.params.dmemSize l.snap.src (hullLen l.snap.size l.snap.stride) →
    fits s.params.dmemSize l.snap.dst (16 * l.snap.size) →
    apart l.snap.src (hullLen l.snap.size l.snap.stride) l.snap.dst (16 * l.snap.size) →
    ∃ t, exec .fft s = .next t ∧
      (∀ k < l.snap.size, ∃ z, (FFTL (s.gather l.snap.src l.snap.size l.snap.stride))[k]? = some z ∧
        t.readC (l.snap.dst + 16 * k) = ⟨canon z.re, canon z.im⟩) ∧
      (∀ a, a < l.snap.dst ∨ l.snap.dst + 16 * l.snap.size ≤ a → t.byteAt a = s.byteAt a) ∧
      t = { s with dmem := t.dmem, status := { s.status with done := true }, inFlight := none }

/-- IFFT runs (`41_fft.md` R174, `45_control.md` R253): as FFT, with the inverse transform. -/
def Obligations.IfftCompletes : Prop :=
  ∀ (s : State) (l : Latched) (j : Nat), s.inFlight = some l →
    l.snap.size = 2 ^ j → l.snap.size ≤ s.params.nmax → l.snap.src % 8 = 0 → l.snap.dst % 8 = 0 →
    fits s.params.dmemSize l.snap.src (hullLen l.snap.size l.snap.stride) →
    fits s.params.dmemSize l.snap.dst (16 * l.snap.size) →
    apart l.snap.src (hullLen l.snap.size l.snap.stride) l.snap.dst (16 * l.snap.size) →
    ∃ t, exec .ifft s = .next t ∧
      (∀ k < l.snap.size, ∃ z, (IFFTL (s.gather l.snap.src l.snap.size l.snap.stride))[k]? = some z ∧
        t.readC (l.snap.dst + 16 * k) = ⟨canon z.re, canon z.im⟩) ∧
      (∀ a, a < l.snap.dst ∨ l.snap.dst + 16 * l.snap.size ≤ a → t.byteAt a = s.byteAt a) ∧
      t = { s with dmem := t.dmem, status := { s.status with done := true }, inFlight := none }

/-- STFT runs (`42_stft.md` R190, R191, `45_control.md` R253): with nf frames and B bins, element [k][i] of the
bin-major matrix at DST is the magnitude of bin k of the transform of frame i, NBINS and NFRAMES receive B and nf, and
nothing else changes. -/
def Obligations.StftCompletes : Prop :=
  ∀ (s : State) (l : Latched) (j step nf B : Nat), s.inFlight = some l →
    l.snap.overlap + step = l.snap.wsize → 0 < step → l.snap.wsize ≤ l.snap.sigLen →
    nf = (l.snap.sigLen - l.snap.wsize) / step + 1 → B = l.snap.wsize / 2 + 1 →
    l.snap.wsize = 2 ^ j → l.snap.wsize ≤ s.params.nmax → l.snap.src % 8 = 0 → l.snap.dst % 8 = 0 →
    fits s.params.dmemSize l.snap.src (8 * l.snap.sigLen) → fits s.params.dmemSize l.snap.dst (8 * (B * nf)) →
    apart l.snap.src (8 * l.snap.sigLen) l.snap.dst (8 * (B * nf)) →
    ∃ t, exec .stft s = .next t ∧
      (∀ k < B, ∀ i < nf, ∃ z,
        (FFTL ((List.range l.snap.wsize).map
          (fun n => ⟨s.readF64 (l.snap.src + 8 * (i * step + n)), 0x0000000000000000#64⟩)))[k]? = some z ∧
        t.readF64 (l.snap.dst + 8 * (k * nf + i)) = canon (mag z)) ∧
      t.regs.nbins.toNat = B ∧ t.regs.nframes.toNat = nf ∧
      (∀ a, a < l.snap.dst ∨ l.snap.dst + 8 * (B * nf) ≤ a → t.byteAt a = s.byteAt a) ∧
      t = { s with
        dmem := t.dmem
        regs := { s.regs with nbins := t.regs.nbins, nframes := t.regs.nframes }
        status := { s.status with done := true }, inFlight := none }

/-- QENC runs (`43_quantizer.md` R206, `45_control.md` R253): byte j at DST is the rounded, clamped
255·(log − min)/(max − min), QMIN and QMAX receive the extrema of the log values with V_MIN and V_MAX set, and nothing
else changes. -/
def Obligations.QencCompletes : Prop :=
  ∀ (s : State) (l : Latched) (n : Nat) (ls : List F64) (mn mx : F64), s.inFlight = some l →
    n = l.snap.nbins * l.snap.nframes → 0 < n → l.snap.src % 8 = 0 →
    fits s.params.dmemSize l.snap.src (8 * n) → fits s.params.dmemSize l.snap.dst n →
    apart l.snap.src (8 * n) l.snap.dst n →
    ls = (List.range n).map (fun j => fmul TEN (log10R (fadd (s.readF64 (l.snap.src + 8 * j)) EPS))) →
    (∀ v ∈ ls, isFin v = true) → mn = fminList ls → mx = fmaxList ls → feq mx mn = false →
    ∃ t, exec .qenc s = .next t ∧
      (∀ j < n, ∃ v, ls[j]? = some v ∧
        ((t.byteAt (l.snap.dst + j)).toNat : Int) =
          min 255 (max 0 (roundi (fdiv (fmul C255 (fsub v mn)) (fsub mx mn))))) ∧
      t.regs.qminHi ++ t.regs.qminLo = mn ∧ t.regs.qmaxHi ++ t.regs.qmaxLo = mx ∧
      (∀ a, a < l.snap.dst ∨ l.snap.dst + n ≤ a → t.byteAt a = s.byteAt a) ∧
      t = { s with
        dmem := t.dmem
        regs := { s.regs with
          qminLo := t.regs.qminLo, qminHi := t.regs.qminHi, qmaxLo := t.regs.qmaxLo, qmaxHi := t.regs.qmaxHi }
        metaValid := { s.metaValid with vMin := true, vMax := true }
        status := { s.status with done := true }, inFlight := none }

/-- QDEC runs (`43_quantizer.md` R207, `45_control.md` R253): element j at DST is
10^((q/255·(max − min) + min)/10) − EPS of byte j, an empty matrix included, and nothing else changes. -/
def Obligations.QdecCompletes : Prop :=
  ∀ (s : State) (l : Latched) (n : Nat), s.inFlight = some l →
    l.snap.metaValid = { vWsize := true, vOverlap := true, vSrate := true, vMin := true, vMax := true } →
    n = l.snap.nbins * l.snap.nframes → l.snap.dst % 8 = 0 →
    fits s.params.dmemSize l.snap.src n → fits s.params.dmemSize l.snap.dst (8 * n) →
    apart l.snap.src n l.snap.dst (8 * n) →
    ∃ t, exec .qdec s = .next t ∧
      (∀ j < n, t.readF64 (l.snap.dst + 8 * j) =
        canon (fsub (exp10R (fdiv (fadd
          (fmul (fdiv (f64OfNat (s.byteAt (l.snap.src + j)).toNat) C255) (fsub l.snap.qmax l.snap.qmin))
          l.snap.qmin) TEN)) EPS)) ∧
      (∀ a, a < l.snap.dst ∨ l.snap.dst + 8 * n ≤ a → t.byteAt a = s.byteAt a) ∧
      t = { s with dmem := t.dmem, status := { s.status with done := true }, inFlight := none }

/-- ISTFT runs (`44_reconstruction.md` R229, `45_control.md` R253): SCR receives the window energies, DST the
overlap-added real parts divided by them where they exceed EPS and +0.0 elsewhere, OUTLEN the length, no frames
included, and nothing else changes. The parameters are legal (`00_scope.md` R9), so the length fits OUTLEN
(`10_state.md` R53). -/
def Obligations.IstftCompletes : Prop :=
  ∀ (s : State) (l : Latched) (j step B len : Nat) (acc en : Nat → F64), s.inFlight = some l → s.params.legal →
    l.snap.overlap + step = l.snap.wsize → 0 < step → l.snap.wsize = 2 ^ j → l.snap.wsize ≤ s.params.nmax →
    2 ≤ l.snap.wsize → B = l.snap.wsize / 2 + 1 → l.snap.nbins = B →
    len = l.snap.nframes * step + l.snap.wsize →
    l.snap.src % 8 = 0 → l.snap.dst % 8 = 0 → l.snap.scr % 8 = 0 →
    fits s.params.dmemSize l.snap.src (8 * (l.snap.nbins * l.snap.nframes)) →
    fits s.params.dmemSize l.snap.dst (8 * len) → fits s.params.dmemSize l.snap.scr (8 * len) →
    apart l.snap.src (8 * (l.snap.nbins * l.snap.nframes)) l.snap.dst (8 * len) →
    apart l.snap.src (8 * (l.snap.nbins * l.snap.nframes)) l.snap.scr (8 * len) →
    apart l.snap.dst (8 * len) l.snap.scr (8 * len) →
    acc = overlapAdd l.snap.wsize step l.snap.nframes (fun i n =>
      fmul ((IFFTL (zp ((List.range B).map (fun k => s.readF64 (l.snap.src + 8 * (k * l.snap.nframes + i))))
        l.snap.wsize)).getD n ⟨0, 0⟩).re ((hannW l.snap.wsize).getD n 0)) →
    en = overlapAdd l.snap.wsize step l.snap.nframes (fun _ n => (hannW l.snap.wsize).getD n 0) →
    ∃ t, exec .istft s = .next t ∧
      (∀ p < len, t.readF64 (l.snap.scr + 8 * p) = canon (en p) ∧
        t.readF64 (l.snap.dst + 8 * p) = canon (if flt EPS (en p) then fdiv (acc p) (en p) else 0)) ∧
      t.outlen.toNat = len ∧
      (∀ a, a < l.snap.dst ∨ l.snap.dst + 8 * len ≤ a → a < l.snap.scr ∨ l.snap.scr + 8 * len ≤ a →
        t.byteAt a = s.byteAt a) ∧
      t = { s with
        dmem := t.dmem, outlen := t.outlen, status := { s.status with done := true }, inFlight := none }

/-- ZPHASE runs (`44_reconstruction.md` R227, R228, `45_control.md` R253): the retained bins have imaginary part +0.0,
the mirrored ones −0.0, and nothing else changes. -/
def Obligations.ZphaseCompletes : Prop :=
  ∀ (s : State) (l : Latched) (j B : Nat), s.inFlight = some l →
    l.snap.wsize = 2 ^ j → l.snap.wsize ≤ s.params.nmax → B = l.snap.wsize / 2 + 1 →
    l.snap.src % 8 = 0 → l.snap.dst % 8 = 0 →
    fits s.params.dmemSize l.snap.src (8 * B) → fits s.params.dmemSize l.snap.dst (16 * l.snap.wsize) →
    apart l.snap.src (8 * B) l.snap.dst (16 * l.snap.wsize) →
    ∃ t, exec .zphase s = .next t ∧
      (∀ k < l.snap.wsize, t.readC (l.snap.dst + 16 * k) =
        if k < B then ⟨canon (s.readF64 (l.snap.src + 8 * k)), 0x0000000000000000#64⟩
        else ⟨canon (s.readF64 (l.snap.src + 8 * (l.snap.wsize - k))), 0x8000000000000000#64⟩) ∧
      (∀ a, a < l.snap.dst ∨ l.snap.dst + 16 * l.snap.wsize ≤ a → t.byteAt a = s.byteAt a) ∧
      t = { s with dmem := t.dmem, status := { s.status with done := true }, inFlight := none }

/-- HANN runs (`44_reconstruction.md` R225, R226, `45_control.md` R253): the window stands at DST, and nothing else
changes. -/
def Obligations.HannCompletes : Prop :=
  ∀ (s : State) (l : Latched) (j : Nat), s.inFlight = some l →
    l.snap.wsize = 2 ^ j → l.snap.wsize ≤ s.params.nmax → 2 ≤ l.snap.wsize → l.snap.dst % 8 = 0 →
    fits s.params.dmemSize l.snap.dst (8 * l.snap.wsize) →
    ∃ t, exec .hann s = .next t ∧
      (∀ n < l.snap.wsize, t.readF64 (l.snap.dst + 8 * n) =
        canon (fsub HALF (fmul HALF (hannCos n l.snap.wsize)))) ∧
      (∀ a, a < l.snap.dst ∨ l.snap.dst + 8 * l.snap.wsize ≤ a → t.byteAt a = s.byteAt a) ∧
      t = { s with dmem := t.dmem, status := { s.status with done := true }, inFlight := none }

/-! ### Errors -/

/-- The error codes (`60_exceptions.md` R275), and what an error completion does: STATUS alone changes, and IRQ is high
when either enable is (`60_exceptions.md` R276). -/
def Obligations.ErrorCompletion : Prop :=
  (∀ (s : State) (e : ErrorKind), s.errorComplete e = { s with
      status := { done := true, err := true, busyWr := s.status.busyWr, errCode := errorCode e, lastOp := s.status.lastOp }
      inFlight := none } ∧
    (s.errorComplete e).irq = (s.ctrl.ieDone || s.ctrl.ieErr)) ∧
  [ErrorKind.InvalidSize, .OutOfBounds, .InvalidWindow, .SignalTooShort, .DegenerateRange, .MissingMetadata,
    .ShapeMismatch, .IllegalCommand, .Misaligned, .BufferOverlap, .NonFinite].map errorCode =
    [1, 2, 3, 4, 5, 6, 7, 8, 9, 10, 11]

/-- Every command, from every state, completes: with success, or with one error that leaves everything but STATUS as it
was. There is no stuck state (`45_control.md` R252, `60_exceptions.md` R278, R286). -/
def Obligations.EveryCommandCompletes : Prop :=
  ∀ (i : Instr) (s : State), succeeds i s ∨
    ∃ e, exec i s = .next { s with
      status := { done := true, err := true, busyWr := s.status.busyWr, errCode := errorCode e, lastOp := s.status.lastOp }
      inFlight := none }

/-- The error FFT and IFFT report: the first failing check of `41_fft.md` R172, R174 (`60_exceptions.md` R280). -/
def Obligations.FftErrorOrder : Prop :=
  ∀ (s : State) (l : Latched) (i : Instr), s.inFlight = some l → (i = .fft ∨ i = .ifft) →
    decidesInOrder i s [
      ((¬ ∃ j, l.snap.size = 2 ^ j) ∨ s.params.nmax < l.snap.size, .InvalidSize),
      (l.snap.src % 8 ≠ 0 ∨ l.snap.dst % 8 ≠ 0, .Misaligned),
      (¬ (fits s.params.dmemSize l.snap.src (hullLen l.snap.size l.snap.stride) ∧
        fits s.params.dmemSize l.snap.dst (16 * l.snap.size)), .OutOfBounds),
      (¬ apart l.snap.src (hullLen l.snap.size l.snap.stride) l.snap.dst (16 * l.snap.size), .BufferOverlap)]

/-- The error STFT reports: the first failing check of `42_stft.md` R191 (`60_exceptions.md` R280). -/
def Obligations.StftErrorOrder : Prop :=
  ∀ (s : State) (l : Latched) (B nf : Nat), s.inFlight = some l → B = l.snap.wsize / 2 + 1 →
    nf = (l.snap.sigLen - l.snap.wsize) / (l.snap.wsize - l.snap.overlap) + 1 →
    decidesInOrder .stft s [
      (l.snap.wsize ≤ l.snap.overlap, .InvalidWindow),
      (l.snap.sigLen < l.snap.wsize, .SignalTooShort),
      ((¬ ∃ j, l.snap.wsize = 2 ^ j) ∨ s.params.nmax < l.snap.wsize, .InvalidSize),
      (l.snap.src % 8 ≠ 0 ∨ l.snap.dst % 8 ≠ 0, .Misaligned),
      (¬ (fits s.params.dmemSize l.snap.src (8 * l.snap.sigLen) ∧
        fits s.params.dmemSize l.snap.dst (8 * (B * nf))), .OutOfBounds),
      (¬ apart l.snap.src (8 * l.snap.sigLen) l.snap.dst (8 * (B * nf)), .BufferOverlap)]

/-- The error QENC reports: the first failing check of `43_quantizer.md` R206, its two data checks last
(`60_exceptions.md` R280). -/
def Obligations.QencErrorOrder : Prop :=
  ∀ (s : State) (l : Latched) (n : Nat) (ls : List F64), s.inFlight = some l →
    n = l.snap.nbins * l.snap.nframes →
    ls = (List.range n).map (fun j => fmul TEN (log10R (fadd (s.readF64 (l.snap.src + 8 * j)) EPS))) →
    decidesInOrder .qenc s [
      (n = 0, .DegenerateRange),
      (l.snap.src % 8 ≠ 0, .Misaligned),
      (¬ (fits s.params.dmemSize l.snap.src (8 * n) ∧ fits s.params.dmemSize l.snap.dst n), .OutOfBounds),
      (¬ apart l.snap.src (8 * n) l.snap.dst n, .BufferOverlap),
      (∃ v ∈ ls, isFin v = false, .NonFinite),
      (feq (fmaxList ls) (fminList ls) = true, .DegenerateRange)]

/-- The error QDEC reports: the first failing check of `43_quantizer.md` R207 (`60_exceptions.md` R280). -/
def Obligations.QdecErrorOrder : Prop :=
  ∀ (s : State) (l : Latched) (n : Nat), s.inFlight = some l → n = l.snap.nbins * l.snap.nframes →
    decidesInOrder .qdec s [
      (metaWord l.snap.metaValid ≠ 0x0000001F#32, .MissingMetadata),
      (l.snap.dst % 8 ≠ 0, .Misaligned),
      (¬ (fits s.params.dmemSize l.snap.src n ∧ fits s.params.dmemSize l.snap.dst (8 * n)), .OutOfBounds),
      (¬ apart l.snap.src n l.snap.dst (8 * n), .BufferOverlap)]

/-- The error ISTFT reports: the first failing check of `44_reconstruction.md` R229 (`60_exceptions.md` R280). -/
def Obligations.IstftErrorOrder : Prop :=
  ∀ (s : State) (l : Latched) (n len : Nat), s.inFlight = some l → n = l.snap.nbins * l.snap.nframes →
    len = l.snap.nframes * (l.snap.wsize - l.snap.overlap) + l.snap.wsize →
    decidesInOrder .istft s [
      (l.snap.wsize ≤ l.snap.overlap, .InvalidWindow),
      ((¬ ∃ j, l.snap.wsize = 2 ^ j) ∨ s.params.nmax < l.snap.wsize, .InvalidSize),
      (l.snap.wsize < 2, .InvalidWindow),
      (l.snap.nbins ≠ l.snap.wsize / 2 + 1, .ShapeMismatch),
      (l.snap.src % 8 ≠ 0 ∨ l.snap.dst % 8 ≠ 0 ∨ l.snap.scr % 8 ≠ 0, .Misaligned),
      (¬ (fits s.params.dmemSize l.snap.src (8 * n) ∧ fits s.params.dmemSize l.snap.dst (8 * len) ∧
        fits s.params.dmemSize l.snap.scr (8 * len)), .OutOfBounds),
      (¬ (apart l.snap.src (8 * n) l.snap.dst (8 * len) ∧ apart l.snap.src (8 * n) l.snap.scr (8 * len) ∧
        apart l.snap.dst (8 * len) l.snap.scr (8 * len)), .BufferOverlap)]

/-- The errors ZPHASE and HANN report: the first failing check of `44_reconstruction.md` R228 and R226
(`60_exceptions.md` R280). -/
def Obligations.ZphaseHannErrorOrder : Prop :=
  ∀ (s : State) (l : Latched) (B : Nat), s.inFlight = some l → B = l.snap.wsize / 2 + 1 →
    decidesInOrder .zphase s [
      ((¬ ∃ j, l.snap.wsize = 2 ^ j) ∨ s.params.nmax < l.snap.wsize, .InvalidSize),
      (l.snap.src % 8 ≠ 0 ∨ l.snap.dst % 8 ≠ 0, .Misaligned),
      (¬ (fits s.params.dmemSize l.snap.src (8 * B) ∧
        fits s.params.dmemSize l.snap.dst (16 * l.snap.wsize)), .OutOfBounds),
      (¬ apart l.snap.src (8 * B) l.snap.dst (16 * l.snap.wsize), .BufferOverlap)] ∧
    decidesInOrder .hann s [
      ((¬ ∃ j, l.snap.wsize = 2 ^ j) ∨ s.params.nmax < l.snap.wsize, .InvalidSize),
      (l.snap.wsize < 2, .InvalidWindow),
      (l.snap.dst % 8 ≠ 0, .Misaligned),
      (¬ fits s.params.dmemSize l.snap.dst (8 * l.snap.wsize), .OutOfBounds)]

/-- Commands are pure (`60_exceptions.md` R278, `41_fft.md` R177): two states that agree on the parameters, the
snapshot and the bytes of the read footprints get the same error, or both succeed with the same bytes in the write
footprints and the same result registers. -/
def Obligations.CommandsArePure : Prop :=
  ∀ (i : Instr) (s₁ s₂ : State), s₁.params = s₂.params → s₁.operands = s₂.operands →
    (∀ f ∈ readFootprints i s₁.operands, ∀ a, f.base ≤ a → a < f.base + f.len → s₁.byteAt a = s₂.byteAt a) →
    (∃ e, exec i s₁ = .next (s₁.errorComplete e) ∧ exec i s₂ = .next (s₂.errorComplete e)) ∨
    ∃ t₁ t₂, exec i s₁ = .next t₁ ∧ exec i s₂ = .next t₂ ∧
      t₁.status = { s₁.status with done := true } ∧ t₂.status = { s₂.status with done := true } ∧
      (∀ f ∈ writeFootprints i s₁.operands, ∀ a, f.base ≤ a → a < f.base + f.len → t₁.byteAt a = t₂.byteAt a) ∧
      (i = .stft → t₁.regs.nbins = t₂.regs.nbins ∧ t₁.regs.nframes = t₂.regs.nframes) ∧
      (i = .qenc → t₁.regs.qminLo = t₂.regs.qminLo ∧ t₁.regs.qminHi = t₂.regs.qminHi ∧
        t₁.regs.qmaxLo = t₂.regs.qmaxLo ∧ t₁.regs.qmaxHi = t₂.regs.qmaxHi) ∧
      (i = .istft → t₁.outlen = t₂.outlen)

/-! ### The functions the commands compute -/

/-- The recursion of FFTL (`41_fft.md` R170). -/
def Obligations.FftRecursion : Prop :=
  (∀ x : Cplx, FFTL [x] = [x]) ∧
  ∀ (m k : Nat) (xs es os : List Cplx), (∃ j, m = 2 ^ j) → xs.length = 2 * m → k < m →
    es.length = m → (∀ n < m, es[n]? = xs[2 * n]?) → os.length = m → (∀ n < m, os[n]? = xs[2 * n + 1]?) →
    ∃ e o, (FFTL es)[k]? = some e ∧ (FFTL os)[k]? = some o ∧
      (FFTL xs)[k]? = some (cadd e (cmul o (twiddle k (2 * m)))) ∧
      (FFTL xs)[k + m]? = some (csub e (cmul o (twiddle k (2 * m))))

/-- GATHER, and the halves of the recursion as strided sequences (`41_fft.md` R171). -/
def Obligations.GatherHalves : Prop :=
  ∀ (s : State) (src m stride j : Nat),
    (j < m → (s.gather src m stride)[j]? = some (s.readC (src + 16 * stride * j))) ∧
    (s.gather src m stride).length = m ∧
    evens (s.gather src (2 * m) stride) = s.gather src m (2 * stride) ∧
    odds (s.gather src (2 * m) stride) = s.gather (src + 16 * stride) m (2 * stride)

/-- IFFTL: conjugate, transform, conjugate and divide once; the order of the last two does not matter, NaN patterns
aside, which are canonical when written (`41_fft.md` R173). -/
def Obligations.InverseTransform : Prop :=
  (∀ (xs : List Cplx) (k : Nat) (y : Cplx), (FFTL (xs.map conj))[k]? = some y →
    (IFFTL xs)[k]? =
      some ⟨fdiv y.re (f64OfNat xs.length), fdiv (fneg y.im) (f64OfNat xs.length)⟩) ∧
  ∀ a b : F64, canon (fdiv (fneg a) b) = canon (fneg (fdiv a b))

/-- The zero-phase Hermitian spectrum (`44_reconstruction.md` R227): its bins, its symmetry, and no mirrored bin for
W = 1 and W = 2. -/
def Obligations.ZeroPhaseSpectrum : Prop :=
  (∀ (col : List F64) (W j k : Nat), W = 2 ^ j → col.length = W / 2 + 1 → k < W →
    (k < W / 2 + 1 → ∃ v, col[k]? = some v ∧ (zp col W)[k]? = some ⟨v, 0x0000000000000000#64⟩) ∧
    (W / 2 + 1 ≤ k → ∃ v, col[W - k]? = some v ∧ (zp col W)[k]? = some ⟨v, 0x8000000000000000#64⟩ ∧
      ∃ z, (zp col W)[W - k]? = some z ∧ (zp col W)[k]? = some (conj z))) ∧
  (∀ c0 : F64, zp [c0] 1 = [⟨c0, 0⟩]) ∧ ∀ c0 c1 : F64, zp [c0, c1] 2 = [⟨c0, 0⟩, ⟨c1, 0⟩]

/-- The Hann window: its formula, its two ends +0.0, its range, and no other zero for W up to 2^20
(`44_reconstruction.md` R225), and the bit-identical symmetry of its elements (R226, corner cases). -/
def Obligations.HannWindow : Prop :=
  (∀ W n : Nat, 2 ≤ W → n < W → ∃ w, (hannW W)[n]? = some w ∧ w = fsub HALF (fmul HALF (hannCos n W)) ∧
    (hannW W)[W - 1 - n]? = some w ∧ isFin w = true ∧ 0 ≤ f64Rat w ∧ f64Rat w ≤ 1 ∧
    (n = 0 → w = 0) ∧ (W ≤ 2 ^ 20 → w = 0 → n = 0 ∨ n = W - 1)) ∧
  hannW 2 = [0, 0] ∧ hannW 4 = [0, 0x3FE8000000000000#64, 0x3FE8000000000000#64, 0]

/-- The frame count (`42_stft.md` R190): floor((L − W)/step) + 1, not positive exactly when L < W; the last frame ends
inside the signal, and fewer than `step` samples follow it. -/
def Obligations.FrameCount : Prop :=
  ∀ (r : Snapshot), 0 < r.step →
    r.frames = ((r.sigLen : Int) - (r.wsize : Int)) / r.step + 1 ∧
    (r.frames ≤ 0 ↔ r.sigLen < r.wsize) ∧
    (r.wsize ≤ r.sigLen →
      (r.frames - 1) * r.step + (r.wsize : Int) - 1 ≤ (r.sigLen : Int) - 1 ∧
      (r.sigLen : Int) - ((r.frames - 1) * r.step + (r.wsize : Int)) < r.step)

/-- The log value (`43_quantizer.md` R205): finite and at least −60 on finite v ≥ 0, exactly −60 at 0, and not finite
on NaN, +Inf and v ≤ −EPS. -/
def Obligations.LogMagnitude : Prop :=
  (∀ v, logMag v = fmul TEN (log10R (fadd v EPS))) ∧
  logMag 0 = 0xC04E000000000000#64 ∧ log10R EPS = 0xC018000000000000#64 ∧
  (∀ v, isFin v = true → flt v 0 = false → isFin (logMag v) = true ∧ flt (logMag v) 0xC04E000000000000#64 = false) ∧
  ∀ v, isNaN v = true ∨ v = f64Inf false ∨ flt (fneg EPS) v = false → isFin (logMag v) = false

/-- The zero-energy set of ISTFT (`44_reconstruction.md` R230): which samples have energy exactly +0.0, for each of the
three shapes of overlap; there the output is +0.0, and elsewhere the energy is positive. -/
def Obligations.ZeroEnergySet : Prop :=
  ∀ (r : Snapshot) (j W step nf p : Nat) (e : F64), r.wsize = W → W = 2 ^ j → 4 ≤ W → W ≤ 2 ^ 20 →
    r.overlap + step = W → 0 < step → r.nframes = nf → 1 ≤ nf → (energyAcc r)[p]? = some e →
    (e = 0 ↔ ∀ i < nf, ∀ n, p = i * step + n → n < W → n = 0 ∨ n = W - 1) ∧
    (e ≠ 0 → flt 0 e = true) ∧ (∀ a, e = 0 → normalize a e = 0) ∧
    (∀ a, flt EPS e = true → normalize a e = fdiv a e) ∧
    (2 ≤ r.overlap → (e = 0 ↔ p = 0 ∨ (nf - 1) * step + W - 1 ≤ p)) ∧
    (r.overlap = 1 → (e = 0 ↔ (∃ i ≤ nf, p = i * step) ∨ (nf - 1) * step + W - 1 ≤ p)) ∧
    (r.overlap = 0 → (e = 0 ↔ (∃ i < nf, p = i * W ∨ p = i * W + W - 1) ∨ nf * W ≤ p))

/-! ### Numerics -/

/-- Each operation on finite operands is one correct rounding of the exact result, which is not zero
(`40_numerics.md` R141); and `f64(n)` is exactly n for n up to 2^53, +0.0 for 0 (R149). -/
def Obligations.ArithmeticRounds : Prop :=
  (∀ n : Nat, n ≤ 2 ^ 53 → isFin (f64OfNat n) = true ∧ f64Sign (f64OfNat n) = false ∧ f64Rat (f64OfNat n) = n) ∧
  ∀ a b : F64, isFin a = true → isFin b = true →
    (f64Rat a + f64Rat b ≠ 0 → IsRne ((f64Rat a + f64Rat b : ℚ) : ℝ) (fadd a b)) ∧
    (f64Rat a - f64Rat b ≠ 0 → IsRne ((f64Rat a - f64Rat b : ℚ) : ℝ) (fsub a b)) ∧
    (f64Rat a * f64Rat b ≠ 0 → IsRne ((f64Rat a * f64Rat b : ℚ) : ℝ) (fmul a b)) ∧
    (f64Rat a ≠ 0 → f64Rat b ≠ 0 → IsRne ((f64Rat a / f64Rat b : ℚ) : ℝ) (fdiv a b))

/-- The results for zeros, infinities and NaN: those `40_numerics.md` R141 lists, and the IEEE 754 ones it refers to and
does not list, which are PRESUMED (log entry 15): the sign of a zero sum, difference, product or quotient, every sum,
difference, product and quotient with an infinity, on either side. -/
def Obligations.ArithmeticSpecials : Prop :=
  fadd 0 0x8000000000000000#64 = 0 ∧
  (∀ x, isFin x = true → fsub x x = 0) ∧
  (∀ x y, isFin x = true → isFin y = true → f64Rat x + f64Rat y = 0 → fadd x y = f64Zero (f64Sign x && f64Sign y)) ∧
  (∀ x y, isFin x = true → isFin y = true → f64Rat x - f64Rat y = 0 → fsub x y = f64Zero (f64Sign x && !f64Sign y)) ∧
  (∀ x y, isFin x = true → isFin y = true → f64Rat x * f64Rat y = 0 → fmul x y = f64Zero (f64Sign x != f64Sign y)) ∧
  (∀ m y, isFin y = true → f64Rat y ≠ 0 → fdiv (f64Zero m) y = f64Zero (m != f64Sign y)) ∧
  (∀ x n, isFin x = true → f64Rat x ≠ 0 → fdiv x (f64Zero n) = f64Inf (f64Sign x != n)) ∧
  (∀ m n, isNaN (fdiv (f64Zero m) (f64Zero n)) = true) ∧
  (∀ x n, isFin x = true → fadd x (f64Inf n) = f64Inf n ∧ fadd (f64Inf n) x = f64Inf n ∧
    fsub x (f64Inf n) = f64Inf (!n) ∧ fsub (f64Inf n) x = f64Inf n) ∧
  (∀ n, fadd (f64Inf n) (f64Inf n) = f64Inf n ∧ isNaN (fadd (f64Inf n) (f64Inf (!n))) = true ∧
    fsub (f64Inf n) (f64Inf (!n)) = f64Inf n ∧ isNaN (fsub (f64Inf n) (f64Inf n)) = true) ∧
  (∀ m n, isNaN (fmul (f64Zero m) (f64Inf n)) = true ∧ isNaN (fmul (f64Inf n) (f64Zero m)) = true) ∧
  (∀ x n, isFin x = true → f64Rat x ≠ 0 → fmul x (f64Inf n) = f64Inf (f64Sign x != n) ∧
    fmul (f64Inf n) x = f64Inf (f64Sign x != n)) ∧
  (∀ m n, fmul (f64Inf m) (f64Inf n) = f64Inf (m != n) ∧ isNaN (fdiv (f64Inf m) (f64Inf n)) = true) ∧
  (∀ x n, isFin x = true → fdiv x (f64Inf n) = f64Zero (f64Sign x != n) ∧
    fdiv (f64Inf n) x = f64Inf (f64Sign x != n)) ∧
  (∀ x y, isNaN x = true ∨ isNaN y = true → isNaN (fadd x y) = true ∧ isNaN (fsub x y) = true ∧
    isNaN (fmul x y) = true ∧ isNaN (fdiv x y) = true)

/-- Negation, conjugation and the complex operations (`40_numerics.md` R142, R146, R147, R148). -/
def Obligations.ComplexOperations : Prop :=
  (∀ (v : F64) (i : Nat), (fneg v).getLsbD i = if i = 63 then !v.getLsbD 63 else v.getLsbD i) ∧
  (∀ v, isNaN (fneg v) = isNaN v) ∧
  (∀ a b c d : F64, cadd ⟨a, b⟩ ⟨c, d⟩ = ⟨fadd a c, fadd b d⟩ ∧ csub ⟨a, b⟩ ⟨c, d⟩ = ⟨fsub a c, fsub b d⟩ ∧
    cmul ⟨a, b⟩ ⟨c, d⟩ = ⟨fsub (fmul a c) (fmul b d), fadd (fmul a d) (fmul b c)⟩ ∧ conj ⟨a, b⟩ = ⟨a, fneg b⟩) ∧
  (∀ x, conj ⟨x, 0⟩ = ⟨x, 0x8000000000000000#64⟩) ∧
  (cmul ⟨f64Inf false, 0⟩ ⟨ONE, 0⟩).re = f64Inf false ∧ isNaN (cmul ⟨f64Inf false, 0⟩ ⟨ONE, 0⟩).im = true

/-- Comparisons follow the order of the values, the infinities outside all finite ones, false on NaN, with +0 = −0;
`min` and `max` of finite values are a least and a greatest element, the first of its equals (`40_numerics.md` R143). -/
def Obligations.ComparisonsAndExtrema : Prop :=
  (∀ a b, isFin a = true → isFin b = true →
    (flt a b = true ↔ f64Rat a < f64Rat b) ∧ (feq a b = true ↔ f64Rat a = f64Rat b)) ∧
  (∀ a b, isNaN a = true ∨ isNaN b = true → flt a b = false ∧ feq a b = false) ∧
  (∀ a, flt (f64Inf false) a = false ∧ flt a (f64Inf true) = false) ∧
  (∀ a, isNaN a = false → (flt a (f64Inf false) = true ↔ a ≠ f64Inf false) ∧
    (flt (f64Inf true) a = true ↔ a ≠ f64Inf true) ∧ ∀ n, feq a (f64Inf n) = true ↔ a = f64Inf n) ∧
  ∀ (x : F64) (xs : List F64), (∀ v ∈ x :: xs, isFin v = true) →
    (∃ n : Nat, (x :: xs)[n]? = some (fminList (x :: xs)) ∧
      ∀ (m : Nat) (v : F64), (x :: xs)[m]? = some v → f64Rat (fminList (x :: xs)) ≤ f64Rat v ∧
        (f64Rat v = f64Rat (fminList (x :: xs)) → n ≤ m)) ∧
    ∃ n : Nat, (x :: xs)[n]? = some (fmaxList (x :: xs)) ∧
      ∀ (m : Nat) (v : F64), (x :: xs)[m]? = some v → f64Rat v ≤ f64Rat (fmaxList (x :: xs)) ∧
        (f64Rat v = f64Rat (fmaxList (x :: xs)) → n ≤ m)

/-- ROUNDI: the nearest integer, a tie to the even one, with the examples of the rule (`40_numerics.md` R155). -/
def Obligations.RoundToInteger : Prop :=
  (∀ t : F64, isFin t = true → |f64Rat t - (roundi t : ℚ)| ≤ 1 / 2 ∧
    (|f64Rat t - (roundi t : ℚ)| = 1 / 2 → roundi t % 2 = 0)) ∧
  roundi 0x405D200000000000#64 = 116 ∧ roundi 0x405D600000000000#64 = 118 ∧ roundi 0xBFD999999999999A#64 = 0

/-- The twiddle factors (`40_numerics.md` R150), with the values the rule derives. -/
def Obligations.TwiddleFactors : Prop :=
  (∀ k m : Nat, 0 < m → IsRne (Real.cos (2 * Real.pi * (k / m))) (twiddle k m).re ∧
    IsRne (-Real.sin (2 * Real.pi * (k / m))) (twiddle k m).im) ∧
  (∀ m : Nat, 0 < m → twiddle 0 m = ⟨ONE, 0⟩) ∧
  (∀ q : Nat, 0 < q → twiddle q (4 * q) = ⟨0, 0xBFF0000000000000#64⟩) ∧
  twiddle 1 8 = ⟨0x3FE6A09E667F3BCD#64, 0xBFE6A09E667F3BCD#64⟩

/-- The Hann cosine (`40_numerics.md` R151), with the values the rule derives. -/
def Obligations.HannCosine : Prop :=
  (∀ n W : Nat, 2 ≤ W → n < W → IsRne (Real.cos (2 * Real.pi * (n / (W - 1)))) (hannCos n W)) ∧
  (∀ W : Nat, 2 ≤ W → hannCos 0 W = ONE ∧ hannCos (W - 1) W = ONE) ∧
  hannCos 1 4 = 0xBFE0000000000000#64 ∧ hannCos 2 4 = 0xBFE0000000000000#64

/-- The magnitude (`40_numerics.md` R152): an infinity wins over a NaN, and the finite case is one rounding of the exact
root. -/
def Obligations.Magnitude : Prop :=
  (∀ z : Cplx, isInf z.re = true ∨ isInf z.im = true → mag z = f64Inf false) ∧
  (∀ z : Cplx, isInf z.re = false → isInf z.im = false → isNaN z.re = true ∨ isNaN z.im = true →
    isNaN (mag z) = true) ∧
  (∀ z : Cplx, isFin z.re = true → isFin z.im = true →
    IsRne (Real.sqrt ((f64Rat z.re : ℝ) ^ 2 + (f64Rat z.im : ℝ) ^ 2)) (mag z)) ∧
  (∀ (x : F64) (n : Bool), isFin x = true →
    mag ⟨x, f64Zero n⟩ = x &&& 0x7FFFFFFFFFFFFFFF#64) ∧
  mag ⟨0x4008000000000000#64, 0x4010000000000000#64⟩ = 0x4014000000000000#64 ∧
  ∀ m n : Bool, mag ⟨f64Zero m, f64Zero n⟩ = 0

/-- The base-10 logarithm (`40_numerics.md` R153), exact at every power of ten that is a binary64 value. -/
def Obligations.Logarithm : Prop :=
  (∀ s : F64, isNaN s = true ∨ flt s 0 = true → isNaN (log10R s) = true) ∧
  (∀ n : Bool, log10R (f64Zero n) = f64Inf true) ∧ log10R (f64Inf false) = f64Inf false ∧
  (∀ s : F64, isFin s = true → 0 < f64Rat s → IsRne (Real.logb 10 (f64Rat s)) (log10R s)) ∧
  log10R ONE = 0 ∧
  ∀ (j : Nat) (s : F64), isFin s = true → f64Rat s = 10 ^ j → log10R s = f64OfNat j

/-- The power of ten (`40_numerics.md` R154). -/
def Obligations.PowerOfTen : Prop :=
  (∀ x : F64, isNaN x = true → isNaN (exp10R x) = true) ∧
  exp10R (f64Inf false) = f64Inf false ∧ exp10R (f64Inf true) = 0 ∧
  (∀ x : F64, isFin x = true → IsRne ((10 : ℝ) ^ (f64Rat x : ℝ)) (exp10R x)) ∧
  ∀ n : Bool, exp10R (f64Zero n) = ONE

/-- P8 of `40_numerics.md` R158: the logarithm and the power of ten are monotone on finite arguments. -/
def Obligations.MonotoneLogAndPower : Prop :=
  ∀ a b : F64, isFin a = true → isFin b = true → f64Rat a ≤ f64Rat b →
    flt (log10R b) (log10R a) = false ∧ flt (exp10R b) (exp10R a) = false

/-! ### Elements in DMEM -/

/-- Elements are little-endian, read as they stand, and every NaN is written canonical (`00_scope.md` R14,
`20_memory.md` R81 to R83, `40_numerics.md` R145). -/
def Obligations.ElementsInMemory : Prop :=
  (∀ (s : State) (a i : Nat), i < 8 → (s.readF64 a).extractLsb' (8 * i) 8 = s.byteAt (a + i)) ∧
  (∀ (s : State) (a : Nat), s.readC a = ⟨s.readF64 a, s.readF64 (a + 8)⟩) ∧
  (∀ v : F64, canon v = if isNaN v then 0x7FF8000000000000#64 else v) ∧
  (∀ (s : State) (a : Nat) (v : F64), (s.writeF64s a [v]).readF64 a = canon v ∧
    ∀ b, b < a ∨ a + 8 ≤ b → (s.writeF64s a [v]).byteAt b = s.byteAt b) ∧
  ∀ (s : State) (a : Nat) (z : Cplx),
    s.writeCs a [z] = (s.writeF64s a [z.re]).writeF64s (a + 8) [z.im]

/-! ### Registers and the HOST -/

/-- Writes while BUSY (`45_control.md` R254, R255): ignored with BUSYWR set for CMD, META_VALID and every parameter
register. The exempt writes act alike at idle and while BUSY: a CTRL write without SRST stores the two enables and
changes nothing else (`10_state.md` R38), a STATUS write clears the bits it names, and a write to a read-only register
or a reserved offset is ignored without BUSYWR. -/
def Obligations.BusyWrites : Prop :=
  ∀ (s : State) (v : Word), s.resetLevel = false →
    (s.busy = true → ∀ n ∈ [RegName.CMD, .META_VALID, .SRC, .DST, .SCR, .SIZE, .STRIDE, .SIG_LEN, .WSIZE, .OVERLAP,
      .SRATE, .NBINS, .NFRAMES, .QMIN_LO, .QMIN_HI, .QMAX_LO, .QMAX_HI],
      s.onRegWrite (regOffset n) 4 v = .next { s with status := { s.status with busyWr := true } }) ∧
    (v.getLsbD 31 = false → s.onRegWrite 0x00C#12 4 v =
      .next { s with ctrl := { ieDone := v.getLsbD 0, ieErr := v.getLsbD 1 } }) ∧
    s.onRegWrite 0x010#12 4 v = .next { s with status := { s.status with
      done := s.status.done && !v.getLsbD 1
      err := s.status.err && !v.getLsbD 2
      busyWr := s.status.busyWr && !v.getLsbD 3 } } ∧
    (∀ n ∈ [RegName.ID, .VERSION, .CAP, .OUTLEN], s.onRegWrite (regOffset n) 4 v = .next s) ∧
    ∀ off : BitVec 12, off.toNat % 4 = 0 → off = 0x01C#12 ∨ 0x060 ≤ off.toNat → s.onRegWrite off 4 v = .next s

/-- A write to STATUS, at any time, clears the bits it names and nothing else (`45_control.md` R259). -/
def Obligations.StatusAcknowledge : Prop :=
  ∀ (s : State) (v : Word), s.resetLevel = false →
    ∃ t, s.onRegWrite 0x010#12 4 v = .next t ∧
      t.status.done = (s.status.done && !v.getLsbD 1) ∧ t.status.err = (s.status.err && !v.getLsbD 2) ∧
      t.status.busyWr = (s.status.busyWr && !v.getLsbD 3) ∧
      t = { s with status := { s.status with
        done := t.status.done, err := t.status.err, busyWr := t.status.busyWr } } ∧
      t.irq = ((t.status.done && s.ctrl.ieDone) || (t.status.err && s.ctrl.ieErr))

/-- The soft reset (`45_control.md` R258): every register at its reset value, IDLE, IRQ 0; with a command in flight every
byte of its write footprints below DMEM_SIZE is a draw, and every other byte of DMEM is kept. Where the abandoned
command's parameters fail its checks (STFT with no positive step, say), which bytes its footprints hold is the model's
reading (log entry 9, DEDUCED and unsafe there); the draws are those of log entries 5 and 6. -/
def Obligations.SoftReset : Prop :=
  ∀ (s : State) (v : Word), s.resetLevel = false → v.getLsbD 31 = true →
    ∃ t, s.onRegWrite 0x00C#12 4 v = .next t ∧ (∀ n, t.readReg n = resetWord s n) ∧
      t.inFlight = none ∧ t.irq = false ∧
      (s.inFlight = none → ∀ a, t.byteAt a = s.byteAt a) ∧
      (∀ l i, s.inFlight = some l → l.op = .command i → ∀ a,
        t.byteAt a = if a < s.params.dmemSize ∧
          (∃ f ∈ writeFootprints i l.snap, f.base ≤ a ∧ a < f.base + f.len) then Config.draw s.draws a
        else s.byteAt a) ∧
      (∀ l why, s.inFlight = some l → l.op = .illegal why → ∀ a, t.byteAt a = s.byteAt a)

/-- RESET (`70_reset_and_hazards.md` R305, R306): its release resets every register and makes every byte of DMEM a draw;
while it is asserted nothing but what a HOST read returns changes (log entries 10 and 11), and a HOST in its `wait` loop
stays there or goes on by bit 0 of what it read (`30_encoding.md` R121). Asserting it changes the
level alone, and driving it low where it is low already changes nothing (log entry 11). -/
def Obligations.HardReset : Prop :=
  ∀ s : State,
    (s.resetLevel = true →
      (∃ t, s.onEvent (.resetPin false) = .next t ∧ (∀ n, t.readReg n = resetWord s n) ∧ t.inFlight = none ∧
        t.irq = false ∧ t.resetLevel = false ∧ ∀ a, t.byteAt a = Config.draw s.draws a) ∧
      ∀ (e : HostEvent) (t : State), e ≠ .resetPin false → s.onEvent e = .next t →
        t = { s with
          rdata := t.rdata, draws := t.draws
          script := if e = .waitLoop ∧ t.rdata.getLsbD 0 = true then .waitLoop :: s.script else s.script }) ∧
    (s.resetLevel = false →
      s.onEvent (.resetPin true) = .next { s with resetLevel := true } ∧ s.onEvent (.resetPin false) = .next s)

/-- The state after reset (`10_state.md` R34, R64, `70_reset_and_hazards.md` R307), with the reference parameters
(log entry 1): every register by value. -/
def Obligations.ResetValues : Prop :=
  allRegs.map State.reset.readReg =
    [0x46465432#32, 0x00010000#32, 0x00001810#32, 0, 0, 0, 0, 0, 0, 0, 0, 1, 0, 0, 0, 0, 0, 0, 0, 0, 0, 0, 0] ∧
  State.reset.busy = false ∧ State.reset.irq = false ∧ State.reset.inFlight = none ∧
  ∀ a, State.reset.byteAt a = Config.draw State.reset.coldDraw a

/-- A write at idle to a read-write parameter register stores all 32 bits, and changes no other register but META_VALID
(`10_state.md` R42 to R52, R54, R55, R58). -/
def Obligations.ParameterWrites : Prop :=
  ∀ (s : State) (v : Word) (n : RegName), s.busy = false → s.resetLevel = false →
    n ∈ [RegName.SRC, .DST, .SCR, .SIZE, .STRIDE, .SIG_LEN, .WSIZE, .OVERLAP, .SRATE, .NBINS, .NFRAMES, .QMIN_LO,
      .QMIN_HI, .QMAX_LO, .QMAX_HI] →
    ∃ t, s.onRegWrite (regOffset n) 4 v = .next t ∧ t.readReg n = v ∧
      (∀ m, m ≠ n → m ≠ .META_VALID → t.readReg m = s.readReg m) ∧
      t = { s with regs := t.regs, srate := t.srate, metaValid := t.metaValid }

/-- The presence bits (`10_state.md` R41, R48 to R50, R54, R55): which accepted write sets or clears which, and that
a write to META_VALID itself only clears them, and changes nothing else. -/
def Obligations.PresenceBits : Prop :=
  ∀ (s t : State) (v : Word) (n : RegName), s.busy = false → s.resetLevel = false →
    s.onRegWrite (regOffset n) 4 v = .next t →
    (n = .WSIZE → t.metaValid = { s.metaValid with vWsize := true }) ∧
    (n = .OVERLAP → t.metaValid = { s.metaValid with vOverlap := true }) ∧
    (n = .SRATE → t.metaValid = { s.metaValid with vSrate := decide (v ≠ 0) }) ∧
    (n = .QMIN_HI → t.metaValid = { s.metaValid with vMin := true }) ∧
    (n = .QMAX_HI → t.metaValid = { s.metaValid with vMax := true }) ∧
    (n ∈ [RegName.SRC, .DST, .SCR, .SIZE, .STRIDE, .SIG_LEN, .NBINS, .NFRAMES, .QMIN_LO, .QMAX_LO] →
      t.metaValid = s.metaValid) ∧
    (n = .META_VALID → t = { s with metaValid := t.metaValid } ∧ ∀ i < 5,
      (metaWord t.metaValid).getLsbD i = ((metaWord s.metaValid).getLsbD i && !v.getLsbD i))

/-- The read-only registers and the reserved offsets (`10_state.md` R35, R36, R56; for writes to CAP and OUTLEN R37, R53
and `45_control.md` R255), at any time, BUSY included. -/
def Obligations.ReadOnlyAndReserved : Prop :=
  (∀ s : State, s.readReg .ID = 0x46465432#32 ∧ s.readReg .VERSION = 0x00010000#32) ∧
  (∀ (s : State) (v : Word), s.resetLevel = false →
    s.onRegWrite 0x000#12 4 v = .next s ∧ s.onRegWrite 0x004#12 4 v = .next s ∧
    s.onRegWrite 0x008#12 4 v = .next s ∧ s.onRegWrite 0x04C#12 4 v = .next s) ∧
  (∀ (s : State) (off : BitVec 12) (v : Word), s.resetLevel = false → off.toNat % 4 = 0 →
    off = 0x01C#12 ∨ 0x060 ≤ off.toNat →
    s.onRegRead off 4 = .next { s with rdata := 0 } ∧ s.onRegWrite off 4 v = .next s) ∧
  ∀ s : State, (s.readReg .CTRL).extractLsb' 2 30 = 0 ∧ (s.readReg .STATUS).extractLsb' 4 4 = 0 ∧
    (s.readReg .STATUS).extractLsb' 24 8 = 0 ∧ (s.readReg .META_VALID).extractLsb' 5 27 = 0 ∧
    (s.readReg .CAP).extractLsb' 5 3 = 0 ∧ (s.readReg .CAP).extractLsb' 14 18 = 0

/-- Each register stands at the offset `10_state.md` R34 gives it, by number, and a read there returns its current value
with no side effect (`45_control.md` R260): CMD the last accepted word (R40), OUTLEN the length ISTFT wrote (R53), every
parameter register what it holds, and the fields of STATUS, CTRL, CAP and META_VALID stand where the map puts them
(R37 to R39, R41). The HOST's `wait` is a loop of such reads of STATUS
that ends at the first whose bit 0 is 0 (`30_encoding.md` R121): once the turns are used up, the completion fires and the
pass after it is the last one (`45_control.md` R252; log entries 3 and 18). -/
def Obligations.RegisterReads : Prop :=
  (∀ (s : State) (n : RegName), s.resetLevel = false →
    s.onRegRead (regOffset n) 4 = .next { s with rdata := (s.readReg n).setWidth 64 }) ∧
  (∀ (s : State), ∀ p ∈ [(RegName.ID, 0x000#12, 0x46465432#32), (.VERSION, 0x004#12, 0x00010000#32),
    (.CAP, 0x008#12, s.readReg .CAP), (.CTRL, 0x00C#12, s.readReg .CTRL), (.STATUS, 0x010#12, s.readReg .STATUS),
    (.CMD, 0x014#12, s.cmd), (.META_VALID, 0x018#12, s.readReg .META_VALID), (.SRC, 0x020#12, s.regs.src),
    (.DST, 0x024#12, s.regs.dst), (.SCR, 0x028#12, s.regs.scr), (.SIZE, 0x02C#12, s.regs.size),
    (.STRIDE, 0x030#12, s.regs.stride), (.SIG_LEN, 0x034#12, s.regs.sigLen), (.WSIZE, 0x038#12, s.regs.wsize),
    (.OVERLAP, 0x03C#12, s.regs.overlap), (.SRATE, 0x040#12, s.srate), (.NBINS, 0x044#12, s.regs.nbins),
    (.NFRAMES, 0x048#12, s.regs.nframes), (.OUTLEN, 0x04C#12, s.outlen), (.QMIN_LO, 0x050#12, s.regs.qminLo),
    (.QMIN_HI, 0x054#12, s.regs.qminHi), (.QMAX_LO, 0x058#12, s.regs.qmaxLo), (.QMAX_HI, 0x05C#12, s.regs.qmaxHi)],
    regOffset p.1 = p.2.1 ∧ s.readReg p.1 = p.2.2 ∧
      (s.resetLevel = false → s.onRegRead p.2.1 4 = .next { s with rdata := p.2.2.setWidth 64 })) ∧
  (∀ s : State, (s.readReg .META_VALID).getLsbD 0 = s.metaValid.vWsize ∧
    (s.readReg .META_VALID).getLsbD 1 = s.metaValid.vOverlap ∧
    (s.readReg .META_VALID).getLsbD 2 = s.metaValid.vSrate ∧ (s.readReg .META_VALID).getLsbD 3 = s.metaValid.vMin ∧
    (s.readReg .META_VALID).getLsbD 4 = s.metaValid.vMax) ∧
  (∀ s : State, (s.readReg .STATUS).getLsbD 0 = s.inFlight.isSome ∧ (s.readReg .STATUS).getLsbD 1 = s.status.done ∧
    (s.readReg .STATUS).getLsbD 2 = s.status.err ∧ (s.readReg .STATUS).getLsbD 3 = s.status.busyWr ∧
    (s.readReg .STATUS).extractLsb' 8 8 = s.status.errCode ∧ (s.readReg .STATUS).extractLsb' 16 8 = s.status.lastOp ∧
    (s.readReg .CTRL).getLsbD 0 = s.ctrl.ieDone ∧ (s.readReg .CTRL).getLsbD 1 = s.ctrl.ieErr) ∧
  (∀ s : State, s.params.legal → 2 ^ ((s.readReg .CAP).extractLsb' 0 5).toNat = s.params.nmax ∧
    2 ^ ((s.readReg .CAP).extractLsb' 8 6).toNat = s.params.dmemSize) ∧
  expandLine .wait = [.waitLoop] ∧
  (∀ s : State, s.resetLevel = false → s.onEvent .waitLoop = .next { s with
    rdata := (s.readReg .STATUS).setWidth 64
    script := if s.busy = true then .waitLoop :: s.script else s.script }) ∧
  ∀ (s : State) (rest : List HostEvent), s.resetLevel = false → s.busy = true → s.turns = [] →
    s.script = .waitLoop :: rest →
    ∃ t, step s = .next t ∧ t.busy = false ∧ t.script = s.script ∧
      step t = .next { t with script := rest, rdata := (t.readReg .STATUS).setWidth 64 }

/-- The DMEM port (`20_memory.md` R81, R91): an access that fits reads or writes its bytes little-endian, one that does
not fit reads 0 and writes nothing. A write leaves the sequencer IDLE at idle, and of a command in flight it changes the
race mark alone, which it sets when one of its bytes lies in a footprint (R97 (c)). The footprints of a command that
will fail are the model's reading (log entry 9), and addresses have no upper bound (log entry 19). -/
def Obligations.DmemPort : Prop :=
  ∀ (s : State) (a w : Nat) (v : BitVec 64), s.resetLevel = false → w ∈ [1, 2, 4, 8] → a % w = 0 →
    (a + w ≤ s.params.dmemSize → ∃ t, s.onMemWrite a w v = .next t ∧
      (∀ i < w, t.byteAt (a + i) = v.extractLsb' (8 * i) 8) ∧
      (∀ b, b < a ∨ a + w ≤ b → t.byteAt b = s.byteAt b) ∧
      t = { s with dmem := t.dmem, inFlight := t.inFlight } ∧
      (s.inFlight = none → t.inFlight = none) ∧
      (∀ l, s.inFlight = some l → ∃ m : Bool, t.inFlight = some { l with raced := m } ∧
        (m = true ↔ l.raced = true ∨ ∃ i < w, anyHas (l.reads ++ l.writes) (a + i) = true))) ∧
    (a + w ≤ s.params.dmemSize → (∀ i < w, anyHas s.liveWrites (a + i) = false) →
      ∃ t, s.onMemRead a w = .next t ∧ (∀ i < w, t.rdata.extractLsb' (8 * i) 8 = s.byteAt (a + i)) ∧
        t.rdata.toNat < 256 ^ w ∧ t = { s with rdata := t.rdata }) ∧
    (s.params.dmemSize < a + w → s.onMemWrite a w v = .next s ∧ s.onMemRead a w = .next { s with rdata := 0 })

/-- The footprint race (`20_memory.md` R97), for accesses of every width: a byte read in a write footprint is a draw, any
other its current value; a write keeps the HOST's bytes and marks the command when one of them lies in a footprint; and
the completion of a marked command leaves every byte of every write footprint a draw and everything else, its error and
its result registers included, as the command left it. The draws are those of log entries 5 and 6; that an error
completion draws too is log entry 8, the footprints of a failing command are log entry 9, and that the error and the
registers are those of DMEM at completion is log entry 21. -/
def Obligations.FootprintRace : Prop :=
  ∀ (s : State) (l : Latched) (i : Instr), s.inFlight = some l → l.op = .command i → s.resetLevel = false →
    (∀ (a w : Nat) (v : BitVec 64), w ∈ [1, 2, 4, 8] → a % w = 0 → a + w ≤ s.params.dmemSize →
      (∃ t, s.onMemRead a w = .next t ∧
        (∀ k < w, t.rdata.extractLsb' (8 * k) 8 =
          if anyHas (writeFootprints i l.snap) (a + k) = true then Config.draw s.draws (a + k)
          else s.byteAt (a + k)) ∧
        t.rdata.toNat < 256 ^ w ∧ t = { s with rdata := t.rdata, draws := t.draws } ∧
        ((∃ k < w, anyHas (writeFootprints i l.snap) (a + k) = true) → t.draws = s.draws + 1) ∧
        ((∀ k < w, anyHas (writeFootprints i l.snap) (a + k) = false) → t.draws = s.draws)) ∧
      ∃ t, s.onMemWrite a w v = .next t ∧ (∀ k < w, t.byteAt (a + k) = v.extractLsb' (8 * k) 8) ∧
        (∀ b, b < a ∨ a + w ≤ b → t.byteAt b = s.byteAt b) ∧
        t = { s with dmem := t.dmem, inFlight := t.inFlight } ∧
        ∃ m : Bool, t.inFlight = some { l with raced := m } ∧
          (m = true ↔ l.raced = true ∨
            ∃ k < w, anyHas (readFootprints i l.snap ++ writeFootprints i l.snap) (a + k) = true)) ∧
    (l.raced = true → ∃ u t, exec i s = .next u ∧ s.coreTurn = .next t ∧
      (∀ a, t.byteAt a = if a < s.params.dmemSize ∧ anyHas (writeFootprints i l.snap) a = true
        then Config.draw s.draws a else u.byteAt a) ∧
      t = { u with dmem := t.dmem, draws := t.draws })

/-- The interrupt line (`10_state.md` R61, `60_exceptions.md` R282, R283): its level, what a completion makes it, and how
a masked pending source raises it at once. -/
def Obligations.InterruptLine : Prop :=
  (∀ s : State, s.irq = true ↔
    s.status.done = true ∧ s.ctrl.ieDone = true ∨ s.status.err = true ∧ s.ctrl.ieErr = true) ∧
  (∀ (i : Instr) (s t : State), exec i s = .next t →
    t.irq = (s.ctrl.ieDone || (t.status.err && s.ctrl.ieErr))) ∧
  (∀ (s t : State) (v : Word), s.resetLevel = false → v.getLsbD 31 = false → s.onRegWrite 0x00C#12 4 v = .next t →
    t.irq = ((s.status.done && v.getLsbD 0) || (s.status.err && v.getLsbD 1)) ∧ t.status = s.status) ∧
  ∀ (s t : State) (v : Word), s.resetLevel = false → v.getLsbD 1 = true → v.getLsbD 2 = true →
    s.onRegWrite 0x010#12 4 v = .next t → t.irq = false

/-- Exactly the accesses the HOST must never make have no step (`10_state.md` R57, `20_memory.md` R91,
`45_control.md` R263; log entry 16): every other event, and every turn of the sequencer, answers a next state, the idle
turn of either agent included (log entry 3). -/
def Obligations.StepAnswersUnlessDutyBroken : Prop :=
  (∀ s : State, s.stepsOn ↔ (s.coreMoves = true ∨ ∀ e rest, s.script = e :: rest → HostEventOk e = true)) ∧
  (∀ (s : State) (off : BitVec 12) (w : Nat) (v : Word), w ≠ 4 ∨ off.toNat % 4 ≠ 0 →
    (∃ r, s.onRegWrite off w v = .refused r) ∧ ∃ r, s.onRegRead off w = .refused r) ∧
  ∀ (s : State) (a w : Nat) (v : BitVec 64), w ∉ [1, 2, 4, 8] ∨ a % w ≠ 0 →
    (∃ r, s.onMemWrite a w v = .refused r) ∧ ∃ r, s.onMemRead a w = .refused r

/-! ### The machine as a whole -/

/-- The invariant holds right after reset. -/
def Obligations.InvariantAtReset : Prop := State.reset.Inv

/-- Every step from every state with the invariant leads to a state with it: DMEM stays canonical and inside DMEM_SIZE,
a code stands in ERRCODE whenever ERR is set, LASTOP is the opcode of CMD, V_SRATE needs a nonzero SRATE, and the command in
flight keeps the snapshot of the live registers (`45_control.md` R251, `60_exceptions.md` R275, `10_state.md` R41). -/
def Obligations.InvariantKeptByEveryStep : Prop :=
  ∀ s t : State, s.Inv → step s = .next t → t.Inv

/-- QENC is the only command that writes QMIN and QMAX (`43_quantizer.md` R209), and only HOST accesses and resets write
the registers no command's rule names: over every step of the machine. -/
def Obligations.WhatAStepMayWrite : Prop :=
  ∀ (s t : State), step s = .next t →
    ((∀ l, s.inFlight = some l → l.op ≠ .command .qenc) →
      s.coreMoves = true ∨ s.script = [] →
      t.regs.qminLo = s.regs.qminLo ∧ t.regs.qminHi = s.regs.qminHi ∧
      t.regs.qmaxLo = s.regs.qmaxLo ∧ t.regs.qmaxHi = s.regs.qmaxHi ∧ t.metaValid = s.metaValid) ∧
    (s.coreMoves = true ∨ s.script = [] →
      t.script = s.script ∧ t.ctrl = s.ctrl ∧ t.cmd = s.cmd ∧ t.srate = s.srate ∧ t.status.busyWr = s.status.busyWr ∧
      t.status.lastOp = s.status.lastOp ∧ t.params = s.params ∧ t.coldDraw = s.coldDraw ∧ t.rdata = s.rdata ∧
      t.regs.src = s.regs.src ∧ t.regs.dst = s.regs.dst ∧ t.regs.scr = s.regs.scr ∧ t.regs.size = s.regs.size ∧
      t.regs.stride = s.regs.stride ∧ t.regs.sigLen = s.regs.sigLen ∧ t.regs.wsize = s.regs.wsize ∧
      t.regs.overlap = s.regs.overlap)

end
end

