-- ==== Sys2Proof/Laws/Memory.lean ====
section
/-! SUPPORT. The laws of the cell list: what a byte reads as after a store, that every memory operation keeps the canonical
form and the address range, and what reading a stored array gives back. -/
namespace Sys2Proof.Machine

/-! ### Reading -/

@[simp] theorem Memory.get?_nil (a : Nat) : Memory.get? [] a = none := rfl

theorem Memory.get?_cons (x : Nat) (b : Byte) (m : Memory) (a : Nat) :
    Memory.get? ((x, b) :: m) a = if x = a then some b else Memory.get? m a := rfl

theorem Memory.get?_append (m n : Memory) (a : Nat) :
    Memory.get? (m ++ n) a = (Memory.get? m a).or (Memory.get? n a) := by
  induction m with
  | nil => simp
  | cons c m ih =>
    obtain ⟨x, b⟩ := c
    by_cases h : x = a <;> simp [Memory.get?_cons, h, ih]

theorem Memory.get?_filter (p : Nat → Bool) (m : Memory) (a : Nat) :
    Memory.get? (m.filter (fun c => p c.1)) a = if p a then Memory.get? m a else none := by
  induction m with
  | nil => simp
  | cons c m ih =>
    obtain ⟨x, b⟩ := c
    by_cases hx : x = a
    · subst hx
      by_cases hp : p x <;> simp [hp, Memory.get?_cons, ih]
    · by_cases hp : p x <;> simp [hp, Memory.get?_cons, ih, hx]

theorem get?_cellsFrom (base : Nat) (bs : List Byte) (a : Nat) :
    Memory.get? (cellsFrom base bs) a = if base ≤ a then bs[a - base]? else none := by
  induction bs generalizing base with
  | nil => simp [cellsFrom]
  | cons b bs ih =>
    rw [cellsFrom, Memory.get?_cons, ih]
    rcases Nat.lt_trichotomy base a with h | h | h
    · rw [if_neg (by omega), if_pos (by omega), if_pos (by omega)]
      obtain ⟨k, rfl⟩ := Nat.exists_eq_add_of_lt h
      have : base + k + 1 - base = (base + k + 1 - (base + 1)) + 1 := by omega
      rw [this, List.getElem?_cons_succ]
    · subst h; simp
    · rw [if_neg (by omega), if_neg (by omega), if_neg (by omega)]

/-- What a store leaves: the block's byte inside the block, the old byte outside. -/
theorem Memory.get?_store (m : Memory) (base : Nat) (bs : List Byte) (a : Nat) :
    (m.store base bs).get? a =
      if base ≤ a ∧ a < base + bs.length then bs[a - base]? else m.get? a := by
  unfold Memory.store
  rw [Memory.get?_append, Memory.get?_append, Memory.get?_filter (fun x => decide (x < base)),
    Memory.get?_filter (fun x => decide (base + bs.length ≤ x)), get?_cellsFrom]
  by_cases h1 : a < base
  · have : ¬ base ≤ a := by omega
    have : ¬ base + bs.length ≤ a := by omega
    simp [*]
  · have h2 : base ≤ a := by omega
    by_cases h3 : a < base + bs.length
    · have h4 : ¬ base + bs.length ≤ a := by omega
      simp [h1, h2, h3, h4]
    · have h4 : base + bs.length ≤ a := by omega
      have h5 : bs[a - base]? = none := by rw [List.getElem?_eq_none]; omega
      simp [h1, h2, h3, h4, h5]

/-! ### The canonical form -/

theorem Memory.wf_iff (m : Memory) : m.wf = true ↔ m.Pairwise (fun c d => c.1 < d.1) := by
  induction m with
  | nil => simp [Memory.wf]
  | cons c m ih =>
    cases m with
    | nil => simp [Memory.wf]
    | cons d m =>
      rw [Memory.wf, Bool.and_eq_true, decide_eq_true_iff, ih, List.pairwise_cons (a := c)]
      constructor
      · rintro ⟨h, hp⟩
        refine ⟨?_, hp⟩
        intro e he
        rcases List.mem_cons.mp he with rfl | he
        · exact h
        · exact h.trans ((List.pairwise_cons.mp hp).1 e he)
      · rintro ⟨h, hp⟩
        exact ⟨h d (by simp), hp⟩

theorem mem_cellsFrom {base : Nat} {bs : List Byte} {c : Host.Cell} (h : c ∈ cellsFrom base bs) :
    base ≤ c.1 ∧ c.1 < base + bs.length := by
  induction bs generalizing base with
  | nil => simp [cellsFrom] at h
  | cons b bs ih =>
    rcases List.mem_cons.mp h with rfl | h
    · simp
    · have := ih h
      simp only [List.length_cons]
      omega

theorem pairwise_cellsFrom (base : Nat) (bs : List Byte) :
    (cellsFrom base bs).Pairwise (fun c d => c.1 < d.1) := by
  induction bs generalizing base with
  | nil => exact List.Pairwise.nil
  | cons b bs ih =>
    refine List.Pairwise.cons (fun c hc => ?_) (ih _)
    have := mem_cellsFrom hc
    omega

/-- A store keeps the canonical form. -/
theorem Memory.wf_store {m : Memory} (h : m.wf = true) (base : Nat) (bs : List Byte) :
    (m.store base bs).wf = true := by
  rw [Memory.wf_iff] at h ⊢
  unfold Memory.store
  rw [List.pairwise_append, List.pairwise_append]
  refine ⟨⟨h.filter _, pairwise_cellsFrom _ _, ?_⟩, h.filter _, ?_⟩
  · intro c hc d hd
    have h1 := (List.mem_filter.mp hc).2
    have h2 := mem_cellsFrom hd
    simp only [decide_eq_true_eq] at h1
    omega
  · intro c hc d hd
    have h2 := (List.mem_filter.mp hd).2
    simp only [decide_eq_true_eq] at h2
    rcases List.mem_append.mp hc with hc | hc
    · have h1 := (List.mem_filter.mp hc).2
      simp only [decide_eq_true_eq] at h1
      omega
    · have h1 := mem_cellsFrom hc
      omega

/-- A store of a block below `size` keeps every listed byte below `size`. -/
theorem Memory.below_store {m : Memory} {size base : Nat} {bs : List Byte} (h : m.below size)
    (hb : bs.length = 0 ∨ base + bs.length ≤ size) : (m.store base bs).below size := by
  intro c hc
  unfold Memory.store at hc
  rcases List.mem_append.mp hc with hc | hc
  · rcases List.mem_append.mp hc with hc | hc
    · exact h c (List.mem_filter.mp hc).1
    · have := mem_cellsFrom hc
      omega
  · exact h c (List.mem_filter.mp hc).1

/-- Drawing a footprint keeps the canonical form. -/
theorem Memory.wf_drawFootprint {m : Memory} (h : m.wf = true) (n : Nat) (f : Footprint) :
    (Memory.drawFootprint n m f).wf = true := Memory.wf_store h _ _

theorem Memory.wf_drawAll (n : Nat) (fs : List Footprint) {m : Memory} (h : m.wf = true) :
    (fs.foldl (Memory.drawFootprint n) m).wf = true := by
  induction fs generalizing m with
  | nil => exact h
  | cons f fs ih => exact ih (Memory.wf_drawFootprint h n f)

theorem Footprint.clip_bound (f : Footprint) (size : Nat) :
    (f.clip size).len = 0 ∨ (f.clip size).base + (f.clip size).len ≤ size := by
  simp only [Footprint.clip]; omega

theorem Footprint.has_clip (f : Footprint) (size a : Nat) :
    (f.clip size).has a = (f.has a && decide (a < size)) := by
  rw [Bool.eq_iff_iff]
  simp only [Footprint.has, Bool.and_eq_true, decide_eq_true_eq]
  simp only [Footprint.clip]
  omega

theorem Memory.below_drawAll (n : Nat) (size : Nat) (fs : List Footprint) {m : Memory} (h : m.below size) :
    ((fs.map (fun f => f.clip size)).foldl (Memory.drawFootprint n) m).below size := by
  induction fs generalizing m with
  | nil => exact h
  | cons f fs ih =>
    refine ih (Memory.below_store h ?_)
    simpa using Footprint.clip_bound f size

/-- A drawn footprint: the draw inside, the old byte outside. -/
theorem Memory.get?_drawFootprint (n : Nat) (m : Memory) (f : Footprint) (a : Nat) :
    (Memory.drawFootprint n m f).get? a = if f.has a then some (Config.draw n a) else m.get? a := by
  unfold Memory.drawFootprint
  rw [Memory.get?_store]
  by_cases h : f.base ≤ a ∧ a < f.base + f.len
  · have h1 : a - f.base < f.len := by omega
    have h2 : f.base + (a - f.base) = a := by omega
    simp [Footprint.has, h, h1, h2]
  · have : f.has a = false := by simp only [Footprint.has, ← Bool.decide_and, decide_eq_false_iff_not]; exact h
    simp only [List.length_map, List.length_range, if_neg h, this, Bool.false_eq_true, if_false]

theorem Memory.get?_drawAll (n : Nat) (fs : List Footprint) (m : Memory) (a : Nat) :
    (fs.foldl (Memory.drawFootprint n) m).get? a =
      if anyHas fs a then some (Config.draw n a) else m.get? a := by
  induction fs generalizing m with
  | nil => simp [anyHas]
  | cons f fs ih =>
    rw [List.foldl_cons, ih, Memory.get?_drawFootprint]
    by_cases h1 : f.has a <;> by_cases h2 : anyHas fs a <;> simp_all [anyHas]

/-! ### Little-endian words -/

@[simp] theorem length_leBytes (n v : Nat) : (leBytes n v).length = n := by
  induction n generalizing v with
  | zero => rfl
  | succ n ih => simp [leBytes, ih]

/-- Composing the bytes of `v` gives back its `n` low bytes. -/
theorem leNat_leBytes (n v : Nat) : leNat (leBytes n v) = v % 256 ^ n := by
  induction n generalizing v with
  | zero => simp [leBytes, leNat, Nat.mod_one]
  | succ n ih =>
    rw [leBytes, leNat, ih, BitVec.toNat_ofNat, pow_succ' 256 n, Nat.mod_mul]

theorem leNat_lt (bs : List Byte) : leNat bs < 256 ^ bs.length := by
  induction bs with
  | nil => simp [leNat]
  | cons b bs ih =>
    have := b.isLt
    rw [leNat, List.length_cons, pow_succ']
    omega

end Sys2Proof.Machine
end

