-- ==== Sys2Proof/Laws/State.lean ====
section
/-! SUPPORT. One lemma per field per state update, each true by rfl: no later proof unfolds a record update. -/
namespace Sys2Proof.Machine

variable (s : State)

/-! ### storeBytes -/

@[simp] theorem storeBytes_params (base : Nat) (bs : List Byte) : (s.storeBytes base bs).params = s.params := rfl
@[simp] theorem storeBytes_ctrl (base : Nat) (bs : List Byte) : (s.storeBytes base bs).ctrl = s.ctrl := rfl
@[simp] theorem storeBytes_status (base : Nat) (bs : List Byte) : (s.storeBytes base bs).status = s.status := rfl
@[simp] theorem storeBytes_cmd (base : Nat) (bs : List Byte) : (s.storeBytes base bs).cmd = s.cmd := rfl
@[simp] theorem storeBytes_metaValid (base : Nat) (bs : List Byte) :
    (s.storeBytes base bs).metaValid =
      s.metaValid := rfl
@[simp] theorem storeBytes_regs (base : Nat) (bs : List Byte) : (s.storeBytes base bs).regs = s.regs := rfl
@[simp] theorem storeBytes_srate (base : Nat) (bs : List Byte) : (s.storeBytes base bs).srate = s.srate := rfl
@[simp] theorem storeBytes_outlen (base : Nat) (bs : List Byte) : (s.storeBytes base bs).outlen = s.outlen := rfl
@[simp] theorem storeBytes_inFlight (base : Nat) (bs : List Byte) :
    (s.storeBytes base bs).inFlight =
      s.inFlight := rfl
@[simp] theorem storeBytes_resetLevel (base : Nat) (bs : List Byte) :
    (s.storeBytes base bs).resetLevel =
      s.resetLevel := rfl
@[simp] theorem storeBytes_dmem (base : Nat) (bs : List Byte) :
    (s.storeBytes base bs).dmem =
      s.dmem.store base bs := rfl
@[simp] theorem storeBytes_coldDraw (base : Nat) (bs : List Byte) :
    (s.storeBytes base bs).coldDraw =
      s.coldDraw := rfl
@[simp] theorem storeBytes_draws (base : Nat) (bs : List Byte) : (s.storeBytes base bs).draws = s.draws := rfl
@[simp] theorem storeBytes_script (base : Nat) (bs : List Byte) : (s.storeBytes base bs).script = s.script := rfl
@[simp] theorem storeBytes_turns (base : Nat) (bs : List Byte) : (s.storeBytes base bs).turns = s.turns := rfl
@[simp] theorem storeBytes_rdata (base : Nat) (bs : List Byte) : (s.storeBytes base bs).rdata = s.rdata := rfl

/-! ### writeF64s -/

@[simp] theorem writeF64s_params (base : Nat) (vs : List F64) : (s.writeF64s base vs).params = s.params := rfl
@[simp] theorem writeF64s_ctrl (base : Nat) (vs : List F64) : (s.writeF64s base vs).ctrl = s.ctrl := rfl
@[simp] theorem writeF64s_status (base : Nat) (vs : List F64) : (s.writeF64s base vs).status = s.status := rfl
@[simp] theorem writeF64s_cmd (base : Nat) (vs : List F64) : (s.writeF64s base vs).cmd = s.cmd := rfl
@[simp] theorem writeF64s_metaValid (base : Nat) (vs : List F64) :
    (s.writeF64s base vs).metaValid =
      s.metaValid := rfl
@[simp] theorem writeF64s_regs (base : Nat) (vs : List F64) : (s.writeF64s base vs).regs = s.regs := rfl
@[simp] theorem writeF64s_srate (base : Nat) (vs : List F64) : (s.writeF64s base vs).srate = s.srate := rfl
@[simp] theorem writeF64s_outlen (base : Nat) (vs : List F64) : (s.writeF64s base vs).outlen = s.outlen := rfl
@[simp] theorem writeF64s_inFlight (base : Nat) (vs : List F64) : (s.writeF64s base vs).inFlight = s.inFlight := rfl
@[simp] theorem writeF64s_resetLevel (base : Nat) (vs : List F64) :
    (s.writeF64s base vs).resetLevel =
      s.resetLevel := rfl
@[simp] theorem writeF64s_dmem (base : Nat) (vs : List F64) :
    (s.writeF64s base vs).dmem =
      s.dmem.store base (vs.flatMap f64Bytes) := rfl
@[simp] theorem writeF64s_coldDraw (base : Nat) (vs : List F64) : (s.writeF64s base vs).coldDraw = s.coldDraw := rfl
@[simp] theorem writeF64s_draws (base : Nat) (vs : List F64) : (s.writeF64s base vs).draws = s.draws := rfl
@[simp] theorem writeF64s_script (base : Nat) (vs : List F64) : (s.writeF64s base vs).script = s.script := rfl
@[simp] theorem writeF64s_turns (base : Nat) (vs : List F64) : (s.writeF64s base vs).turns = s.turns := rfl
@[simp] theorem writeF64s_rdata (base : Nat) (vs : List F64) : (s.writeF64s base vs).rdata = s.rdata := rfl

/-! ### writeCs -/

@[simp] theorem writeCs_params (base : Nat) (zs : List Cplx) : (s.writeCs base zs).params = s.params := rfl
@[simp] theorem writeCs_ctrl (base : Nat) (zs : List Cplx) : (s.writeCs base zs).ctrl = s.ctrl := rfl
@[simp] theorem writeCs_status (base : Nat) (zs : List Cplx) : (s.writeCs base zs).status = s.status := rfl
@[simp] theorem writeCs_cmd (base : Nat) (zs : List Cplx) : (s.writeCs base zs).cmd = s.cmd := rfl
@[simp] theorem writeCs_metaValid (base : Nat) (zs : List Cplx) : (s.writeCs base zs).metaValid = s.metaValid := rfl
@[simp] theorem writeCs_regs (base : Nat) (zs : List Cplx) : (s.writeCs base zs).regs = s.regs := rfl
@[simp] theorem writeCs_srate (base : Nat) (zs : List Cplx) : (s.writeCs base zs).srate = s.srate := rfl
@[simp] theorem writeCs_outlen (base : Nat) (zs : List Cplx) : (s.writeCs base zs).outlen = s.outlen := rfl
@[simp] theorem writeCs_inFlight (base : Nat) (zs : List Cplx) : (s.writeCs base zs).inFlight = s.inFlight := rfl
@[simp] theorem writeCs_resetLevel (base : Nat) (zs : List Cplx) :
    (s.writeCs base zs).resetLevel =
      s.resetLevel := rfl
@[simp] theorem writeCs_dmem (base : Nat) (zs : List Cplx) :
    (s.writeCs base zs).dmem =
      s.dmem.store base (zs.flatMap cplxBytes) := rfl
@[simp] theorem writeCs_coldDraw (base : Nat) (zs : List Cplx) : (s.writeCs base zs).coldDraw = s.coldDraw := rfl
@[simp] theorem writeCs_draws (base : Nat) (zs : List Cplx) : (s.writeCs base zs).draws = s.draws := rfl
@[simp] theorem writeCs_script (base : Nat) (zs : List Cplx) : (s.writeCs base zs).script = s.script := rfl
@[simp] theorem writeCs_turns (base : Nat) (zs : List Cplx) : (s.writeCs base zs).turns = s.turns := rfl
@[simp] theorem writeCs_rdata (base : Nat) (zs : List Cplx) : (s.writeCs base zs).rdata = s.rdata := rfl

/-! ### writeU8s -/

@[simp] theorem writeU8s_params (base : Nat) (qs : List Byte) : (s.writeU8s base qs).params = s.params := rfl
@[simp] theorem writeU8s_ctrl (base : Nat) (qs : List Byte) : (s.writeU8s base qs).ctrl = s.ctrl := rfl
@[simp] theorem writeU8s_status (base : Nat) (qs : List Byte) : (s.writeU8s base qs).status = s.status := rfl
@[simp] theorem writeU8s_cmd (base : Nat) (qs : List Byte) : (s.writeU8s base qs).cmd = s.cmd := rfl
@[simp] theorem writeU8s_metaValid (base : Nat) (qs : List Byte) : (s.writeU8s base qs).metaValid = s.metaValid := rfl
@[simp] theorem writeU8s_regs (base : Nat) (qs : List Byte) : (s.writeU8s base qs).regs = s.regs := rfl
@[simp] theorem writeU8s_srate (base : Nat) (qs : List Byte) : (s.writeU8s base qs).srate = s.srate := rfl
@[simp] theorem writeU8s_outlen (base : Nat) (qs : List Byte) : (s.writeU8s base qs).outlen = s.outlen := rfl
@[simp] theorem writeU8s_inFlight (base : Nat) (qs : List Byte) : (s.writeU8s base qs).inFlight = s.inFlight := rfl
@[simp] theorem writeU8s_resetLevel (base : Nat) (qs : List Byte) :
    (s.writeU8s base qs).resetLevel =
      s.resetLevel := rfl
@[simp] theorem writeU8s_dmem (base : Nat) (qs : List Byte) : (s.writeU8s base qs).dmem = s.dmem.store base qs := rfl
@[simp] theorem writeU8s_coldDraw (base : Nat) (qs : List Byte) : (s.writeU8s base qs).coldDraw = s.coldDraw := rfl
@[simp] theorem writeU8s_draws (base : Nat) (qs : List Byte) : (s.writeU8s base qs).draws = s.draws := rfl
@[simp] theorem writeU8s_script (base : Nat) (qs : List Byte) : (s.writeU8s base qs).script = s.script := rfl
@[simp] theorem writeU8s_turns (base : Nat) (qs : List Byte) : (s.writeU8s base qs).turns = s.turns := rfl
@[simp] theorem writeU8s_rdata (base : Nat) (qs : List Byte) : (s.writeU8s base qs).rdata = s.rdata := rfl

/-! ### memWrite -/

@[simp] theorem memWrite_params (a n v : Nat) : (s.memWrite a n v).params = s.params := rfl
@[simp] theorem memWrite_ctrl (a n v : Nat) : (s.memWrite a n v).ctrl = s.ctrl := rfl
@[simp] theorem memWrite_status (a n v : Nat) : (s.memWrite a n v).status = s.status := rfl
@[simp] theorem memWrite_cmd (a n v : Nat) : (s.memWrite a n v).cmd = s.cmd := rfl
@[simp] theorem memWrite_metaValid (a n v : Nat) : (s.memWrite a n v).metaValid = s.metaValid := rfl
@[simp] theorem memWrite_regs (a n v : Nat) : (s.memWrite a n v).regs = s.regs := rfl
@[simp] theorem memWrite_srate (a n v : Nat) : (s.memWrite a n v).srate = s.srate := rfl
@[simp] theorem memWrite_outlen (a n v : Nat) : (s.memWrite a n v).outlen = s.outlen := rfl
@[simp] theorem memWrite_inFlight (a n v : Nat) : (s.memWrite a n v).inFlight = s.inFlight := rfl
@[simp] theorem memWrite_resetLevel (a n v : Nat) : (s.memWrite a n v).resetLevel = s.resetLevel := rfl
@[simp] theorem memWrite_dmem (a n v : Nat) : (s.memWrite a n v).dmem = s.dmem.store a (leBytes n v) := rfl
@[simp] theorem memWrite_coldDraw (a n v : Nat) : (s.memWrite a n v).coldDraw = s.coldDraw := rfl
@[simp] theorem memWrite_draws (a n v : Nat) : (s.memWrite a n v).draws = s.draws := rfl
@[simp] theorem memWrite_script (a n v : Nat) : (s.memWrite a n v).script = s.script := rfl
@[simp] theorem memWrite_turns (a n v : Nat) : (s.memWrite a n v).turns = s.turns := rfl
@[simp] theorem memWrite_rdata (a n v : Nat) : (s.memWrite a n v).rdata = s.rdata := rfl

/-! ### drawFootprints -/

@[simp] theorem drawFootprints_params (fs : List Footprint) : (s.drawFootprints fs).params = s.params := rfl
@[simp] theorem drawFootprints_ctrl (fs : List Footprint) : (s.drawFootprints fs).ctrl = s.ctrl := rfl
@[simp] theorem drawFootprints_status (fs : List Footprint) : (s.drawFootprints fs).status = s.status := rfl
@[simp] theorem drawFootprints_cmd (fs : List Footprint) : (s.drawFootprints fs).cmd = s.cmd := rfl
@[simp] theorem drawFootprints_metaValid (fs : List Footprint) : (s.drawFootprints fs).metaValid = s.metaValid := rfl
@[simp] theorem drawFootprints_regs (fs : List Footprint) : (s.drawFootprints fs).regs = s.regs := rfl
@[simp] theorem drawFootprints_srate (fs : List Footprint) : (s.drawFootprints fs).srate = s.srate := rfl
@[simp] theorem drawFootprints_outlen (fs : List Footprint) : (s.drawFootprints fs).outlen = s.outlen := rfl
@[simp] theorem drawFootprints_inFlight (fs : List Footprint) : (s.drawFootprints fs).inFlight = s.inFlight := rfl
@[simp] theorem drawFootprints_resetLevel (fs : List Footprint) :
    (s.drawFootprints fs).resetLevel =
      s.resetLevel := rfl
@[simp] theorem drawFootprints_dmem (fs : List Footprint) :
    (s.drawFootprints fs).dmem =
      (fs.map (fun f => f.clip s.params.dmemSize)).foldl (Memory.drawFootprint s.draws) s.dmem := rfl
@[simp] theorem drawFootprints_coldDraw (fs : List Footprint) : (s.drawFootprints fs).coldDraw = s.coldDraw := rfl
@[simp] theorem drawFootprints_draws (fs : List Footprint) : (s.drawFootprints fs).draws = s.draws + 1 := rfl
@[simp] theorem drawFootprints_script (fs : List Footprint) : (s.drawFootprints fs).script = s.script := rfl
@[simp] theorem drawFootprints_turns (fs : List Footprint) : (s.drawFootprints fs).turns = s.turns := rfl
@[simp] theorem drawFootprints_rdata (fs : List Footprint) : (s.drawFootprints fs).rdata = s.rdata := rfl

/-! ### errorComplete -/

@[simp] theorem errorComplete_params (e : ErrorKind) : (s.errorComplete e).params = s.params := rfl
@[simp] theorem errorComplete_ctrl (e : ErrorKind) : (s.errorComplete e).ctrl = s.ctrl := rfl
@[simp] theorem errorComplete_status (e : ErrorKind) :
    (s.errorComplete e).status =
      { s.status with errCode := errorCode e, err := true, done := true } := rfl
@[simp] theorem errorComplete_cmd (e : ErrorKind) : (s.errorComplete e).cmd = s.cmd := rfl
@[simp] theorem errorComplete_metaValid (e : ErrorKind) : (s.errorComplete e).metaValid = s.metaValid := rfl
@[simp] theorem errorComplete_regs (e : ErrorKind) : (s.errorComplete e).regs = s.regs := rfl
@[simp] theorem errorComplete_srate (e : ErrorKind) : (s.errorComplete e).srate = s.srate := rfl
@[simp] theorem errorComplete_outlen (e : ErrorKind) : (s.errorComplete e).outlen = s.outlen := rfl
@[simp] theorem errorComplete_inFlight (e : ErrorKind) : (s.errorComplete e).inFlight = none := rfl
@[simp] theorem errorComplete_resetLevel (e : ErrorKind) : (s.errorComplete e).resetLevel = s.resetLevel := rfl
@[simp] theorem errorComplete_dmem (e : ErrorKind) : (s.errorComplete e).dmem = s.dmem := rfl
@[simp] theorem errorComplete_coldDraw (e : ErrorKind) : (s.errorComplete e).coldDraw = s.coldDraw := rfl
@[simp] theorem errorComplete_draws (e : ErrorKind) : (s.errorComplete e).draws = s.draws := rfl
@[simp] theorem errorComplete_script (e : ErrorKind) : (s.errorComplete e).script = s.script := rfl
@[simp] theorem errorComplete_turns (e : ErrorKind) : (s.errorComplete e).turns = s.turns := rfl
@[simp] theorem errorComplete_rdata (e : ErrorKind) : (s.errorComplete e).rdata = s.rdata := rfl

/-! ### successComplete -/

@[simp] theorem successComplete_params : (s.successComplete).params = s.params := rfl
@[simp] theorem successComplete_ctrl : (s.successComplete).ctrl = s.ctrl := rfl
@[simp] theorem successComplete_status : (s.successComplete).status = { s.status with done := true } := rfl
@[simp] theorem successComplete_cmd : (s.successComplete).cmd = s.cmd := rfl
@[simp] theorem successComplete_metaValid : (s.successComplete).metaValid = s.metaValid := rfl
@[simp] theorem successComplete_regs : (s.successComplete).regs = s.regs := rfl
@[simp] theorem successComplete_srate : (s.successComplete).srate = s.srate := rfl
@[simp] theorem successComplete_outlen : (s.successComplete).outlen = s.outlen := rfl
@[simp] theorem successComplete_inFlight : (s.successComplete).inFlight = none := rfl
@[simp] theorem successComplete_resetLevel : (s.successComplete).resetLevel = s.resetLevel := rfl
@[simp] theorem successComplete_dmem : (s.successComplete).dmem = s.dmem := rfl
@[simp] theorem successComplete_coldDraw : (s.successComplete).coldDraw = s.coldDraw := rfl
@[simp] theorem successComplete_draws : (s.successComplete).draws = s.draws := rfl
@[simp] theorem successComplete_script : (s.successComplete).script = s.script := rfl
@[simp] theorem successComplete_turns : (s.successComplete).turns = s.turns := rfl
@[simp] theorem successComplete_rdata : (s.successComplete).rdata = s.rdata := rfl

/-! ### setShape -/

@[simp] theorem setShape_params (nb nf : Nat) : (s.setShape nb nf).params = s.params := rfl
@[simp] theorem setShape_ctrl (nb nf : Nat) : (s.setShape nb nf).ctrl = s.ctrl := rfl
@[simp] theorem setShape_status (nb nf : Nat) : (s.setShape nb nf).status = s.status := rfl
@[simp] theorem setShape_cmd (nb nf : Nat) : (s.setShape nb nf).cmd = s.cmd := rfl
@[simp] theorem setShape_metaValid (nb nf : Nat) : (s.setShape nb nf).metaValid = s.metaValid := rfl
@[simp] theorem setShape_regs (nb nf : Nat) :
    (s.setShape nb nf).regs =
      { s.regs with nbins := BitVec.ofNat 32 nb, nframes := BitVec.ofNat 32 nf } := rfl
@[simp] theorem setShape_srate (nb nf : Nat) : (s.setShape nb nf).srate = s.srate := rfl
@[simp] theorem setShape_outlen (nb nf : Nat) : (s.setShape nb nf).outlen = s.outlen := rfl
@[simp] theorem setShape_inFlight (nb nf : Nat) : (s.setShape nb nf).inFlight = s.inFlight := rfl
@[simp] theorem setShape_resetLevel (nb nf : Nat) : (s.setShape nb nf).resetLevel = s.resetLevel := rfl
@[simp] theorem setShape_dmem (nb nf : Nat) : (s.setShape nb nf).dmem = s.dmem := rfl
@[simp] theorem setShape_coldDraw (nb nf : Nat) : (s.setShape nb nf).coldDraw = s.coldDraw := rfl
@[simp] theorem setShape_draws (nb nf : Nat) : (s.setShape nb nf).draws = s.draws := rfl
@[simp] theorem setShape_script (nb nf : Nat) : (s.setShape nb nf).script = s.script := rfl
@[simp] theorem setShape_turns (nb nf : Nat) : (s.setShape nb nf).turns = s.turns := rfl
@[simp] theorem setShape_rdata (nb nf : Nat) : (s.setShape nb nf).rdata = s.rdata := rfl

/-! ### setRange -/

@[simp] theorem setRange_params (mn mx : F64) : (s.setRange mn mx).params = s.params := rfl
@[simp] theorem setRange_ctrl (mn mx : F64) : (s.setRange mn mx).ctrl = s.ctrl := rfl
@[simp] theorem setRange_status (mn mx : F64) : (s.setRange mn mx).status = s.status := rfl
@[simp] theorem setRange_cmd (mn mx : F64) : (s.setRange mn mx).cmd = s.cmd := rfl
@[simp] theorem setRange_metaValid (mn mx : F64) :
    (s.setRange mn mx).metaValid =
      { s.metaValid with vMin := true, vMax := true } := rfl
@[simp] theorem setRange_regs (mn mx : F64) :
    (s.setRange mn mx).regs =
      { s.regs with
      qminLo := mn.extractLsb' 0 32, qminHi := mn.extractLsb' 32 32
      qmaxLo := mx.extractLsb' 0 32, qmaxHi := mx.extractLsb' 32 32 } := rfl
@[simp] theorem setRange_srate (mn mx : F64) : (s.setRange mn mx).srate = s.srate := rfl
@[simp] theorem setRange_outlen (mn mx : F64) : (s.setRange mn mx).outlen = s.outlen := rfl
@[simp] theorem setRange_inFlight (mn mx : F64) : (s.setRange mn mx).inFlight = s.inFlight := rfl
@[simp] theorem setRange_resetLevel (mn mx : F64) : (s.setRange mn mx).resetLevel = s.resetLevel := rfl
@[simp] theorem setRange_dmem (mn mx : F64) : (s.setRange mn mx).dmem = s.dmem := rfl
@[simp] theorem setRange_coldDraw (mn mx : F64) : (s.setRange mn mx).coldDraw = s.coldDraw := rfl
@[simp] theorem setRange_draws (mn mx : F64) : (s.setRange mn mx).draws = s.draws := rfl
@[simp] theorem setRange_script (mn mx : F64) : (s.setRange mn mx).script = s.script := rfl
@[simp] theorem setRange_turns (mn mx : F64) : (s.setRange mn mx).turns = s.turns := rfl
@[simp] theorem setRange_rdata (mn mx : F64) : (s.setRange mn mx).rdata = s.rdata := rfl

/-! ### setOutlen -/

@[simp] theorem setOutlen_params (n : Nat) : (s.setOutlen n).params = s.params := rfl
@[simp] theorem setOutlen_ctrl (n : Nat) : (s.setOutlen n).ctrl = s.ctrl := rfl
@[simp] theorem setOutlen_status (n : Nat) : (s.setOutlen n).status = s.status := rfl
@[simp] theorem setOutlen_cmd (n : Nat) : (s.setOutlen n).cmd = s.cmd := rfl
@[simp] theorem setOutlen_metaValid (n : Nat) : (s.setOutlen n).metaValid = s.metaValid := rfl
@[simp] theorem setOutlen_regs (n : Nat) : (s.setOutlen n).regs = s.regs := rfl
@[simp] theorem setOutlen_srate (n : Nat) : (s.setOutlen n).srate = s.srate := rfl
@[simp] theorem setOutlen_outlen (n : Nat) : (s.setOutlen n).outlen = BitVec.ofNat 32 n := rfl
@[simp] theorem setOutlen_inFlight (n : Nat) : (s.setOutlen n).inFlight = s.inFlight := rfl
@[simp] theorem setOutlen_resetLevel (n : Nat) : (s.setOutlen n).resetLevel = s.resetLevel := rfl
@[simp] theorem setOutlen_dmem (n : Nat) : (s.setOutlen n).dmem = s.dmem := rfl
@[simp] theorem setOutlen_coldDraw (n : Nat) : (s.setOutlen n).coldDraw = s.coldDraw := rfl
@[simp] theorem setOutlen_draws (n : Nat) : (s.setOutlen n).draws = s.draws := rfl
@[simp] theorem setOutlen_script (n : Nat) : (s.setOutlen n).script = s.script := rfl
@[simp] theorem setOutlen_turns (n : Nat) : (s.setOutlen n).turns = s.turns := rfl
@[simp] theorem setOutlen_rdata (n : Nat) : (s.setOutlen n).rdata = s.rdata := rfl

/-! ### setBusyWr -/

@[simp] theorem setBusyWr_params : (s.setBusyWr).params = s.params := rfl
@[simp] theorem setBusyWr_ctrl : (s.setBusyWr).ctrl = s.ctrl := rfl
@[simp] theorem setBusyWr_status : (s.setBusyWr).status = { s.status with busyWr := true } := rfl
@[simp] theorem setBusyWr_cmd : (s.setBusyWr).cmd = s.cmd := rfl
@[simp] theorem setBusyWr_metaValid : (s.setBusyWr).metaValid = s.metaValid := rfl
@[simp] theorem setBusyWr_regs : (s.setBusyWr).regs = s.regs := rfl
@[simp] theorem setBusyWr_srate : (s.setBusyWr).srate = s.srate := rfl
@[simp] theorem setBusyWr_outlen : (s.setBusyWr).outlen = s.outlen := rfl
@[simp] theorem setBusyWr_inFlight : (s.setBusyWr).inFlight = s.inFlight := rfl
@[simp] theorem setBusyWr_resetLevel : (s.setBusyWr).resetLevel = s.resetLevel := rfl
@[simp] theorem setBusyWr_dmem : (s.setBusyWr).dmem = s.dmem := rfl
@[simp] theorem setBusyWr_coldDraw : (s.setBusyWr).coldDraw = s.coldDraw := rfl
@[simp] theorem setBusyWr_draws : (s.setBusyWr).draws = s.draws := rfl
@[simp] theorem setBusyWr_script : (s.setBusyWr).script = s.script := rfl
@[simp] theorem setBusyWr_turns : (s.setBusyWr).turns = s.turns := rfl
@[simp] theorem setBusyWr_rdata : (s.setBusyWr).rdata = s.rdata := rfl

/-! ### statusWrite -/

@[simp] theorem statusWrite_params (v : Word) : (s.statusWrite v).params = s.params := rfl
@[simp] theorem statusWrite_ctrl (v : Word) : (s.statusWrite v).ctrl = s.ctrl := rfl
@[simp] theorem statusWrite_status (v : Word) :
    (s.statusWrite v).status =
      { s.status with
      done := s.status.done && !v.getLsbD 1, err := s.status.err && !v.getLsbD 2
      busyWr := s.status.busyWr && !v.getLsbD 3 } := rfl
@[simp] theorem statusWrite_cmd (v : Word) : (s.statusWrite v).cmd = s.cmd := rfl
@[simp] theorem statusWrite_metaValid (v : Word) : (s.statusWrite v).metaValid = s.metaValid := rfl
@[simp] theorem statusWrite_regs (v : Word) : (s.statusWrite v).regs = s.regs := rfl
@[simp] theorem statusWrite_srate (v : Word) : (s.statusWrite v).srate = s.srate := rfl
@[simp] theorem statusWrite_outlen (v : Word) : (s.statusWrite v).outlen = s.outlen := rfl
@[simp] theorem statusWrite_inFlight (v : Word) : (s.statusWrite v).inFlight = s.inFlight := rfl
@[simp] theorem statusWrite_resetLevel (v : Word) : (s.statusWrite v).resetLevel = s.resetLevel := rfl
@[simp] theorem statusWrite_dmem (v : Word) : (s.statusWrite v).dmem = s.dmem := rfl
@[simp] theorem statusWrite_coldDraw (v : Word) : (s.statusWrite v).coldDraw = s.coldDraw := rfl
@[simp] theorem statusWrite_draws (v : Word) : (s.statusWrite v).draws = s.draws := rfl
@[simp] theorem statusWrite_script (v : Word) : (s.statusWrite v).script = s.script := rfl
@[simp] theorem statusWrite_turns (v : Word) : (s.statusWrite v).turns = s.turns := rfl
@[simp] theorem statusWrite_rdata (v : Word) : (s.statusWrite v).rdata = s.rdata := rfl

/-! ### accept -/

@[simp] theorem accept_params (c : Word) : (s.accept c).params = s.params := rfl
@[simp] theorem accept_ctrl (c : Word) : (s.accept c).ctrl = s.ctrl := rfl
@[simp] theorem accept_status (c : Word) :
    (s.accept c).status =
      { s.status with lastOp := opField c, done := false, err := false, errCode := 0 } := rfl
@[simp] theorem accept_cmd (c : Word) : (s.accept c).cmd = c := rfl
@[simp] theorem accept_metaValid (c : Word) : (s.accept c).metaValid = s.metaValid := rfl
@[simp] theorem accept_regs (c : Word) : (s.accept c).regs = s.regs := rfl
@[simp] theorem accept_srate (c : Word) : (s.accept c).srate = s.srate := rfl
@[simp] theorem accept_outlen (c : Word) : (s.accept c).outlen = s.outlen := rfl
@[simp] theorem accept_inFlight (c : Word) :
    (s.accept c).inFlight =
      some { op := decode c, snap := s.snapshot, raced := false } := rfl
@[simp] theorem accept_resetLevel (c : Word) : (s.accept c).resetLevel = s.resetLevel := rfl
@[simp] theorem accept_dmem (c : Word) : (s.accept c).dmem = s.dmem := rfl
@[simp] theorem accept_coldDraw (c : Word) : (s.accept c).coldDraw = s.coldDraw := rfl
@[simp] theorem accept_draws (c : Word) : (s.accept c).draws = s.draws := rfl
@[simp] theorem accept_script (c : Word) : (s.accept c).script = s.script := rfl
@[simp] theorem accept_turns (c : Word) : (s.accept c).turns = s.turns := rfl
@[simp] theorem accept_rdata (c : Word) : (s.accept c).rdata = s.rdata := rfl

/-! ### resetRegs -/

@[simp] theorem resetRegs_params : (s.resetRegs).params = s.params := rfl
@[simp] theorem resetRegs_ctrl : (s.resetRegs).ctrl = CtrlReg.reset := rfl
@[simp] theorem resetRegs_status : (s.resetRegs).status = StatusReg.reset := rfl
@[simp] theorem resetRegs_cmd : (s.resetRegs).cmd = 0 := rfl
@[simp] theorem resetRegs_metaValid : (s.resetRegs).metaValid = MetaValid.reset := rfl
@[simp] theorem resetRegs_regs : (s.resetRegs).regs = ParamRegs.reset := rfl
@[simp] theorem resetRegs_srate : (s.resetRegs).srate = 0 := rfl
@[simp] theorem resetRegs_outlen : (s.resetRegs).outlen = 0 := rfl
@[simp] theorem resetRegs_inFlight : (s.resetRegs).inFlight = none := rfl
@[simp] theorem resetRegs_resetLevel : (s.resetRegs).resetLevel = s.resetLevel := rfl
@[simp] theorem resetRegs_dmem : (s.resetRegs).dmem = s.dmem := rfl
@[simp] theorem resetRegs_coldDraw : (s.resetRegs).coldDraw = s.coldDraw := rfl
@[simp] theorem resetRegs_draws : (s.resetRegs).draws = s.draws := rfl
@[simp] theorem resetRegs_script : (s.resetRegs).script = s.script := rfl
@[simp] theorem resetRegs_turns : (s.resetRegs).turns = s.turns := rfl
@[simp] theorem resetRegs_rdata : (s.resetRegs).rdata = s.rdata := rfl

/-! ### hardReset -/

@[simp] theorem hardReset_params : (s.hardReset).params = s.params := rfl
@[simp] theorem hardReset_ctrl : (s.hardReset).ctrl = CtrlReg.reset := rfl
@[simp] theorem hardReset_status : (s.hardReset).status = StatusReg.reset := rfl
@[simp] theorem hardReset_cmd : (s.hardReset).cmd = 0 := rfl
@[simp] theorem hardReset_metaValid : (s.hardReset).metaValid = MetaValid.reset := rfl
@[simp] theorem hardReset_regs : (s.hardReset).regs = ParamRegs.reset := rfl
@[simp] theorem hardReset_srate : (s.hardReset).srate = 0 := rfl
@[simp] theorem hardReset_outlen : (s.hardReset).outlen = 0 := rfl
@[simp] theorem hardReset_inFlight : (s.hardReset).inFlight = none := rfl
@[simp] theorem hardReset_resetLevel : (s.hardReset).resetLevel = false := rfl
@[simp] theorem hardReset_dmem : (s.hardReset).dmem = [] := rfl
@[simp] theorem hardReset_coldDraw : (s.hardReset).coldDraw = s.draws := rfl
@[simp] theorem hardReset_draws : (s.hardReset).draws = s.draws + 1 := rfl
@[simp] theorem hardReset_script : (s.hardReset).script = s.script := rfl
@[simp] theorem hardReset_turns : (s.hardReset).turns = s.turns := rfl
@[simp] theorem hardReset_rdata : (s.hardReset).rdata = s.rdata := rfl

/-! ### readInReset -/

@[simp] theorem readInReset_params : (s.readInReset).params = s.params := rfl
@[simp] theorem readInReset_ctrl : (s.readInReset).ctrl = s.ctrl := rfl
@[simp] theorem readInReset_status : (s.readInReset).status = s.status := rfl
@[simp] theorem readInReset_cmd : (s.readInReset).cmd = s.cmd := rfl
@[simp] theorem readInReset_metaValid : (s.readInReset).metaValid = s.metaValid := rfl
@[simp] theorem readInReset_regs : (s.readInReset).regs = s.regs := rfl
@[simp] theorem readInReset_srate : (s.readInReset).srate = s.srate := rfl
@[simp] theorem readInReset_outlen : (s.readInReset).outlen = s.outlen := rfl
@[simp] theorem readInReset_inFlight : (s.readInReset).inFlight = s.inFlight := rfl
@[simp] theorem readInReset_resetLevel : (s.readInReset).resetLevel = s.resetLevel := rfl
@[simp] theorem readInReset_dmem : (s.readInReset).dmem = s.dmem := rfl
@[simp] theorem readInReset_coldDraw : (s.readInReset).coldDraw = s.coldDraw := rfl
@[simp] theorem readInReset_draws : (s.readInReset).draws = s.draws + 1 := rfl
@[simp] theorem readInReset_script : (s.readInReset).script = s.script := rfl
@[simp] theorem readInReset_turns : (s.readInReset).turns = s.turns := rfl
@[simp] theorem readInReset_rdata : (s.readInReset).rdata = Config.drawRead s.draws := rfl

/-! ### Derived reads that no STATUS or register update changes -/

@[simp] theorem byteAt_errorComplete (e : ErrorKind) (a : Nat) : (s.errorComplete e).byteAt a = s.byteAt a := rfl
@[simp] theorem byteAt_successComplete (a : Nat) : s.successComplete.byteAt a = s.byteAt a := rfl
@[simp] theorem byteAt_setShape (nb nf a : Nat) : (s.setShape nb nf).byteAt a = s.byteAt a := rfl
@[simp] theorem byteAt_setRange (mn mx : F64) (a : Nat) : (s.setRange mn mx).byteAt a = s.byteAt a := rfl
@[simp] theorem byteAt_setOutlen (n a : Nat) : (s.setOutlen n).byteAt a = s.byteAt a := rfl
@[simp] theorem byteAt_setBusyWr (a : Nat) : s.setBusyWr.byteAt a = s.byteAt a := rfl
@[simp] theorem byteAt_statusWrite (v : Word) (a : Nat) : (s.statusWrite v).byteAt a = s.byteAt a := rfl
@[simp] theorem byteAt_accept (c : Word) (a : Nat) : (s.accept c).byteAt a = s.byteAt a := rfl
@[simp] theorem byteAt_resetRegs (a : Nat) : s.resetRegs.byteAt a = s.byteAt a := rfl

end Sys2Proof.Machine
end

