-- ==== Sys2Proof/Laws/Elements.lean ====
section
/-! SUPPORT. Reading back what a command writes: the element at index j of a stored array, and every byte outside it. -/
namespace Sys2Proof.Machine

variable (s : State)

/-- Only DMEM and the draw of the last hardware reset decide what a byte reads as. -/
theorem byteAt_congr {s t : State} (hm : t.dmem = s.dmem) (hc : t.coldDraw = s.coldDraw) (a : Nat) :
    t.byteAt a = s.byteAt a := by
  simp [State.byteAt, State.unwrittenByte, hm, hc]

theorem byteAt_storeBytes (base : Nat) (bs : List Byte) (a : Nat) :
    (s.storeBytes base bs).byteAt a =
      if base ≤ a ∧ a < base + bs.length then bs.getD (a - base) 0 else s.byteAt a := by
  simp only [State.byteAt, storeBytes_dmem, Memory.get?_store]
  by_cases h : base ≤ a ∧ a < base + bs.length
  · have h1 : a - base < bs.length := by omega
    simp [h, h1]
  · simp only [if_neg h, State.unwrittenByte, storeBytes_coldDraw]

/-- A byte outside a stored block reads as before. -/
theorem byteAt_storeBytes_outside {base : Nat} {bs : List Byte} {a : Nat}
    (h : a < base ∨ base + bs.length ≤ a) : (s.storeBytes base bs).byteAt a = s.byteAt a := by
  rw [byteAt_storeBytes, if_neg (by omega)]

theorem bytesAt_storeBytes {base o n : Nat} {bs : List Byte} (h : o + n ≤ bs.length) :
    (s.storeBytes base bs).bytesAt (base + o) n = (bs.drop o).take n := by
  apply List.ext_getElem
  · simp [State.bytesAt]; omega
  · intro i h1 h2
    have hi : i < n := by simpa [State.bytesAt] using h1
    have : base + o + i - base = o + i := by omega
    simp only [State.bytesAt, List.getElem_map, List.getElem_range, byteAt_storeBytes, this,
      List.getElem_take, List.getElem_drop]
    rw [if_pos (by omega), List.getD_eq_getElem _ _ (by omega)]

theorem bytesAt_storeBytes_outside {base a n : Nat} {bs : List Byte}
    (h : a + n ≤ base ∨ base + bs.length ≤ a) : (s.storeBytes base bs).bytesAt a n = s.bytesAt a n := by
  apply List.map_congr_left
  intro i hi
  have := List.mem_range.mp hi
  exact byteAt_storeBytes_outside s (by omega)

/-- The slice of a concatenation of blocks of one length. -/
theorem slice_flatMap {α : Type} (f : α → List Byte) (w : Nat) (hw : ∀ x, (f x).length = w) (xs : List α) (j : Nat)
    (hj : j < xs.length) : ((xs.flatMap f).drop (w * j)).take w = f xs[j] := by
  induction xs generalizing j with
  | nil => simp at hj
  | cons x xs ih =>
    cases j with
    | zero => simp [List.flatMap_cons, ← hw x]
    | succ j =>
      have hj' : j < xs.length := by simpa using hj
      have : w * (j + 1) = (f x).length + w * j := by rw [hw]; ring
      rw [List.flatMap_cons, this, List.drop_append, List.getElem_cons_succ]
      rw [List.drop_eq_nil_of_le (by omega), List.nil_append, Nat.add_sub_cancel_left]
      exact ih j hj'

theorem length_flatMap_const {α : Type} (f : α → List Byte) (w : Nat) (hw : ∀ x, (f x).length = w) (xs : List α) :
    (xs.flatMap f).length = w * xs.length := by
  induction xs with
  | nil => simp
  | cons x xs ih => simp [List.flatMap_cons, hw, ih]; ring

@[simp] theorem length_f64Bytes (v : F64) : (f64Bytes v).length = 8 := length_leBytes _ _

@[simp] theorem length_cplxBytes (z : Cplx) : (cplxBytes z).length = 16 := by simp [cplxBytes]

@[simp] theorem length_flatMap_f64Bytes (vs : List F64) : (vs.flatMap f64Bytes).length = 8 * vs.length :=
  length_flatMap_const _ 8 length_f64Bytes vs

@[simp] theorem length_flatMap_cplxBytes (zs : List Cplx) : (zs.flatMap cplxBytes).length = 16 * zs.length :=
  length_flatMap_const _ 16 length_cplxBytes zs

theorem ofNat_leNat_leBytes8 (x : BitVec 64) : BitVec.ofNat 64 (leNat (leBytes 8 x.toNat)) = x := by
  rw [leNat_leBytes, Nat.mod_eq_of_lt (by simpa using x.isLt), BitVec.ofNat_toNat, BitVec.setWidth_eq]

/-- The read of eight bytes depends on those bytes alone. -/
theorem readF64_congr {s t : State} {a b : Nat} (h : t.bytesAt a 8 = s.bytesAt b 8) : t.readF64 a = s.readF64 b := by
  rw [State.readF64, State.readF64, State.memRead, State.memRead, h]

/-- Element j of a stored real array reads back as the canonical form of what was written. -/
theorem readF64_writeF64s (base : Nat) (vs : List F64) (j : Nat) (hj : j < vs.length) :
    (s.writeF64s base vs).readF64 (base + 8 * j) = canon vs[j] := by
  rw [State.readF64, State.memRead, State.writeF64s, bytesAt_storeBytes _ (by simp; omega),
    slice_flatMap f64Bytes 8 length_f64Bytes vs j hj, f64Bytes, ofNat_leNat_leBytes8]

/-- Element j of a stored complex array: its real part. -/
theorem readF64_writeCs_re (base : Nat) (zs : List Cplx) (j : Nat) (hj : j < zs.length) :
    (s.writeCs base zs).readF64 (base + 16 * j) = canon zs[j].re := by
  rw [State.readF64, State.memRead, State.writeCs, bytesAt_storeBytes _ (by simp; omega)]
  have h := slice_flatMap cplxBytes 16 length_cplxBytes zs j hj
  have h8 : ((zs.flatMap cplxBytes).drop (16 * j)).take 8 = f64Bytes zs[j].re := by
    have := congrArg (List.take 8) h
    simpa [List.take_take, cplxBytes, List.take_append] using this
  rw [h8, f64Bytes, ofNat_leNat_leBytes8]

/-- Element j of a stored complex array: its imaginary part. -/
theorem readF64_writeCs_im (base : Nat) (zs : List Cplx) (j : Nat) (hj : j < zs.length) :
    (s.writeCs base zs).readF64 (base + 16 * j + 8) = canon zs[j].im := by
  rw [State.readF64, State.memRead, State.writeCs, Nat.add_assoc, bytesAt_storeBytes _ (by simp; omega)]
  have h := slice_flatMap cplxBytes 16 length_cplxBytes zs j hj
  have h8 : ((zs.flatMap cplxBytes).drop (16 * j + 8)).take 8 = f64Bytes zs[j].im := by
    have := congrArg (List.drop 8) h
    rw [List.drop_take, List.drop_drop] at this
    simpa [cplxBytes, List.drop_append] using this
  rw [h8, f64Bytes, ofNat_leNat_leBytes8]

/-- Element j of a stored complex array. -/
theorem readC_writeCs (base : Nat) (zs : List Cplx) (j : Nat) (hj : j < zs.length) :
    (s.writeCs base zs).readC (base + 16 * j) = ⟨canon zs[j].re, canon zs[j].im⟩ := by
  rw [State.readC, readF64_writeCs_re _ _ _ _ hj, readF64_writeCs_im _ _ _ _ hj]

/-- Element j of a stored byte array. -/
theorem byteAt_writeU8s (base : Nat) (qs : List Byte) (j : Nat) (hj : j < qs.length) :
    (s.writeU8s base qs).byteAt (base + j) = qs[j] := by
  rw [State.writeU8s, byteAt_storeBytes, if_pos (by omega), Nat.add_sub_cancel_left,
    List.getD_eq_getElem _ _ hj]

theorem byteAt_writeF64s_outside {base : Nat} {vs : List F64} {a : Nat}
    (h : a < base ∨ base + 8 * vs.length ≤ a) : (s.writeF64s base vs).byteAt a = s.byteAt a :=
  byteAt_storeBytes_outside s (by rwa [length_flatMap_f64Bytes])

theorem byteAt_writeCs_outside {base : Nat} {zs : List Cplx} {a : Nat}
    (h : a < base ∨ base + 16 * zs.length ≤ a) : (s.writeCs base zs).byteAt a = s.byteAt a :=
  byteAt_storeBytes_outside s (by rwa [length_flatMap_cplxBytes])

theorem byteAt_writeU8s_outside {base : Nat} {qs : List Byte} {a : Nat}
    (h : a < base ∨ base + qs.length ≤ a) : (s.writeU8s base qs).byteAt a = s.byteAt a :=
  byteAt_storeBytes_outside s h

/-- A read outside a stored real array gives what it gave before. -/
theorem readF64_writeF64s_outside {base : Nat} {vs : List F64} {a : Nat}
    (h : a + 8 ≤ base ∨ base + 8 * vs.length ≤ a) : (s.writeF64s base vs).readF64 a = s.readF64 a :=
  readF64_congr (bytesAt_storeBytes_outside s (by rwa [length_flatMap_f64Bytes]))

/-- Drawing footprints: the fresh draw inside their existing part, the old byte outside. -/
theorem byteAt_drawFootprints (fs : List Footprint) (a : Nat) :
    (s.drawFootprints fs).byteAt a =
      if anyHas fs a ∧ a < s.params.dmemSize then Config.draw s.draws a else s.byteAt a := by
  have hclip : anyHas (fs.map (fun f => f.clip s.params.dmemSize)) a =
      (anyHas fs a && decide (a < s.params.dmemSize)) := by
    induction fs with
    | nil => simp [anyHas]
    | cons f fs ih =>
      simp only [anyHas, List.map_cons, List.any_cons] at ih ⊢
      rw [ih, Footprint.has_clip, Bool.and_or_distrib_right]
  simp only [State.byteAt, drawFootprints_dmem, Memory.get?_drawAll, hclip, State.unwrittenByte,
    drawFootprints_coldDraw]
  by_cases h : anyHas fs a = true ∧ a < s.params.dmemSize
  · simp [h]
  · rw [if_neg h, if_neg (by simpa using h)]

end Sys2Proof.Machine
end

