-- ==== Sys2Proof/Laws/Transforms.lean ====
section
/-! SUPPORT. The lengths of the lists the commands compute, the recursion of the transform, and powers of two. -/
namespace Sys2Proof.Machine

/-! ### Powers of two (`00_scope.md` R18) -/

/-- `ispow2(n)` holds exactly when n = 2^j for some j. -/
theorem isPow2_iff (n : Nat) : isPow2 n = true ↔ ∃ j, n = 2 ^ j := by
  simp only [isPow2, beq_iff_eq]
  constructor
  · intro h; exact ⟨_, h.symm⟩
  · rintro ⟨j, rfl⟩; rw [Nat.log2_two_pow]

/-! ### Even and odd halves -/

theorem length_evens_odds {α : Type} (xs : List α) :
    (evens xs).length = (xs.length + 1) / 2 ∧ (odds xs).length = xs.length / 2 := by
  induction xs using evens.induct with
  | case1 => simp [evens, odds]
  | case2 x => simp [evens, odds]
  | case3 x y xs ih =>
    simp only [evens, odds, List.length_cons]
    omega

/-- Element j of the even half is element 2j. -/
theorem getElem?_evens {α : Type} (xs : List α) (j : Nat) : (evens xs)[j]? = xs[2 * j]? := by
  induction xs using evens.induct generalizing j with
  | case1 => simp [evens]
  | case2 x => cases j <;> simp [evens]
  | case3 x y xs ih =>
    cases j with
    | zero => simp [evens]
    | succ j => simp [evens, ih, Nat.mul_succ]

/-- Element j of the odd half is element 2j + 1. -/
theorem getElem?_odds {α : Type} (xs : List α) (j : Nat) : (odds xs)[j]? = xs[2 * j + 1]? := by
  induction xs using evens.induct generalizing j with
  | case1 => simp [odds]
  | case2 x => simp [odds]
  | case3 x y xs ih =>
    cases j with
    | zero => simp [odds]
    | succ j => simp [odds, ih, Nat.mul_succ]

/-! ### Lengths -/

@[simp] theorem length_twiddled (m : Nat) (os : List Cplx) : (twiddled m os).length = os.length := by
  simp [twiddled]

theorem length_butterfly (es ts : List Cplx) (h : es.length = ts.length) :
    (butterfly es ts).length = 2 * es.length := by
  simp [butterfly, h]; omega

theorem length_fftl (j : Nat) (xs : List Cplx) (h : xs.length = 2 ^ j) : (fftl j xs).length = 2 ^ j := by
  induction j generalizing xs with
  | zero => simpa [fftl] using h
  | succ j ih =>
    have hp : 2 ^ (j + 1) = 2 * 2 ^ j := pow_succ' 2 j
    have hl := length_evens_odds xs
    have he : (evens xs).length = 2 ^ j := by omega
    have ho : (odds xs).length = 2 ^ j := by omega
    rw [fftl, length_butterfly _ _ (by rw [length_twiddled, ih _ he, ih _ ho]), ih _ he, hp]

theorem FFTL_eq_fftl {j : Nat} {xs : List Cplx} (h : xs.length = 2 ^ j) : FFTL xs = fftl j xs := by
  rw [FFTL, h, Nat.log2_two_pow]

/-- The transform keeps the length of a list whose length is a power of two. -/
theorem length_FFTL {xs : List Cplx} (h : ∃ j, xs.length = 2 ^ j) : (FFTL xs).length = xs.length := by
  obtain ⟨j, h⟩ := h
  rw [FFTL_eq_fftl h, length_fftl j xs h, h]

theorem length_IFFTL {xs : List Cplx} (h : ∃ j, xs.length = 2 ^ j) : (IFFTL xs).length = xs.length := by
  rw [IFFTL, List.length_map, length_FFTL (by simpa using h), List.length_map]

@[simp] theorem length_gather (s : State) (src size stride : Nat) : (s.gather src size stride).length = size := by
  simp [State.gather]

@[simp] theorem length_frameAt (s : State) (src W start : Nat) : (s.frameAt src W start).length = W := by
  simp [State.frameAt]

@[simp] theorem length_stftColumns (s : State) (src W step nf : Nat) :
    (s.stftColumns src W step nf).length = nf := by
  simp [State.stftColumns]

theorem length_binMajor (nb : Nat) (cols : List (List F64)) : (binMajor nb cols).length = nb * cols.length := by
  simp [binMajor, List.length_flatMap]

/-- Element [k][i] of a bin-major matrix of `nf` columns stands at index k·nf + i (`20_memory.md` R86). -/
theorem getElem?_binMajor {nb nf : Nat} {cols : List (List F64)} {k i : Nat} (hc : cols.length = nf) (hk : k < nb)
    (hi : i < nf) : (binMajor nb cols)[k * nf + i]? = cols[i]?.map (fun c => c.getD k 0) := by
  induction nb with
  | zero => omega
  | succ nb ih =>
    have e : binMajor (nb + 1) cols = binMajor nb cols ++ cols.map (fun c => c.getD nb 0) := by
      simp [binMajor, List.range_succ]
    have hl := length_binMajor nb cols
    rw [hc] at hl
    rw [e]
    rcases Nat.lt_or_ge k nb with h | h
    · rw [List.getElem?_append_left, ih h]
      have := Nat.mul_le_mul_right nf (show k + 1 ≤ nb by omega)
      rw [Nat.add_mul] at this
      omega
    · have hkn : k = nb := by omega
      subst hkn
      rw [List.getElem?_append_right (by omega), hl, Nat.add_sub_cancel_left, List.getElem?_map]

@[simp] theorem length_hannW (W : Nat) : (hannW W).length = W := by simp [hannW]

@[simp] theorem length_zp (c : List F64) (W : Nat) : (zp c W).length = W := by simp [zp]

@[simp] theorem length_logValues (s : State) (r : Snapshot) : (s.logValues r).length = r.elems := by
  simp [State.logValues, State.readF64s]

@[simp] theorem length_addAt (p : Nat) (xs acc : List F64) : (addAt p xs acc).length = acc.length := by
  fun_induction addAt <;> simp_all

theorem length_foldl_addAt (f : Nat → Nat) (g : Nat → List F64) (is : List Nat) (acc : List F64) :
    (is.foldl (fun a i => addAt (f i) (g i) a) acc).length = acc.length := by
  induction is generalizing acc with
  | nil => rfl
  | cons i is ih => rw [List.foldl_cons, ih, length_addAt]

@[simp] theorem length_energyAcc (r : Snapshot) : (energyAcc r).length = r.outLen.toNat := by
  rw [energyAcc, length_foldl_addAt, List.length_replicate]

@[simp] theorem length_signalAcc (s : State) (r : Snapshot) : (s.signalAcc r).length = r.outLen.toNat := by
  rw [State.signalAcc, length_foldl_addAt, List.length_replicate]

/-! ### The butterfly, bin by bin (`41_fft.md` R170) -/

theorem getElem?_twiddled (m : Nat) (os : List Cplx) (k : Nat) :
    (twiddled m os)[k]? = os[k]?.map (fun o => cmul o (twiddle k m)) := by
  simp [twiddled, List.getElem?_map, List.getElem?_zipIdx]
  cases os[k]? <;> rfl

/-- The lower half of the bins: `E[k] + O[k]·TWIDDLE(k, m)`. -/
theorem fftl_low {j k : Nat} {xs : List Cplx} (h : xs.length = 2 ^ (j + 1)) (hk : k < 2 ^ j) :
    (fftl (j + 1) xs)[k]? =
      (fftl j (evens xs))[k]?.bind (fun e => (fftl j (odds xs))[k]?.map
        (fun o => cadd e (cmul o (twiddle k (2 ^ (j + 1)))))) := by
  have hp : 2 ^ (j + 1) = 2 * 2 ^ j := pow_succ' 2 j
  have hl := length_evens_odds xs
  have he := length_fftl j (evens xs) (by omega)
  have ho := length_fftl j (odds xs) (by omega)
  have hE : (fftl j (evens xs))[k]? = some (fftl j (evens xs))[k] := List.getElem?_eq_getElem (by omega)
  have hO : (fftl j (odds xs))[k]? = some (fftl j (odds xs))[k] := List.getElem?_eq_getElem (by omega)
  rw [fftl, butterfly, List.getElem?_append_left (by simp; omega), List.getElem?_zipWith,
    getElem?_twiddled, hE, hO]
  rfl

/-- The upper half of the bins: `E[k] − O[k]·TWIDDLE(k, m)`. -/
theorem fftl_high {j k : Nat} {xs : List Cplx} (h : xs.length = 2 ^ (j + 1)) (hk : k < 2 ^ j) :
    (fftl (j + 1) xs)[k + 2 ^ j]? =
      (fftl j (evens xs))[k]?.bind (fun e => (fftl j (odds xs))[k]?.map
        (fun o => csub e (cmul o (twiddle k (2 ^ (j + 1)))))) := by
  have hp : 2 ^ (j + 1) = 2 * 2 ^ j := pow_succ' 2 j
  have hl := length_evens_odds xs
  have he := length_fftl j (evens xs) (by omega)
  have ho := length_fftl j (odds xs) (by omega)
  have hE : (fftl j (evens xs))[k]? = some (fftl j (evens xs))[k] := List.getElem?_eq_getElem (by omega)
  have hO : (fftl j (odds xs))[k]? = some (fftl j (odds xs))[k] := List.getElem?_eq_getElem (by omega)
  have hz : (List.zipWith cadd (fftl j (evens xs)) (twiddled (2 ^ (j + 1)) (fftl j (odds xs)))).length = 2 ^ j := by
    simp; omega
  have hsub : k + 2 ^ j - 2 ^ j = k := by omega
  rw [fftl, butterfly, List.getElem?_append_right (by omega), hz, hsub, List.getElem?_zipWith,
    getElem?_twiddled, hE, hO]
  rfl

end Sys2Proof.Machine
end

