-- ==== Sys2Proof/Laws/Commands.lean ====
section
/-! SUPPORT. What a command can do, said once: it always completes, in an error that changes STATUS alone or in a success
that stores blocks inside its write footprints and sets its result registers. -/
namespace Sys2Proof.Machine

/-! ### Checks -/

theorem firstError_eq_none {cs : List Check} : firstError cs = none ↔ ∀ c ∈ cs, c.1 = false := by
  induction cs with
  | nil => simp [firstError]
  | cons c cs ih =>
    obtain ⟨b, e⟩ := c
    cases b <;> simp [firstError, ih]

/-- The raised error is that of a failing check. -/
theorem firstError_mem {cs : List Check} {e : ErrorKind} (h : firstError cs = some e) : (true, e) ∈ cs := by
  induction cs with
  | nil => simp [firstError] at h
  | cons c cs ih =>
    obtain ⟨b, e'⟩ := c
    cases b
    · exact List.mem_cons_of_mem _ (ih (by simpa [firstError] using h))
    · simp only [firstError, if_true, Option.some.injEq] at h
      simp [h]

theorem boundsFail_eq_false {size : Nat} {fs : List Footprint} :
    boundsFail size fs = false ↔ ∀ f ∈ fs, f.inBounds size = true := by
  simp [boundsFail]

/-- The bounds check (`20_memory.md` R88). -/
theorem Footprint.inBounds_iff (f : Footprint) (size : Nat) :
    f.inBounds size = true ↔ f.len = 0 ∨ f.base + f.len ≤ size := by
  simp [Footprint.inBounds]

/-! ### Completion -/

/-- The error a command's checks decide in a state, QENC's data checks included (`60_exceptions.md` R280). -/
def commandError (i : Instr) (s : State) : Option ErrorKind :=
  match i with
  | .nop => none
  | .fft => firstError (fftChecks s.params s.operands)
  | .ifft => firstError (ifftChecks s.params s.operands)
  | .stft => firstError (stftChecks s.params s.operands)
  | .qenc =>
    (firstError (qencChecks s.params s.operands)).or (firstError (qencDataChecks (s.logValues s.operands)))
  | .qdec => firstError (qdecChecks s.params s.operands)
  | .istft => firstError (istftChecks s.params s.operands)
  | .zphase => firstError (zphaseChecks s.params s.operands)
  | .hann => firstError (hannChecks s.params s.operands)

/-- The success effects of a command (`45_control.md` R253). -/
def commandEffects (i : Instr) (s : State) : State :=
  match i with
  | .nop => s
  | .fft => s.writeCs s.operands.dst (FFTL (s.gather s.operands.src s.operands.size s.operands.stride))
  | .ifft => s.writeCs s.operands.dst (IFFTL (s.gather s.operands.src s.operands.size s.operands.stride))
  | .stft =>
    (s.writeF64s s.operands.dst
      (binMajor (binCount s.operands.wsize)
        (s.stftColumns s.operands.src s.operands.wsize s.operands.step.toNat s.operands.frames.toNat))).setShape
      (binCount s.operands.wsize) s.operands.frames.toNat
  | .qenc =>
    (s.writeU8s s.operands.dst
      ((s.logValues s.operands).map
        (quantize (fminList (s.logValues s.operands)) (fmaxList (s.logValues s.operands))))).setRange
      (fminList (s.logValues s.operands)) (fmaxList (s.logValues s.operands))
  | .qdec =>
    s.writeF64s s.operands.dst
      ((List.range s.operands.elems).map (fun j =>
        dequantize s.operands.qmin s.operands.qmax (s.readU8 (s.operands.src + j))))
  | .istft =>
    ((s.writeF64s s.operands.dst
        (List.zipWith normalize (s.signalAcc s.operands) (energyAcc s.operands))).writeF64s
      s.operands.scr (energyAcc s.operands)).setOutlen s.operands.outLen.toNat
  | .zphase =>
    s.writeCs s.operands.dst
      (zp ((List.range (binCount s.operands.wsize)).map (fun k => s.readF64 (s.operands.src + 8 * k)))
        s.operands.wsize)
  | .hann => s.writeF64s s.operands.dst (hannW s.operands.wsize)

/-- Every command completes: in the error its checks decide, or in its effects. -/
theorem exec_eq (i : Instr) (s : State) : exec i s = s.finish (commandError i s) (fun _ => commandEffects i s) := by
  cases i <;> simp only [exec, execNop, execFft, execIfft, execStft, execQenc, execQdec, execIstft, execZphase,
    execHann, commandError, commandEffects, State.finish, id]

theorem exec_error {i : Instr} {s : State} {e : ErrorKind} (h : commandError i s = some e) :
    exec i s = .next (s.errorComplete e) := by
  rw [exec_eq, h, State.finish]

theorem exec_success {i : Instr} {s : State} (h : commandError i s = none) :
    exec i s = .next (commandEffects i s).successComplete := by
  rw [exec_eq, h, State.finish]

/-- No command stops: each answers a next state, one of the two completions. -/
theorem exec_cases (i : Instr) (s : State) :
    (∃ e, commandError i s = some e ∧ exec i s = .next (s.errorComplete e)) ∨
      (commandError i s = none ∧ exec i s = .next (commandEffects i s).successComplete) := by
  cases h : commandError i s with
  | none => exact .inr ⟨rfl, exec_success h⟩
  | some e => exact .inl ⟨e, rfl, exec_error h⟩

/-! ### What the effects leave alone -/

theorem writeBlocks_frame (s : State) (base : Nat) (bs : List Byte) :
    s.storeBytes base bs = { s with dmem := s.dmem.store base bs } := rfl

/-- The state outside DMEM, the result registers and the two presence bits of QENC is no command's to change. -/
theorem commandEffects_frame (i : Instr) (s : State) :
    (commandEffects i s).params = s.params ∧ (commandEffects i s).ctrl = s.ctrl ∧
      (commandEffects i s).status = s.status ∧ (commandEffects i s).cmd = s.cmd ∧
      (commandEffects i s).srate = s.srate ∧ (commandEffects i s).inFlight = s.inFlight ∧
      (commandEffects i s).resetLevel = s.resetLevel ∧ (commandEffects i s).coldDraw = s.coldDraw ∧
      (commandEffects i s).draws = s.draws ∧ (commandEffects i s).script = s.script ∧
      (commandEffects i s).turns = s.turns ∧
      (commandEffects i s).rdata = s.rdata ∧ (commandEffects i s).metaValid.vSrate = s.metaValid.vSrate := by
  cases i <;> simp [commandEffects]

/-! ### What the effects store -/

theorem strided_span (r : Snapshot) (h : 0 < r.size) :
    r.strided.len = 16 * ((r.size - 1) * r.stride + 1) := by
  simp only [Snapshot.strided, span]
  have : ((r.size : Int) - 1) = ((r.size - 1 : Nat) : Int) := by omega
  rw [this]
  norm_cast

/-- A success of a command keeps DMEM canonical. -/
theorem commandEffects_wf (i : Instr) {s : State} (h : s.dmem.wf = true) :
    (commandEffects i s).dmem.wf = true := by
  cases i <;> simp only [commandEffects, writeCs_dmem, writeF64s_dmem, writeU8s_dmem, setShape_dmem, setRange_dmem,
    setOutlen_dmem] <;> first | exact h | exact Memory.wf_store h _ _ | exact Memory.wf_store (Memory.wf_store h _ _) _ _

/-- A success of a command has passed the bounds check on its write footprints. -/
theorem writes_inBounds {i : Instr} {s : State} (h : commandError i s = none) :
    ∀ f ∈ writeFootprints i s.operands, f.inBounds s.params.dmemSize = true := by
  have key : ∀ cs : List Check, firstError cs = none → boundsCheck s.params i s.operands ∈ cs →
      ∀ f ∈ writeFootprints i s.operands, f.inBounds s.params.dmemSize = true := by
    intro cs hc hm f hf
    exact boundsFail_eq_false.mp (firstError_eq_none.mp hc _ hm) f (List.mem_append_right _ hf)
  cases i
  case nop => simp [writeFootprints]
  case qenc =>
    have h' := (Option.or_eq_none_iff.mp h).1
    exact key _ h' (by simp [qencChecks])
  all_goals
    first
    | exact key _ h (by simp [fftChecks])
    | exact key _ h (by simp [ifftChecks])
    | exact key _ h (by simp [stftChecks])
    | exact key _ h (by simp [qdecChecks])
    | exact key _ h (by simp [istftChecks])
    | exact key _ h (by simp [zphaseChecks])
    | exact key _ h (by simp [hannChecks])

/-- A success of FFT or IFFT has a size that is a power of two. -/
theorem size_pow2 {p : Params} {n : Nat} (h : (sizeCheck p n).1 = false) : ∃ j, n = 2 ^ j := by
  have : isPow2 n = true := by
    simp only [sizeCheck, Bool.or_eq_false_iff, Bool.not_eq_false'] at h
    exact h.1
  exact (isPow2_iff n).mp this

/-- A success of a command keeps DMEM below DMEM_SIZE. -/
theorem commandEffects_below {i : Instr} {s : State} (h : s.dmem.below s.params.dmemSize)
    (he : commandError i s = none) : (commandEffects i s).dmem.below s.params.dmemSize := by
  have hb := writes_inBounds he
  have one : ∀ (m : Memory) (base : Nat) (bs : List Byte) (len : Int), m.below s.params.dmemSize →
      (span base len).inBounds s.params.dmemSize = true → (bs.length : Int) = max 0 len →
      (m.store base bs).below s.params.dmemSize := by
    intro m base bs len hm hi hl
    refine Memory.below_store hm ?_
    have := (Footprint.inBounds_iff _ _).mp hi
    simp only [span] at this
    omega
  cases i
  case nop => exact h
  case fft =>
    have hs : ∃ j, s.operands.size = 2 ^ j :=
      size_pow2 (firstError_eq_none.mp he (sizeCheck s.params s.operands.size) (by simp [fftChecks]))
    refine one _ _ _ _ h (hb _ List.mem_cons_self) ?_
    rw [length_flatMap_cplxBytes, length_FFTL (by simpa using hs), length_gather]
    omega
  case ifft =>
    have hs : ∃ j, s.operands.size = 2 ^ j :=
      size_pow2 (firstError_eq_none.mp he (sizeCheck s.params s.operands.size) (by simp [ifftChecks]))
    refine one _ _ _ _ h (hb _ List.mem_cons_self) ?_
    rw [length_flatMap_cplxBytes, length_IFFTL (by simpa using hs), length_gather]
    omega
  case stft =>
    refine one _ _ _ _ h (hb _ List.mem_cons_self) ?_
    rw [length_flatMap_f64Bytes, length_binMajor, length_stftColumns]
    have hstep : 0 < s.operands.step := by
      have := firstError_eq_none.mp he (stepCheck s.operands) (by simp [stftChecks])
      simpa [stepCheck] using this
    have hlen : s.operands.wsize ≤ s.operands.sigLen := by
      have := firstError_eq_none.mp he (decide (s.operands.sigLen < s.operands.wsize), .SignalTooShort)
        (by simp [stftChecks])
      simpa using this
    have hnf : 0 ≤ s.operands.frames := by
      rw [Snapshot.frames, if_pos hstep]
      have : 0 ≤ ((s.operands.sigLen : Int) - (s.operands.wsize : Int)) / s.operands.step :=
        Int.ediv_nonneg (by omega) (by omega)
      omega
    obtain ⟨n, hn⟩ := Int.eq_ofNat_of_zero_le hnf
    rw [hn]
    push_cast
    have : 0 ≤ 8 * ((binCount s.operands.wsize : Int) * (n : Int)) := by positivity
    rw [max_eq_right this]
    simp
  case qenc =>
    refine one _ _ _ _ h (hb _ List.mem_cons_self) ?_
    simp
  case qdec =>
    refine one _ _ _ _ h (hb _ List.mem_cons_self) ?_
    rw [length_flatMap_f64Bytes, List.length_map, List.length_range]
    omega
  case istft =>
    refine one _ _ _ _ (one _ _ _ _ h (hb _ List.mem_cons_self) ?_)
      (hb _ (List.mem_cons_of_mem _ List.mem_cons_self)) ?_
    · rw [length_flatMap_f64Bytes, List.length_zipWith, length_signalAcc, length_energyAcc]
      omega
    · rw [length_flatMap_f64Bytes, length_energyAcc]
      omega
  case zphase =>
    refine one _ _ _ _ h (hb _ List.mem_cons_self) ?_
    rw [length_flatMap_cplxBytes, length_zp]
    omega
  case hann =>
    refine one _ _ _ _ h (hb _ List.mem_cons_self) ?_
    rw [length_flatMap_f64Bytes, length_hannW]
    omega

end Sys2Proof.Machine
end

