-- ==== Sys2Proof/Laws/Checks.lean ====
section
/-! SUPPORT. The checks of the commands in plain integers: when each fails, and how an ordered list of them decides. -/
namespace Sys2Proof.Machine

/-! ### Each check -/

theorem sizeCheck_iff (p : Params) (n : Nat) :
    (sizeCheck p n).1 = true ↔ (¬ ∃ j, n = 2 ^ j) ∨ p.nmax < n := by
  rw [sizeCheck, Bool.or_eq_true, Bool.not_eq_true', ← Bool.not_eq_true, isPow2_iff, decide_eq_true_eq]

theorem stepCheck_iff (r : Snapshot) : (stepCheck r).1 = true ↔ r.wsize ≤ r.overlap := by
  rw [stepCheck, Snapshot.step, decide_eq_true_iff]
  omega

theorem misaligned_iff (a : Nat) : misaligned a = true ↔ a % 8 ≠ 0 := by simp [misaligned]

theorem alignCheck_iff (bases : List Nat) : (alignCheck bases).1 = true ↔ ∃ a ∈ bases, a % 8 ≠ 0 := by
  simp [alignCheck, misaligned_iff]

theorem inBounds_iff_fits (f : Footprint) (size : Nat) : f.inBounds size = true ↔ fits size f.base f.len := by
  rw [Footprint.inBounds_iff]

theorem meets_iff (f g : Footprint) : f.meets g = true ↔ ¬ apart f.base f.len g.base g.len := by
  simp only [Footprint.meets, Bool.and_eq_true, decide_eq_true_eq]
  omega

theorem apart_comm {a n b m : Nat} : apart a n b m ↔ apart b m a n := by
  constructor <;> intro h <;> omega

theorem boundsCheck_iff (p : Params) (i : Instr) (r : Snapshot) :
    (boundsCheck p i r).1 = true ↔
      ∃ f ∈ readFootprints i r ++ writeFootprints i r, ¬ fits p.dmemSize f.base f.len := by
  rw [boundsCheck, ← Bool.not_eq_false, boundsFail_eq_false, not_forall]
  exact exists_congr fun f => by rw [← inBounds_iff_fits, Classical.not_imp]

/-- One written footprint against one read footprint. -/
theorem overlapFails_pair (f g : Footprint) :
    overlapFails [f] [g] = true ↔ ¬ apart f.base f.len g.base g.len := by
  simp only [overlapFails, List.any_cons, List.any_nil, Bool.or_false, anyPairMeets, meets_iff]
  rw [apart_comm]

/-- Two written footprints and one read footprint: any two of the three. -/
theorem overlapFails_triple (f g h : Footprint) :
    overlapFails [f] [g, h] = true ↔
      ¬ (apart f.base f.len g.base g.len ∧ apart f.base f.len h.base h.len ∧
        apart g.base g.len h.base h.len) := by
  simp only [overlapFails, List.any_cons, List.any_nil, Bool.or_false, anyPairMeets, Bool.or_eq_true, meets_iff]
  rw [apart_comm (a := g.base) (b := f.base), apart_comm (a := h.base) (b := f.base)]
  tauto

/-! ### An ordered list -/

theorem firstError_append (cs ds : List Check) :
    firstError (cs ++ ds) = (firstError cs).or (firstError ds) := by
  induction cs with
  | nil => simp [firstError]
  | cons c cs ih =>
    obtain ⟨b, e⟩ := c
    cases b <;> simp [firstError, ih]

/-- With no check left, the command succeeds. -/
theorem decides_nil {i : Instr} {s : State} (h : commandError i s = none) : decidesInOrder i s [] :=
  ⟨_, exec_success h, by simp [commandEffects_frame i s], by simp⟩

/-- The first check decides when it fails, and leaves the decision to the rest when it does not. -/
theorem decides_cons {i : Instr} {s : State} {c : Check} {cs : List Check} {p : Prop} {e : ErrorKind}
    {ps : List (Prop × ErrorKind)} (h : commandError i s = firstError (c :: cs)) (hb : c.1 = true ↔ p)
    (rest : ¬ p → commandError i s = firstError cs → decidesInOrder i s ps) (he : c.2 = e := by rfl) :
    decidesInOrder i s ((p, e) :: ps) := by
  obtain ⟨b, e'⟩ := c
  subst he
  refine ⟨fun hp => exec_error ?_, fun hp => rest hp ?_⟩
  · rw [h, firstError, if_pos (hb.mpr hp)]
  · rw [h, firstError, if_neg (fun hb' => hp (hb.mp hb'))]

end Sys2Proof.Machine
end

