-- ==== Sys2Proof/Laws/Rounding.lean ====
section
/-! SUPPORT. Rounding: a pattern is nearest to a real exactly when the real lies between the half-way points around it, the
rounding of a fraction is nearest, and a real between two reals that round alike rounds with them. -/
namespace Sys2Proof.Machine

/-! ### The values of the patterns -/

theorem bitsMag_norm {k m : Nat} (h : m ≤ 2 ^ 53) (hk : k = 0 ∨ 2 ^ 52 ≤ m) :
    bitsMag (k * 2 ^ 52 + m) = m * 2 ^ k := by
  rcases Nat.lt_trichotomy m (2 ^ 52) with hm | hm | hm
  · obtain rfl : k = 0 := by omega
    rw [bitsMag, if_pos (by omega)]
    omega
  · subst hm
    have h1 : (k * 2 ^ 52 + 2 ^ 52) / 2 ^ 52 = k + 1 := by omega
    have h2 : (k * 2 ^ 52 + 2 ^ 52) % 2 ^ 52 = 0 := by omega
    rw [bitsMag, h1, h2, if_neg (Nat.succ_ne_zero k), Nat.add_sub_cancel, Nat.add_zero]
  · rcases Nat.lt_or_ge m (2 ^ 53) with hm' | hm'
    · have h1 : (k * 2 ^ 52 + m) / 2 ^ 52 = k + 1 := by omega
      have h2 : (k * 2 ^ 52 + m) % 2 ^ 52 = m - 2 ^ 52 := by omega
      rw [bitsMag, h1, h2, if_neg (Nat.succ_ne_zero k), Nat.add_sub_cancel, Nat.add_sub_cancel' hm.le]
    · have hm2 : m = 2 ^ 53 := by omega
      have h1 : (k * 2 ^ 52 + m) / 2 ^ 52 = k + 2 := by omega
      have h2 : (k * 2 ^ 52 + m) % 2 ^ 52 = 0 := by omega
      rw [bitsMag, h1, h2, if_neg (by omega), show k + 2 - 1 = k + 1 by omega, pow_succ, hm2]
      ring

/-- Every pattern is `k·2^52 + m` with 53 significant bits in m. -/
theorem bits_split (b : Nat) : ∃ k m, b = k * 2 ^ 52 + m ∧ m < 2 ^ 53 ∧ (k = 0 ∨ 2 ^ 52 ≤ m) := by
  rcases Nat.eq_zero_or_pos (b / 2 ^ 52) with h | h
  · exact ⟨0, b, by omega, by omega, .inl rfl⟩
  · exact ⟨b / 2 ^ 52 - 1, 2 ^ 52 + b % 2 ^ 52, by omega, by omega, .inr (by omega)⟩

theorem bitsMag_succ (b : Nat) : bitsMag b < bitsMag (b + 1) := by
  obtain ⟨k, m, rfl, hm, hk⟩ := bits_split b
  rw [bitsMag_norm (by omega) hk, Nat.add_assoc, bitsMag_norm (by omega) (by omega)]
  exact Nat.mul_lt_mul_of_pos_right (Nat.lt_succ_self m) (by positivity)

theorem bitsMag_strictMono : StrictMono bitsMag := strictMono_nat_of_lt_succ bitsMag_succ

theorem bitsMag_mono {a b : Nat} (h : a ≤ b) : bitsMag a ≤ bitsMag b := bitsMag_strictMono.monotone h

theorem bitsMag_zero : bitsMag 0 = 0 := by simp [bitsMag]

theorem bitsMag_infBits : bitsMag infBits = 2 ^ 2098 := by
  have h := bitsMag_norm (k := 2046) (m := 2 ^ 52) (by omega) (.inr le_rfl)
  rw [show infBits = 2046 * 2 ^ 52 + 2 ^ 52 by rw [infBits]; omega, h, ← pow_add]

theorem bitsMag_maxBits : bitsMag (infBits - 1) = (2 ^ 53 - 1) * 2 ^ 2045 := by
  have h := bitsMag_norm (k := 2045) (m := 2 ^ 53 - 1) (by omega) (.inr (by omega))
  rw [← h]; rfl

theorem f64Mag_eq (v : F64) : f64Mag v = bitsMag (v.toNat % 2 ^ 63) := by
  have h1 : v.toNat % 2 ^ 63 / 2 ^ 52 = f64Exp v := by rw [f64Exp]; omega
  have h2 : v.toNat % 2 ^ 63 % 2 ^ 52 = f64Frac v := by rw [f64Frac]; omega
  rw [f64Mag, bitsMag, h1, h2]
  by_cases h : f64Exp v = 0
  · have : v.toNat % 2 ^ 63 = f64Frac v := by omega
    rw [if_pos h, this, if_pos (by simpa using h)]
  · rw [if_neg h, if_neg (by simpa using h)]

theorem isFin_iff (v : F64) : isFin v = true ↔ v.toNat % 2 ^ 63 < infBits := by
  rw [isFin, bne_iff_ne, infBits, f64Exp]; omega

theorem isInf_iff (v : F64) : isInf v = true ↔ v.toNat % 2 ^ 63 = infBits := by
  rw [isInf, Bool.and_eq_true, beq_iff_eq, beq_iff_eq, infBits, f64Exp, f64Frac]; omega

theorem f64Sign_iff (v : F64) : f64Sign v = true ↔ 2 ^ 63 ≤ v.toNat := by
  rw [f64Sign, BitVec.getLsbD, Nat.testBit_eq_decide_div_mod_eq, decide_eq_true_iff]
  have := v.isLt; omega

theorem toNat_mkF64 (neg : Bool) {b : Nat} (h : b < 2 ^ 63) :
    (mkF64 neg b).toNat = if neg then 2 ^ 63 + b else b := by
  rw [mkF64, BitVec.toNat_ofNat, Nat.mod_eq_of_lt]; split <;> omega

theorem f64Sign_mkF64 (neg : Bool) {b : Nat} (h : b < 2 ^ 63) : f64Sign (mkF64 neg b) = neg := by
  rw [Bool.eq_iff_iff, f64Sign_iff, toNat_mkF64 _ h]; cases neg
  · simpa using h
  · simp

theorem f64Mag_mkF64 (neg : Bool) {b : Nat} (h : b < 2 ^ 63) : f64Mag (mkF64 neg b) = bitsMag b := by
  rw [f64Mag_eq, toNat_mkF64 _ h]; congr 1; split <;> omega

theorem toNat_mod_mkF64 (neg : Bool) {b : Nat} (h : b < 2 ^ 63) : (mkF64 neg b).toNat % 2 ^ 63 = b := by
  rw [toNat_mkF64 _ h]; split <;> omega

/-! ### Nearest patterns -/

/-- `b` is the pattern nearest `y ≥ 0` units, ties to even, infinity from its half-way point on. -/
structure NearestBits (y : ℝ) (b : Nat) : Prop where
  le_inf : b ≤ infBits
  low : 0 < b → ((bitsMag (b - 1) + bitsMag b : Nat) : ℝ) ≤ 2 * y
  low_tie : 0 < b → ((bitsMag (b - 1) + bitsMag b : Nat) : ℝ) = 2 * y → b % 2 = 0
  high : b < infBits → 2 * y ≤ (midUnits b : ℝ)
  high_tie : b < infBits → 2 * y = (midUnits b : ℝ) → b % 2 = 0

/-- What lies between two reals that round alike rounds with them. -/
theorem NearestBits.between {lo hi y : ℝ} {b : Nat} (h1 : NearestBits lo b) (h2 : NearestBits hi b)
    (hl : lo ≤ y) (hh : y ≤ hi) : NearestBits y b where
  le_inf := h1.le_inf
  low hb := by have := h1.low hb; linarith
  low_tie hb he := h1.low_tie hb (by have := h1.low hb; linarith)
  high hb := by have := h2.high hb; linarith
  high_tie hb he := h2.high_tie hb (by have := h2.high hb; linarith)

/-- Rounding keeps the order. -/
theorem NearestBits.mono {y z : ℝ} {b c : Nat} (h1 : NearestBits y b) (h2 : NearestBits z c) (hyz : y ≤ z) : b ≤ c := by
  by_contra hcb
  have hb : 0 < b := by omega
  have hc : c < infBits := by have := h1.le_inf; omega
  have hlow := h1.low hb
  have hhigh := h2.high hc
  have e1 : midUnits c ≤ bitsMag (b - 1) + bitsMag b := Nat.add_le_add (bitsMag_mono (by omega)) (bitsMag_mono (by omega))
  have e2 : (midUnits c : ℝ) ≤ ((bitsMag (b - 1) + bitsMag b : Nat) : ℝ) := by exact_mod_cast e1
  have t1 := h1.low_tie hb (by linarith)
  have t2 := h2.high_tie hc (by linarith)
  have hlt : midUnits c < bitsMag (b - 1) + bitsMag b :=
    Nat.add_lt_add_of_le_of_lt (bitsMag_mono (by omega)) (bitsMag_strictMono (by omega))
  have : (midUnits c : ℝ) < ((bitsMag (b - 1) + bitsMag b : Nat) : ℝ) := by exact_mod_cast hlt
  linarith

/-- One pattern is nearest. -/
theorem NearestBits.unique {y : ℝ} {b c : Nat} (h1 : NearestBits y b) (h2 : NearestBits y c) : b = c :=
  Nat.le_antisymm (h1.mono h2 le_rfl) (h2.mono h1 le_rfl)

/-- The value of a pattern rounds to the pattern. -/
theorem nearest_bitsMag {b : Nat} (h : b < infBits) : NearestBits (bitsMag b) b := by
  have hs : (bitsMag b : ℝ) < bitsMag (b + 1) := by exact_mod_cast bitsMag_succ b
  refine ⟨h.le, fun h0 => ?_, fun h0 he => ?_, fun _ => ?_, fun _ he => ?_⟩
  · have : (bitsMag (b - 1) : ℝ) < bitsMag b := by exact_mod_cast bitsMag_strictMono (by omega)
    push_cast; linarith
  · have : (bitsMag (b - 1) : ℝ) < bitsMag b := by exact_mod_cast bitsMag_strictMono (by omega)
    push_cast at he; linarith
  · rw [midUnits]; push_cast; linarith
  · rw [midUnits] at he; push_cast at he; linarith

theorem divRne_spec (n : Nat) {d : Nat} (hd : 0 < d) :
    2 * (divRne n d * d) ≤ 2 * n + d ∧ 2 * n ≤ 2 * (divRne n d * d) + d ∧
      (2 * (divRne n d * d) = 2 * n + d → divRne n d % 2 = 0) ∧
      (2 * n = 2 * (divRne n d * d) + d → divRne n d % 2 = 0) := by
  have h := Nat.div_add_mod n d
  have hm := Nat.mod_lt n hd
  have hc : n / d * d = d * (n / d) := Nat.mul_comm _ _
  unfold divRne
  split
  · refine ⟨?_, ?_, ?_, ?_⟩ <;> omega
  · split
    · rw [Nat.add_mul, Nat.one_mul, hc]
      refine ⟨?_, ?_, ?_, ?_⟩ <;> omega
    · rcases Nat.mod_two_eq_zero_or_one (n / d) with he | he
      · rw [he, Nat.add_zero, hc]
        refine ⟨?_, ?_, ?_, ?_⟩ <;> omega
      · rw [he, Nat.add_mul, Nat.one_mul, hc]
        refine ⟨?_, ?_, ?_, ?_⟩ <;> omega

theorem rneShift_bounds {q : Nat} (hk : 0 < Nat.log2 q - 52) :
    2 ^ 52 * 2 ^ (Nat.log2 q - 52) ≤ q := by
  have hq : q ≠ 0 := by rintro rfl; simp at hk
  have := Nat.log2_self_le hq
  rwa [← pow_add, show 52 + (Nat.log2 q - 52) = Nat.log2 q by omega]

theorem rneShift_lt (q : Nat) : q < 2 ^ 53 * 2 ^ (Nat.log2 q - 52) := by
  have : q < 2 ^ (Nat.log2 q + 1) := Nat.lt_log2_self
  refine this.trans_le ?_
  rw [← pow_add]
  exact Nat.pow_le_pow_right (by omega) (by omega)

/-- The rounding of a fraction is nearest to it (`40_numerics.md` R149). -/
theorem rneBits_nearest (n : Nat) {d : Nat} (hd : 0 < d) : NearestBits ((n : ℝ) / d) (rneBits n d) := by
  obtain ⟨k, hkdef⟩ : ∃ k, Nat.log2 (n / d) - 52 = k := ⟨_, rfl⟩
  obtain ⟨m, hmdef⟩ : ∃ m, divRne n (d * 2 ^ k) = m := ⟨_, rfl⟩
  have hP : 0 < 2 ^ k := by positivity
  have hD : 0 < d * 2 ^ k := Nat.mul_pos hd hP
  have hb : rneBits n d = min (k * 2 ^ 52 + m) infBits := by rw [rneBits, hkdef, hmdef, infBits]
  obtain ⟨s1, s2, s3, s4⟩ := divRne_spec n hD
  rw [hmdef] at s1 s2 s3 s4
  have hlt : n < 2 ^ 53 * (d * 2 ^ k) := by
    have := rneShift_lt (n / d)
    rw [hkdef] at this
    have h2 := Nat.lt_mul_of_div_lt this hd
    calc n < _ := h2
      _ = _ := by ring
  have hge : 0 < k → 2 ^ 52 * (d * 2 ^ k) ≤ n := by
    intro hk
    have := rneShift_bounds (q := n / d) (by omega)
    rw [hkdef] at this
    have h2 := Nat.mul_le_of_le_div _ _ _ this
    calc _ = _ := by ring
      _ ≤ n := h2
  have hm1 : m ≤ 2 ^ 53 := by
    by_contra hc
    have : (2 ^ 53 + 1) * (d * 2 ^ k) ≤ m * (d * 2 ^ k) := Nat.mul_le_mul_right _ (by omega)
    rw [Nat.add_mul, Nat.one_mul] at this
    omega
  have hm2 : k = 0 ∨ 2 ^ 52 ≤ m := by
    rcases Nat.eq_zero_or_pos k with h | h
    · exact .inl h
    · right
      by_contra hc
      have h1 := hge h
      have : (m + 1) * (d * 2 ^ k) ≤ 2 ^ 52 * (d * 2 ^ k) := Nat.mul_le_mul_right _ (by omega)
      rw [Nat.add_mul, Nat.one_mul] at this
      omega
  have hmag := bitsMag_norm hm1 hm2
  have hdR : (0 : ℝ) < d := by exact_mod_cast hd
  -- the conditions on the unclipped pattern
  have key : ∀ (z : Nat), (z : ℝ) ≤ 2 * ((n : ℝ) / d) ↔ z * d ≤ 2 * n := by
    intro z
    rw [← mul_div_assoc, le_div_iff₀ hdR]
    exact_mod_cast Iff.rfl
  have key' : ∀ (z : Nat), 2 * ((n : ℝ) / d) ≤ (z : ℝ) ↔ 2 * n ≤ z * d := by
    intro z
    rw [← mul_div_assoc, div_le_iff₀ hdR]
    exact_mod_cast Iff.rfl
  have keq : ∀ (z : Nat), (z : ℝ) = 2 * ((n : ℝ) / d) ↔ z * d = 2 * n := by
    intro z
    rw [← mul_div_assoc, eq_div_iff hdR.ne']
    exact_mod_cast Iff.rfl
  have hlow : 0 < k * 2 ^ 52 + m →
      (bitsMag (k * 2 ^ 52 + m - 1) + bitsMag (k * 2 ^ 52 + m)) * d ≤ 2 * n ∧
      ((bitsMag (k * 2 ^ 52 + m - 1) + bitsMag (k * 2 ^ 52 + m)) * d = 2 * n → m % 2 = 0) := by
    intro hpos
    rw [hmag]
    by_cases hm : k = 0 ∨ 2 ^ 52 < m
    · have hm0 : 0 < m := by rcases hm with h | h <;> omega
      have : bitsMag (k * 2 ^ 52 + m - 1) = (m - 1) * 2 ^ k := by
        rw [Nat.add_sub_assoc hm0]
        exact bitsMag_norm (by omega) (by omega)
      rw [this]
      obtain ⟨m', rfl⟩ : ∃ m', m = m' + 1 := ⟨m - 1, by omega⟩
      rw [Nat.add_sub_cancel]
      have e1 : (m' * 2 ^ k + (m' + 1) * 2 ^ k) * d + d * 2 ^ k = 2 * ((m' + 1) * (d * 2 ^ k)) := by ring
      exact ⟨by omega, fun he => s3 (by omega)⟩
    · have hk : 0 < k := by omega
      have hmm : m = 2 ^ 52 := by omega
      have h1 := hge hk
      have h2 : bitsMag (k * 2 ^ 52 + m - 1) < m * 2 ^ k := by
        rw [← hmag]; exact bitsMag_strictMono (by omega)
      have h3 : (bitsMag (k * 2 ^ 52 + m - 1) + m * 2 ^ k) * d < (m * 2 ^ k + m * 2 ^ k) * d :=
        Nat.mul_lt_mul_of_pos_right (by omega) hd
      have h4 : (m * 2 ^ k + m * 2 ^ k) * d = 2 * (2 ^ 52 * (d * 2 ^ k)) := by rw [hmm]; ring
      exact ⟨by omega, fun he => by omega⟩
  have hhigh : 2 * n ≤ midUnits (k * 2 ^ 52 + m) * d ∧
      (2 * n = midUnits (k * 2 ^ 52 + m) * d → m % 2 = 0) := by
    rw [midUnits, hmag]
    have h1 : (m + 1) * 2 ^ k ≤ bitsMag (k * 2 ^ 52 + m + 1) := by
      rcases Nat.lt_or_ge m (2 ^ 53) with h | h
      · rw [Nat.add_assoc, bitsMag_norm (by omega) (by omega)]
      · have hmm : m = 2 ^ 53 := by omega
        have : k * 2 ^ 52 + m + 1 = (k + 1) * 2 ^ 52 + (2 ^ 52 + 1) := by omega
        rw [this, bitsMag_norm (by omega) (by omega), pow_succ 2 k, Nat.mul_comm (2 ^ k), ← Nat.mul_assoc]
        exact Nat.mul_le_mul_right _ (by omega)
    have h2 : (m * 2 ^ k + (m + 1) * 2 ^ k) * d ≤ (m * 2 ^ k + bitsMag (k * 2 ^ 52 + m + 1)) * d :=
      Nat.mul_le_mul_right _ (by omega)
    have e1 : (m * 2 ^ k + (m + 1) * 2 ^ k) * d = 2 * (m * (d * 2 ^ k)) + d * 2 ^ k := by ring
    exact ⟨by omega, fun he => s4 (by omega)⟩
  rw [hb]
  rcases Nat.le_total (k * 2 ^ 52 + m) infBits with hle | hle
  · rw [Nat.min_eq_left hle]
    refine ⟨hle, fun h0 => (key _).mpr (hlow h0).1, fun h0 he => ?_, fun _ => (key' _).mpr hhigh.1, fun _ he => ?_⟩
    · have := (hlow h0).2 ((keq _).mp he); omega
    · have := hhigh.2 ((keq _).mp he.symm).symm; omega
  · rw [Nat.min_eq_right hle]
    refine ⟨le_rfl, fun h0 => ?_, fun _ _ => by rw [infBits]; omega, fun h => absurd h (lt_irrefl _),
      fun h => absurd h (lt_irrefl _)⟩
    rw [key]
    refine le_trans (Nat.mul_le_mul_right d ?_) (hlow (by omega)).1
    exact Nat.add_le_add (bitsMag_mono (by omega)) (bitsMag_mono hle)

/-- The enclosure settles only on the nearest pattern. -/
theorem settle_nearest {n1 d1 n2 d2 b : Nat} {y : ℝ} (h : settle n1 d1 n2 d2 = some b) (h1 : 0 < d1) (h2 : 0 < d2)
    (hl : (n1 : ℝ) / d1 ≤ y) (hh : y ≤ (n2 : ℝ) / d2) : NearestBits y b := by
  unfold settle at h
  split at h
  · next he =>
    obtain rfl : rneBits n1 d1 = b := Option.some.inj h
    have hn := rneBits_nearest n2 h2
    rw [← he] at hn
    exact (rneBits_nearest n1 h1).between hn hl hh
  · cases h

theorem firstSettled_nearest {f : Nat → Option Nat} {y : ℝ} {b : Nat} (h : firstSettled f = some b)
    (hf : ∀ p ∈ Config.precisions, ∀ b, f p = some b → NearestBits y b) : NearestBits y b := by
  obtain ⟨p, hp, hb⟩ := List.exists_of_findSome?_eq_some h
  exact hf p hp b hb

/-! ### The exact comparison -/

theorem bisect_spec {above : Nat → Bool} (k b : Nat)
    (hlow : 0 < b → above (b - 1) = true) (hend : above (b + 2 ^ k - 1) = false) :
    above (bisect above k b) = false ∧ (0 < bisect above k b → above (bisect above k b - 1) = true) := by
  induction k generalizing b with
  | zero => exact ⟨by simpa [bisect] using hend, hlow⟩
  | succ k ih =>
    have hp : 2 ^ (k + 1) = 2 ^ k + 2 ^ k := by ring
    have h2 : 0 < 2 ^ k := by positivity
    unfold bisect
    split
    · next h =>
      refine ih _ (fun _ => ?_) ?_
      · exact h
      · rw [hp] at hend; rwa [Nat.add_assoc]
    · next h => exact ih _ hlow (by simpa using h)

/-- The exact comparison finds the nearest pattern. -/
theorem bisect_nearest {above : Nat → Bool} {y : ℝ}
    (h : ∀ b, above b = true ↔
      b < infBits ∧ ((midUnits b : ℝ) < 2 * y ∨ (midUnits b : ℝ) = 2 * y ∧ b % 2 = 1)) :
    NearestBits y (bisect above 63 0) := by
  have hend : above (0 + 2 ^ 63 - 1) = false := by
    rw [Bool.eq_false_iff]
    intro hc
    have := ((h _).mp hc).1
    rw [infBits] at this
    omega
  obtain ⟨h1, h2⟩ := bisect_spec (above := above) 63 0 (fun h0 => absurd h0 (lt_irrefl 0)) hend
  obtain ⟨b, hb⟩ : ∃ b, bisect above 63 0 = b := ⟨_, rfl⟩
  rw [hb] at h1 h2 ⊢
  have h1' : ¬(b < infBits ∧ ((midUnits b : ℝ) < 2 * y ∨ (midUnits b : ℝ) = 2 * y ∧ b % 2 = 1)) := by
    rw [← h, h1]; simp
  have hprev : ∀ hb0 : 0 < b, bitsMag (b - 1) + bitsMag b = midUnits (b - 1) := by
    intro hb0; rw [midUnits, Nat.sub_add_cancel hb0]
  refine ⟨?_, ?_, ?_, ?_, ?_⟩
  · rcases Nat.eq_zero_or_pos b with h0 | h0
    · omega
    · have := ((h _).mp (h2 h0)).1; omega
  · intro h0
    rw [hprev h0]
    rcases ((h _).mp (h2 h0)).2 with h3 | h3 <;> linarith [h3]
  · intro h0 he
    rw [hprev h0] at he
    rcases ((h _).mp (h2 h0)).2 with h3 | ⟨_, h3⟩
    · linarith
    · omega
  · intro hi
    by_contra hc
    exact h1' ⟨hi, .inl (not_le.mp hc)⟩
  · intro hi he
    by_contra hc
    exact h1' ⟨hi, .inr ⟨he.symm, by omega⟩⟩

theorem roundsAbove_iff {past onIt : Bool} {b : Nat} :
    roundsAbove past onIt b = true ↔ b < infBits ∧ (past = true ∨ onIt = true ∧ b % 2 = 1) := by
  simp [roundsAbove]

/-- A reference function rounds correctly when its enclosures hold and its comparison is exact. -/
theorem refRound_nearest {f : Nat → Option Nat} {above : Nat → Bool} {y : ℝ}
    (hf : ∀ p ∈ Config.precisions, ∀ b, f p = some b → NearestBits y b)
    (h : ∀ b, above b = true ↔
      b < infBits ∧ ((midUnits b : ℝ) < 2 * y ∨ (midUnits b : ℝ) = 2 * y ∧ b % 2 = 1)) :
    NearestBits y (refRound f above) := by
  unfold refRound
  split
  · next b hb => exact firstSettled_nearest hb hf
  · exact bisect_nearest h

/-! ### From patterns to values -/

theorem NearestBits.dist {y : ℝ} {b : Nat} (h : NearestBits y b) {c : Nat} (hc : c < infBits) :
    |y - bitsMag b| ≤ |y - bitsMag c| ∧
      (|y - bitsMag c| = |y - bitsMag b| → bitsMag c ≠ bitsMag b → b % 2 = 0) := by
  rcases Nat.lt_trichotomy c b with hcb | rfl | hcb
  · have h0 : 0 < b := by omega
    have hlow := h.low h0
    have hP : (bitsMag c : ℝ) ≤ bitsMag (b - 1) := by exact_mod_cast bitsMag_mono (by omega)
    have hCB : (bitsMag c : ℝ) < bitsMag b := by exact_mod_cast bitsMag_strictMono hcb
    push_cast at hlow
    have hyc : |y - bitsMag c| = y - bitsMag c := abs_of_nonneg (by linarith)
    refine ⟨by rw [hyc, abs_le]; constructor <;> linarith, fun he _ => ?_⟩
    rw [hyc] at he
    refine h.low_tie h0 ?_
    push_cast
    rcases abs_cases (y - bitsMag b) with ⟨h1, _⟩ | ⟨h1, _⟩ <;> rw [h1] at he <;> linarith
  · exact ⟨le_rfl, fun _ hne => absurd rfl hne⟩
  · have hhigh := h.high (by omega)
    have hQ : (bitsMag (b + 1) : ℝ) ≤ bitsMag c := by exact_mod_cast bitsMag_mono (by omega)
    have hBC : (bitsMag b : ℝ) < bitsMag c := by exact_mod_cast bitsMag_strictMono hcb
    rw [midUnits] at hhigh
    push_cast at hhigh
    have hyc : |y - bitsMag c| = bitsMag c - y := by rw [abs_of_nonpos (by linarith)]; ring
    refine ⟨by rw [hyc, abs_le]; constructor <;> linarith, fun he _ => ?_⟩
    rw [hyc] at he
    refine h.high_tie (by omega) ?_
    rw [midUnits]
    push_cast
    rcases abs_cases (y - bitsMag b) with ⟨h1, _⟩ | ⟨h1, _⟩ <;> rw [h1] at he <;> linarith

theorem midUnits_maxBits : midUnits (infBits - 1) = (2 ^ 54 - 1) * 2 ^ 2045 := by
  rw [midUnits, Nat.sub_add_cancel (by rw [infBits]; omega), bitsMag_maxBits, bitsMag_infBits]
  have : 2 ^ 2098 = 2 ^ 53 * 2 ^ 2045 := by rw [← pow_add]
  rw [this, ← Nat.add_mul, show 2 ^ 53 - 1 + 2 ^ 53 = 2 ^ 54 - 1 by omega]

theorem threshold_units (a : ℝ) :
    2 ^ 1024 * (1 - (1 : ℝ) / 2 ^ 54) ≤ a ↔ (midUnits (infBits - 1) : ℝ) ≤ 2 * (a * 2 ^ 1074) := by
  rw [midUnits_maxBits]
  have h : (((2 ^ 54 - 1) * 2 ^ 2045 : Nat) : ℝ) = 2 ^ 1024 * (1 - (1 : ℝ) / 2 ^ 54) * (2 * 2 ^ 1074) := by
    have e : (2 : ℝ) ^ 2045 * 2 ^ 54 = 2 ^ 1024 * (2 * 2 ^ 1074) := by
      rw [← pow_add, ← pow_succ', ← pow_add]
    have e2 : ((2 ^ 54 - 1 : Nat) : ℝ) = 2 ^ 54 - 1 := by norm_num
    rw [Nat.cast_mul, e2, Nat.cast_pow, Nat.cast_ofNat, mul_right_comm, ← e, mul_assoc,
      mul_comm ((2 : ℝ) ^ 54 - 1)]
    congr 1
    norm_num
  have h2 : (0 : ℝ) < 2 * 2 ^ 1074 := by positivity
  rw [h, show 2 * (a * 2 ^ 1074) = a * (2 * (2 : ℝ) ^ 1074) from mul_left_comm _ _ _, mul_le_mul_iff_left₀ h2]

theorem abs_units_sub (x : ℝ) (w : F64) :
    |x - f64Rat w| * 2 ^ 1074 = |x * 2 ^ 1074 - f64Units w| := by
  have h : (0 : ℝ) < 2 ^ 1074 := by positivity
  have e : ((f64Rat w : ℚ) : ℝ) * 2 ^ 1074 = f64Units w := by
    rw [f64Rat]; push_cast; field_simp
  rw [← e, ← sub_mul, abs_mul, abs_of_pos h]

/-- The nearest pattern with the sign of x is RNE(x). -/
theorem isRne_of_nearest {x : ℝ} {b : Nat} {neg : Bool} (h : NearestBits (|x| * 2 ^ 1074) b)
    (hneg : neg = true ↔ x < 0) : IsRne x (mkF64 neg b) := by
  have hU : (0 : ℝ) < 2 ^ 1074 := by positivity
  have hthr := threshold_units |x|
  have habs := abs_units_sub x
  generalize (2 : ℝ) ^ 1074 = U at h hU hthr habs
  have hb63 : b < 2 ^ 63 := by have := h.le_inf; rw [infBits] at this; omega
  have hmod := toNat_mod_mkF64 neg hb63
  have hfin : |x| < 2 ^ 1024 * (1 - (1 : ℝ) / 2 ^ 54) → b < infBits := by
    intro hx
    by_contra hc
    have hbi : b = infBits := by have := h.le_inf; omega
    have h0 : 0 < b := by rw [hbi, infBits]; omega
    have hl := h.low h0
    refine absurd (hthr.mpr ?_) (not_le.mpr hx)
    have e : bitsMag (b - 1) + bitsMag b = midUnits (infBits - 1) := by
      rw [midUnits, hbi, Nat.sub_add_cancel (by rw [infBits]; omega)]
    rwa [e] at hl
  have hdist : ∀ w, isFin w = true → b < infBits →
      |x - f64Rat (mkF64 neg b)| ≤ |x - f64Rat w| ∧
      (|x - f64Rat w| = |x - f64Rat (mkF64 neg b)| → f64Rat w ≠ f64Rat (mkF64 neg b) → b % 2 = 0) := by
    intro w hw hbi
    have hc := (isFin_iff w).mp hw
    have hv : |x * U - f64Units (mkF64 neg b)| = |(|x| * U) - bitsMag b| := by
      rw [f64Units, f64Sign_mkF64 _ hb63, f64Mag_mkF64 _ hb63]
      cases hn : neg
      · have : 0 ≤ x := by by_contra hx; exact absurd (hneg.mpr (not_le.mp hx)) (by simp [hn])
        rw [abs_of_nonneg this]; simp
      · have : x < 0 := hneg.mp hn
        rw [abs_of_neg this, ← abs_neg]
        congr 1; push_cast; simp; ring
    have hwc : |x * U - f64Units w| = |(|x| * U) - bitsMag (w.toNat % 2 ^ 63)| ∨
        |x * U - f64Units w| = |x| * U + bitsMag (w.toNat % 2 ^ 63) := by
      rw [f64Units, f64Mag_eq]
      have hC : (0 : ℝ) ≤ bitsMag (w.toNat % 2 ^ 63) := Nat.cast_nonneg _
      rcases le_or_gt 0 x with hx | hx
      · rw [abs_of_nonneg hx]
        have : 0 ≤ x * U := by positivity
        cases f64Sign w
        · left; simp
        · right
          rw [if_pos rfl]; push_cast; rw [sub_neg_eq_add, abs_of_nonneg (by positivity)]
      · rw [abs_of_neg hx]
        have : 0 < -x * U := mul_pos (by linarith) hU
        cases f64Sign w
        · right
          rw [if_neg (by simp), ← abs_neg]
          push_cast
          rw [abs_of_nonneg (by linarith [hC])]
          ring
        · left
          rw [if_pos rfl, ← abs_neg]; push_cast; congr 1; ring
    obtain ⟨d1, d2⟩ := h.dist hc
    have hC : (0 : ℝ) ≤ bitsMag (w.toNat % 2 ^ 63) := Nat.cast_nonneg _
    have h0 := h.dist (c := 0) (by rw [infBits]; omega)
    rw [bitsMag_zero, Nat.cast_zero, sub_zero, abs_of_nonneg (by positivity : (0 : ℝ) ≤ |x| * U)] at h0
    have hscale : ∀ u v : F64, (|x - f64Rat u| ≤ |x - f64Rat v| ↔
        |x * U - f64Units u| ≤ |x * U - f64Units v|) := by
      intro u v
      rw [← habs, ← habs, mul_le_mul_iff_left₀ hU]
    constructor
    · rw [hscale, hv]
      rcases hwc with e | e <;> rw [e]
      · exact d1
      · linarith [h0.1]
    · intro he hne
      have he' : |x * U - f64Units w| = |x * U - f64Units (mkF64 neg b)| := by
        rw [← habs, ← habs, he]
      have hunits : f64Units w ≠ f64Units (mkF64 neg b) := fun hu => hne (by rw [f64Rat, f64Rat, hu])
      rw [hv] at he'
      rcases hwc with e | e
      · rw [e] at he'
        by_cases hcb : bitsMag (w.toNat % 2 ^ 63) = bitsMag b
        · -- equal magnitudes, opposite signs: both distances are equal only at zero
          have hs : x * U - f64Units w ≠ x * U - f64Units (mkF64 neg b) := by
            intro hh
            exact hunits (by exact_mod_cast (sub_right_inj.mp hh))
          have hbx : b % 2 = 0 ∨ |x| * U = 0 := by
            right
            have e2 : |x * U - f64Units w| = |x * U - f64Units (mkF64 neg b)| := by rw [e, hv, hcb]
            rcases abs_eq_abs.mp e2 with hh | hh
            · exact absurd hh hs
            · have hu : (f64Units w : ℝ) = - f64Units (mkF64 neg b) := by
                have hw1 : f64Units w = f64Units (mkF64 neg b) ∨ f64Units w = - f64Units (mkF64 neg b) := by
                  rw [f64Units, f64Units, f64Mag_eq w, f64Mag_mkF64 _ hb63, hcb, f64Sign_mkF64 _ hb63]
                  cases f64Sign w <;> cases neg <;> simp
                rcases hw1 with hw1 | hw1
                · exact absurd hw1 hunits
                · exact_mod_cast hw1
              rw [hu] at hh
              have : x * U = 0 := by linarith
              rcases mul_eq_zero.mp this with h3 | h3
              · rw [h3]; simp
              · exact absurd h3 hU.ne'
          rcases hbx with hbx | hbx
          · exact hbx
          · have hl : ¬ 0 < b := by
              intro hp
              have := h.low hp
              rw [hbx] at this
              have : 0 < bitsMag b := by
                rw [← bitsMag_zero]; exact bitsMag_strictMono hp
              have : (0 : ℝ) < ((bitsMag (b - 1) + bitsMag b : Nat) : ℝ) := by exact_mod_cast (by omega)
              linarith
            omega
        · exact d2 he' hcb
      · rw [e] at he'
        have hc0 : (bitsMag (w.toNat % 2 ^ 63) : ℝ) = 0 := by linarith [h0.1]
        have hb0 : (0 : Nat) ≠ bitsMag b := by
          intro hz
          apply hunits
          have hw0 : bitsMag (w.toNat % 2 ^ 63) = 0 := by exact_mod_cast hc0
          rw [f64Units, f64Units, f64Mag_eq w, f64Mag_mkF64 _ hb63, hw0, ← hz]
          simp
        exact h0.2 (by linarith) hb0
  refine ⟨?_, ?_, ?_, ?_, ?_⟩
  · rw [f64Sign_mkF64 _ hb63]; exact hneg
  · intro hx
    rw [isInf_iff, hmod]
    by_contra hc
    have hbi : b < infBits := by have := h.le_inf; omega
    have hhi := h.high hbi
    have ht := hthr.mp hx
    rcases Nat.lt_or_ge b (infBits - 1) with hlt | hge
    · have : (midUnits b : ℝ) < midUnits (infBits - 1) := by
        exact_mod_cast Nat.add_lt_add (bitsMag_strictMono hlt) (bitsMag_strictMono (by omega))
      linarith
    · have hbe : b = infBits - 1 := by omega
      have := h.high_tie hbi (by rw [hbe] at hhi ⊢; linarith)
      rw [hbe, infBits] at this
      omega
  · intro hx
    rw [isFin_iff, hmod]; exact hfin hx
  · intro hx w hw
    exact (hdist w hw (hfin hx)).1
  · intro hx w hw he hne
    have := (hdist w hw (hfin hx)).2 he hne
    rw [toNat_mkF64 _ hb63]
    split <;> omega

/-- The pattern of RNE(x), but for its sign bit, is the nearest one. -/
theorem IsRne.nearestBits {x : ℝ} {v : F64} (h : IsRne x v) : NearestBits (|x| * 2 ^ 1074) (v.toNat % 2 ^ 63) := by
  have hthr := threshold_units |x|
  have habs := abs_units_sub x
  have hU : (0 : ℝ) < 2 ^ 1074 := by positivity
  rcases le_or_gt (2 ^ 1024 * (1 - (1 : ℝ) / 2 ^ 54)) |x| with hx | hx
  · rw [(isInf_iff v).mp (h.infinite hx)]
    have hm := hthr.mp hx
    refine ⟨le_rfl, fun _ => ?_, fun _ _ => by rw [infBits]; omega, fun h => absurd h (lt_irrefl _),
      fun h => absurd h (lt_irrefl _)⟩
    rwa [midUnits, Nat.sub_add_cancel (by rw [infBits]; omega)] at hm
  · have hb := (isFin_iff v).mp (h.finite hx)
    have hnear := h.nearest hx
    have htie := h.tie hx
    have hsign := h.sign
    have hover : ¬ (midUnits (infBits - 1) : ℝ) ≤ 2 * (|x| * 2 ^ 1074) := fun hc => absurd (hthr.mpr hc) (not_le.mpr hx)
    clear hthr h
    generalize (2 : ℝ) ^ 1074 = U at *
    -- the distance to a pattern of the same sign, in units
    have key : ∀ c, c < infBits → isFin (mkF64 (f64Sign v) c) = true ∧
        |x - f64Rat (mkF64 (f64Sign v) c)| * U = |(|x| * U) - bitsMag c| := by
      intro c hc
      have hc63 : c < 2 ^ 63 := by rw [infBits] at hc; omega
      refine ⟨(isFin_iff _).mpr (by rwa [toNat_mod_mkF64 _ hc63]), ?_⟩
      rw [habs, f64Units, f64Sign_mkF64 _ hc63, f64Mag_mkF64 _ hc63]
      cases hs : f64Sign v
      · have : 0 ≤ x := by by_contra hh; exact absurd (hsign.mpr (not_le.mp hh)) (by simp [hs])
        rw [abs_of_nonneg this]; simp
      · have : x < 0 := hsign.mp hs
        rw [abs_of_neg this, ← abs_neg]
        congr 1; push_cast; simp; ring
    have hb63 : v.toNat % 2 ^ 63 < 2 ^ 63 := Nat.mod_lt _ (by positivity)
    have hv : mkF64 (f64Sign v) (v.toNat % 2 ^ 63) = v := by
      apply BitVec.eq_of_toNat_eq
      rw [toNat_mkF64 _ hb63]
      have hi := f64Sign_iff v
      have := v.isLt
      cases hs : f64Sign v
      · have : ¬ 2 ^ 63 ≤ v.toNat := fun hh => by rw [hi.mpr hh] at hs; cases hs
        simp only [Bool.false_eq_true, if_false]; omega
      · have := hi.mp hs
        simp only [if_true]; omega
    obtain ⟨b, hbdef⟩ : ∃ b, v.toNat % 2 ^ 63 = b := ⟨_, rfl⟩
    rw [hbdef] at hb hv ⊢
    have hself := (key b hb).2
    rw [hv] at hself
    have cmp : ∀ c, c < infBits → |(|x| * U) - bitsMag b| ≤ |(|x| * U) - bitsMag c| ∧
        (|(|x| * U) - bitsMag c| = |(|x| * U) - bitsMag b| → bitsMag c ≠ bitsMag b → b % 2 = 0) := by
      intro c hc
      obtain ⟨k1, k2⟩ := key c hc
      rw [← hself, ← k2]
      refine ⟨mul_le_mul_of_nonneg_right (hnear _ k1) hU.le, fun he hne => ?_⟩
      have he' := mul_right_cancel₀ hU.ne' he
      have := htie _ k1 he' (fun hr => hne ?_)
      · omega
      · have hc63 : c < 2 ^ 63 := by rw [infBits] at hc; omega
        have hb63' : b < 2 ^ 63 := by omega
        have hu : f64Units (mkF64 (f64Sign v) c) = f64Units v := by
          have h2 : (2 : ℚ) ^ 1074 ≠ 0 := by positivity
          rw [f64Rat, f64Rat] at hr
          have := (div_left_inj' h2).mp hr
          exact_mod_cast this
        rw [← hv, f64Units, f64Units, f64Sign_mkF64 _ hc63, f64Mag_mkF64 _ hc63, hv, ← hv, f64Sign_mkF64 _ hb63',
          f64Mag_mkF64 _ hb63'] at hu
        cases hs : f64Sign v <;> rw [hs] at hu <;> simp at hu <;> exact_mod_cast hu
    generalize |x| * U = y at cmp hover ⊢
    refine ⟨hb.le, fun h0 => ?_, fun h0 he => ?_, fun _ => ?_, fun _ he => ?_⟩
    · have hP : (bitsMag (b - 1) : ℝ) < bitsMag b := by exact_mod_cast bitsMag_strictMono (by omega)
      have c1 := (cmp (b - 1) (by omega)).1
      push_cast
      by_contra hc
      rcases le_or_gt (bitsMag (b - 1) : ℝ) (y) with hh | hh
      · rw [abs_of_nonneg (by linarith : 0 ≤ y - bitsMag (b - 1)), abs_of_nonpos (by linarith)] at c1
        linarith
      · rw [abs_of_nonpos (by linarith : y - bitsMag (b - 1) ≤ 0), abs_of_nonpos (by linarith)] at c1
        linarith
    · have hP : (bitsMag (b - 1) : ℝ) < bitsMag b := by exact_mod_cast bitsMag_strictMono (by omega)
      push_cast at he
      refine (cmp (b - 1) (by omega)).2 ?_ (by exact_mod_cast hP.ne)
      rw [abs_of_nonneg (by linarith : 0 ≤ y - bitsMag (b - 1)), abs_of_nonpos (by linarith)]
      linarith
    · rw [midUnits]
      rcases Nat.lt_or_ge (b + 1) infBits with h1 | h1
      · have hQ : (bitsMag b : ℝ) < bitsMag (b + 1) := by exact_mod_cast bitsMag_succ b
        have c1 := (cmp (b + 1) h1).1
        push_cast
        by_contra hc
        rcases le_or_gt (y) (bitsMag (b + 1) : ℝ) with hh | hh
        · rw [abs_of_nonpos (by linarith : y - bitsMag (b + 1) ≤ 0), abs_of_nonneg (by linarith)] at c1
          linarith
        · rw [abs_of_nonneg (by linarith : 0 ≤ y - bitsMag (b + 1)), abs_of_nonneg (by linarith)] at c1
          linarith
      · have : b = infBits - 1 := by omega
        rw [← midUnits, this]
        exact (not_le.mp hover).le
    · rw [midUnits] at he
      rcases Nat.lt_or_ge (b + 1) infBits with h1 | h1
      · have hQ : (bitsMag b : ℝ) < bitsMag (b + 1) := by exact_mod_cast bitsMag_succ b
        push_cast at he
        refine (cmp (b + 1) h1).2 ?_ (by exact_mod_cast hQ.ne')
        rw [abs_of_nonpos (by linarith : y - bitsMag (b + 1) ≤ 0), abs_of_nonneg (by linarith)]
        linarith
      · have : b = infBits - 1 := by omega
        rw [← midUnits, this] at he
        exact absurd he.symm.le hover

/-- One pattern is RNE(x). -/
theorem IsRne.unique {x : ℝ} {v w : F64} (h1 : IsRne x v) (h2 : IsRne x w) : v = w := by
  have hm := h1.nearestBits.unique h2.nearestBits
  have hs : f64Sign v = f64Sign w := by rw [Bool.eq_iff_iff, h1.sign, h2.sign]
  have i1 := f64Sign_iff v
  have i2 := f64Sign_iff w
  rw [hs] at i1
  have hh : 2 ^ 63 ≤ v.toNat ↔ 2 ^ 63 ≤ w.toNat := i1.symm.trans i2
  apply BitVec.eq_of_toNat_eq
  have := v.isLt
  have := w.isLt
  omega

/-- Rounding a signed fraction of units is RNE of it; a fraction that is zero has sign 0 (`40_numerics.md` R149). -/
theorem isRne_rne {neg : Bool} {n d : Nat} (hd : 0 < d) (h0 : neg = true → 0 < n) :
    IsRne ((if neg then -1 else 1) * ((n : ℝ) / d) / 2 ^ 1074) (rne neg n d) := by
  have hU : (0 : ℝ) < 2 ^ 1074 := by positivity
  have hdR : (0 : ℝ) < d := by exact_mod_cast hd
  refine isRne_of_nearest ?_ ?_
  · have : |(if neg then -1 else 1) * ((n : ℝ) / d) / 2 ^ 1074| * 2 ^ 1074 = (n : ℝ) / d := by
      rw [abs_div, abs_of_pos hU, div_mul_cancel₀ _ hU.ne', abs_mul, abs_of_nonneg (by positivity : 0 ≤ (n : ℝ) / d)]
      cases neg <;> simp
    rw [this]
    exact rneBits_nearest n hd
  · cases hn : neg
    · simp only [Bool.false_eq_true, if_false, one_mul, false_iff, not_lt]
      positivity
    · have : (0 : ℝ) < n := by exact_mod_cast h0 hn
      simp only [if_true, true_iff, neg_mul, one_mul]
      rw [neg_div, neg_lt_zero]
      positivity

end Sys2Proof.Machine
end

