-- ==== Sys2Proof/Laws/Series.lean ====
section
/-! SUPPORT. The enclosures: each pair of integers that `Elementary.lean` computes at a precision lies on the two sides of
the real number it stands for. -/
namespace Sys2Proof.Machine

open Finset Filter

/-! ### Floors and sums -/

theorem floor_le_div (a b : Nat) : ((a / b : Nat) : ℝ) ≤ (a : ℝ) / b := Nat.cast_div_le

theorem div_le_floor_add_one (a : Nat) {b : Nat} (hb : 0 < b) : (a : ℝ) / b ≤ ((a / b : Nat) : ℝ) + 1 := by
  have hbR : (0 : ℝ) < b := by exact_mod_cast hb
  rw [div_le_iff₀ hbR]
  have h : a ≤ (a / b + 1) * b := (Nat.lt_mul_of_div_lt (Nat.lt_succ_self _) hb).le
  exact_mod_cast h

theorem sumTo_cast (t : Nat → Nat) (n : Nat) : (sumTo t n : ℝ) = ∑ i ∈ range n, (t i : ℝ) := by
  induction n with
  | zero => simp [sumTo]
  | succ n ih => rw [sumTo, sum_range_succ, ← ih]; push_cast; rfl

theorem sum_alternating (f : ℕ → ℝ) (n : ℕ) :
    ∑ i ∈ range (2 * n), (-1) ^ i * f i = ∑ i ∈ range n, f (2 * i) - ∑ i ∈ range n, f (2 * i + 1) := by
  induction n with
  | zero => simp
  | succ n ih =>
    rw [Nat.mul_succ, sum_range_succ, sum_range_succ, ih, sum_range_succ, sum_range_succ, pow_add, pow_mul]
    norm_num
    ring

theorem sub_le_cast_sub (a b : Nat) : (a : ℝ) - b ≤ ((a - b : Nat) : ℝ) := by
  have h : a ≤ a - b + b := by omega
  rw [sub_le_iff_le_add]; exact_mod_cast h

theorem cast_sub_le_of_nonneg {a b : Nat} {x : ℝ} (h : (a : ℝ) - b ≤ x) (hx : 0 ≤ x) :
    ((a - b : Nat) : ℝ) ≤ x := by
  rcases Nat.le_total b a with hab | hab
  · rwa [Nat.cast_sub hab]
  · simpa [Nat.sub_eq_zero_of_le hab] using hx

/-! ### Alternating series -/

/-- The two ends around the sum of an alternating series of decreasing terms. -/
theorem alt_enclosure {f : ℕ → ℝ} {l : ℝ} {p : Nat} {t : Nat → Nat}
    (hs : HasSum (fun n => (-1) ^ n * f n) l) (ha : Antitone f)
    (h1 : ∀ i, (t i : ℝ) ≤ 2 ^ p * f i) (h2 : ∀ i, 2 ^ p * f i ≤ t i + 1) (n : Nat) :
    (altLo t n : ℝ) ≤ 2 ^ p * l ∧ 2 ^ p * l ≤ altHi t n := by
  have hp : (0 : ℝ) < 2 ^ p := by positivity
  have ht := hs.tendsto_sum_nat
  have hl0 : 0 ≤ l := by simpa using ha.alternating_series_le_tendsto ht 0
  have hlo := ha.alternating_series_le_tendsto ht n
  have hhi := ha.tendsto_le_alternating_series ht n
  rw [sum_alternating] at hlo
  have hsq : ((-1 : ℝ) ^ 2) ^ n = 1 := by norm_num
  rw [sum_range_succ, sum_alternating, pow_mul, hsq, one_mul] at hhi
  have e1 : ∑ i ∈ range n, (t (2 * i) : ℝ) ≤ 2 ^ p * ∑ i ∈ range n, f (2 * i) := by
    rw [mul_sum]; exact sum_le_sum fun i _ => h1 _
  have e2 : 2 ^ p * ∑ i ∈ range n, f (2 * i) ≤ ∑ i ∈ range n, (t (2 * i) : ℝ) + n := by
    rw [mul_sum]
    calc _ ≤ ∑ i ∈ range n, ((t (2 * i) : ℝ) + 1) := sum_le_sum fun i _ => h2 _
      _ = _ := by rw [sum_add_distrib]; simp
  have o1 : ∑ i ∈ range n, (t (2 * i + 1) : ℝ) ≤ 2 ^ p * ∑ i ∈ range n, f (2 * i + 1) := by
    rw [mul_sum]; exact sum_le_sum fun i _ => h1 _
  have o2 : 2 ^ p * ∑ i ∈ range n, f (2 * i + 1) ≤ ∑ i ∈ range n, (t (2 * i + 1) : ℝ) + n := by
    rw [mul_sum]
    calc _ ≤ ∑ i ∈ range n, ((t (2 * i + 1) : ℝ) + 1) := sum_le_sum fun i _ => h2 _
      _ = _ := by rw [sum_add_distrib]; simp
  constructor
  · refine cast_sub_le_of_nonneg ?_ (by positivity)
    push_cast
    rw [sumTo_cast, sumTo_cast]
    have := mul_le_mul_of_nonneg_left hlo hp.le
    rw [mul_sub] at this
    linarith
  · refine le_trans ?_ (sub_le_cast_sub _ _)
    push_cast
    rw [sumTo_cast, sumTo_cast]
    have := mul_le_mul_of_nonneg_left hhi hp.le
    have h3 := h2 (2 * n)
    rw [mul_add, mul_sub] at this
    linarith

/-! ### Cosine and sine -/

theorem floor_term (p X a c : Nat) (hc : 0 < c) :
    ((2 ^ p * X ^ a / (2 ^ (p * a) * c) : Nat) : ℝ) ≤ 2 ^ p * (((X : ℝ) / 2 ^ p) ^ a / c) ∧
      2 ^ p * (((X : ℝ) / 2 ^ p) ^ a / c) ≤ ((2 ^ p * X ^ a / (2 ^ (p * a) * c) : Nat) : ℝ) + 1 := by
  have e : (2 : ℝ) ^ p * (((X : ℝ) / 2 ^ p) ^ a / c) =
      ((2 ^ p * X ^ a : Nat) : ℝ) / ((2 ^ (p * a) * c : Nat) : ℝ) := by
    push_cast
    rw [div_pow, ← pow_mul, div_div, mul_div_assoc]
  rw [e]
  exact ⟨floor_le_div _ _, div_le_floor_add_one _ (by positivity)⟩

theorem antitone_pow_div {r : ℝ} (h0 : 0 ≤ r) (h1 : r ≤ 1) {a : ℕ → ℕ} {c : ℕ → ℝ} (ha : Monotone a)
    (hc : Monotone c) (hpos : ∀ n, 0 < c n) : Antitone (fun n => r ^ a n / c n) := by
  intro m n hmn
  have := hpos m
  exact div_le_div₀ (by positivity) (pow_le_pow_of_le_one h0 h1 (ha hmn)) this (hc hmn)

theorem unit_frac {p X : Nat} (hX : X ≤ 2 ^ p) : 0 ≤ (X : ℝ) / 2 ^ p ∧ (X : ℝ) / 2 ^ p ≤ 1 := by
  refine ⟨by positivity, ?_⟩
  rw [div_le_one (by positivity)]
  exact_mod_cast hX

/-- `altLo` and `altHi` around the cosine of X/2^p, for 0 ≤ X/2^p ≤ 1. -/
theorem cos_enclosure {p X : Nat} (hX : X ≤ 2 ^ p) (n : Nat) :
    (altLo (cosTerm p X) n : ℝ) ≤ 2 ^ p * Real.cos ((X : ℝ) / 2 ^ p) ∧
      2 ^ p * Real.cos ((X : ℝ) / 2 ^ p) ≤ altHi (cosTerm p X) n := by
  obtain ⟨h0, h1⟩ := unit_frac hX
  refine alt_enclosure (f := fun n => ((X : ℝ) / 2 ^ p) ^ (2 * n) / ((2 * n).factorial : ℝ)) ?_ ?_ ?_ ?_ n
  · simpa only [mul_div_assoc] using Real.hasSum_cos ((X : ℝ) / 2 ^ p)
  · exact antitone_pow_div h0 h1 (fun a b h => by omega)
      (fun a b h => by exact_mod_cast Nat.factorial_le (by omega)) (fun n => by positivity)
  · exact fun i => (floor_term p X (2 * i) _ (Nat.factorial_pos _)).1
  · exact fun i => (floor_term p X (2 * i) _ (Nat.factorial_pos _)).2

/-- `altLo` and `altHi` around the sine of X/2^p, for 0 ≤ X/2^p ≤ 1. -/
theorem sin_enclosure {p X : Nat} (hX : X ≤ 2 ^ p) (n : Nat) :
    (altLo (sinTerm p X) n : ℝ) ≤ 2 ^ p * Real.sin ((X : ℝ) / 2 ^ p) ∧
      2 ^ p * Real.sin ((X : ℝ) / 2 ^ p) ≤ altHi (sinTerm p X) n := by
  obtain ⟨h0, h1⟩ := unit_frac hX
  refine alt_enclosure (f := fun n => ((X : ℝ) / 2 ^ p) ^ (2 * n + 1) / ((2 * n + 1).factorial : ℝ)) ?_ ?_ ?_ ?_ n
  · simpa only [mul_div_assoc] using Real.hasSum_sin ((X : ℝ) / 2 ^ p)
  · exact antitone_pow_div h0 h1 (fun a b h => by omega)
      (fun a b h => by exact_mod_cast Nat.factorial_le (by omega)) (fun n => by positivity)
  · exact fun i => (floor_term p X (2 * i + 1) _ (Nat.factorial_pos _)).1
  · exact fun i => (floor_term p X (2 * i + 1) _ (Nat.factorial_pos _)).2

/-! ### π -/

theorem atan_enclosure (p : Nat) {k : Nat} (hk : 2 ≤ k) (n : Nat) :
    (altLo (atanTerm p k) n : ℝ) ≤ 2 ^ p * Real.arctan ((k : ℝ)⁻¹) ∧
      2 ^ p * Real.arctan ((k : ℝ)⁻¹) ≤ altHi (atanTerm p k) n := by
  have hk0 : (0 : ℝ) < k := by exact_mod_cast (by omega : 0 < k)
  have h0 : (0 : ℝ) ≤ (k : ℝ)⁻¹ := by positivity
  have h1 : (k : ℝ)⁻¹ < 1 := inv_lt_one_of_one_lt₀ (by exact_mod_cast (by omega : 1 < k))
  have key : ∀ i, (2 : ℝ) ^ p * (((k : ℝ)⁻¹) ^ (2 * i + 1) / ((2 * i + 1 : Nat) : ℝ)) =
      ((2 ^ p : Nat) : ℝ) / (((2 * i + 1) * k ^ (2 * i + 1) : Nat) : ℝ) := by
    intro i
    push_cast
    rw [inv_pow]
    field_simp
  refine alt_enclosure (f := fun n => ((k : ℝ)⁻¹) ^ (2 * n + 1) / ((2 * n + 1 : Nat) : ℝ)) ?_ ?_ ?_ ?_ n
  · have := Real.hasSum_arctan (x := (k : ℝ)⁻¹) (by rw [Real.norm_of_nonneg h0]; exact h1)
    simpa only [mul_div_assoc] using this
  · exact antitone_pow_div h0 h1.le (fun a b h => by omega)
      (fun a b h => by exact_mod_cast (by omega)) (fun n => by positivity)
  · intro i; rw [key]; exact floor_le_div _ _
  · intro i; rw [key]; exact div_le_floor_add_one _ (by positivity)

/-- The two ends around π. -/
theorem pi_enclosure (p : Nat) : (piLo p : ℝ) ≤ 2 ^ p * Real.pi ∧ 2 ^ p * Real.pi ≤ piHi p := by
  have hp : (0 : ℝ) < 2 ^ p := by positivity
  obtain ⟨a1, a2⟩ := atan_enclosure p (k := 5) (by omega) (seriesTerms p)
  obtain ⟨b1, b2⟩ := atan_enclosure p (k := 239) (by omega) (seriesTerms p)
  have hm := Real.four_mul_arctan_inv_5_sub_arctan_inv_239
  push_cast at a1 a2 b1 b2
  have e : (2 : ℝ) ^ p * Real.pi =
      4 * (4 * (2 ^ p * Real.arctan 5⁻¹) - 2 ^ p * Real.arctan 239⁻¹) := by
    linear_combination (-4 * 2 ^ p) * hm
  constructor
  · rw [piLo, Nat.cast_mul, Nat.cast_ofNat, e]
    refine mul_le_mul_of_nonneg_left ?_ (by norm_num)
    refine cast_sub_le_of_nonneg ?_ ?_
    · push_cast; linarith
    · have := Real.pi_pos
      have : 0 < (2 : ℝ) ^ p * Real.pi := by positivity
      linarith
  · rw [piHi, Nat.cast_mul, Nat.cast_ofNat, e]
    refine mul_le_mul_of_nonneg_left ?_ (by norm_num)
    refine le_trans ?_ (sub_le_cast_sub _ _)
    push_cast; linarith

theorem angle_enclosure (p u : Nat) {v : Nat} (hv : 0 < v) :
    (angleLo p u v : ℝ) / 2 ^ p ≤ 2 * Real.pi * (u / v) ∧ 2 * Real.pi * (u / v) ≤ (angleHi p u v : ℝ) / 2 ^ p := by
  have hp : (0 : ℝ) < 2 ^ p := by positivity
  have hvR : (0 : ℝ) < v := by exact_mod_cast hv
  obtain ⟨h1, h2⟩ := pi_enclosure p
  constructor
  · rw [div_le_iff₀ hp]
    refine (floor_le_div _ _).trans ?_
    push_cast
    rw [div_le_iff₀ hvR]
    have : 2 * Real.pi * (u / v) * 2 ^ p * v = 2 * (2 ^ p * Real.pi) * u := by field_simp
    rw [this]
    gcongr
  · rw [le_div_iff₀ hp]
    have h3 := div_le_floor_add_one (2 * piHi p * u) hv
    rw [angleHi]
    push_cast at h3 ⊢
    refine le_trans ?_ h3
    rw [le_div_iff₀ hvR]
    have : 2 * Real.pi * (u / v) * 2 ^ p * v = 2 * (2 ^ p * Real.pi) * u := by field_simp
    rw [this]
    gcongr

/-! ### Logarithms -/

/-- The sum of a series whose terms halve from index n on is at most the first n terms and twice the next. -/
theorem halving_tail {f : ℕ → ℝ} {l : ℝ} (hs : HasSum f l) (n : ℕ) (h : ∀ i, n ≤ i → f (i + 1) ≤ f i / 2) :
    l ≤ ∑ i ∈ range n, f i + 2 * f n := by
  have hb : ∀ i, f (i + n) ≤ f n * (1 / 2) ^ i := by
    intro i
    induction i with
    | zero => simp
    | succ i ih =>
      have := h (i + n) (by omega)
      rw [show i + 1 + n = i + n + 1 by omega, pow_succ]
      linarith
  have hsum := hs.summable
  rw [← hs.tsum_eq, ← hsum.sum_add_tsum_nat_add n]
  have hg : HasSum (fun i : ℕ => f n * (1 / 2) ^ i) (f n * 2) := hasSum_geometric_two.mul_left _
  have := ((summable_nat_add_iff n).mpr hsum).tsum_le_tsum hb hg.summable
  rw [hg.tsum_eq] at this
  linarith

/-- artanh (a/b) by the logarithms, for 0 ≤ a/b ≤ 1/2. -/
theorem artanh_enclosure (p : Nat) {a b : Nat} (hb : 0 < b) (hab : 2 * a ≤ b) (n : Nat) :
    (2 * (atanhLo p a b n : ℝ)) ≤ 2 ^ p * (Real.log (1 + (a : ℝ) / b) - Real.log (1 - (a : ℝ) / b)) ∧
      2 ^ p * (Real.log (1 + (a : ℝ) / b) - Real.log (1 - (a : ℝ) / b)) ≤ 2 * (atanhHi p a b n : ℝ) := by
  have hbR : (0 : ℝ) < b := by exact_mod_cast hb
  have hp : (0 : ℝ) < 2 ^ p := by positivity
  obtain ⟨x, hx⟩ : ∃ x : ℝ, (a : ℝ) / b = x := ⟨_, rfl⟩
  have h0 : 0 ≤ x := by rw [← hx]; positivity
  have h1 : x ≤ 1 / 2 := by
    rw [← hx, div_le_div_iff₀ hbR (by norm_num)]
    have : (2 : ℝ) * a ≤ b := by exact_mod_cast hab
    linarith
  rw [hx]
  have hs := Real.hasSum_log_sub_log_of_abs_lt_one (x := x) (by rw [abs_of_nonneg h0]; linarith)
  have hT : ∀ i : ℕ, (2 : ℝ) ^ p * (2 * (1 / (2 * (i : ℝ) + 1)) * x ^ (2 * i + 1)) =
      2 * (((2 ^ p * a ^ (2 * i + 1) : Nat) : ℝ) / (((2 * i + 1) * b ^ (2 * i + 1) : Nat) : ℝ)) := by
    intro i
    push_cast
    rw [← hx, div_pow]
    field_simp
  have lo : ∀ i : ℕ, (2 * (atanhTerm p a b i : ℝ)) ≤ 2 ^ p * (2 * (1 / (2 * (i : ℝ) + 1)) * x ^ (2 * i + 1)) := by
    intro i; rw [hT]; exact mul_le_mul_of_nonneg_left (floor_le_div _ _) (by norm_num)
  have hi : ∀ i : ℕ, 2 ^ p * (2 * (1 / (2 * (i : ℝ) + 1)) * x ^ (2 * i + 1)) ≤ 2 * ((atanhTerm p a b i : ℝ) + 1) := by
    intro i; rw [hT]
    exact mul_le_mul_of_nonneg_left (div_le_floor_add_one _ (by positivity)) (by norm_num)
  constructor
  · have := sum_le_hasSum (range n) (fun i _ => by positivity) hs
    have h2 := mul_le_mul_of_nonneg_left this hp.le
    refine le_trans ?_ h2
    rw [atanhLo, sumTo_cast, mul_sum, mul_sum]
    exact sum_le_sum fun i _ => lo i
  · have := halving_tail hs n (fun i _ => by
      have e : x ^ (2 * (i + 1) + 1) = x ^ (2 * i + 1) * x ^ 2 := by ring
      have hx2 : x ^ 2 ≤ 1 / 2 := by nlinarith
      have hd : (1 : ℝ) / (2 * ((i + 1 : ℕ) : ℝ) + 1) ≤ 1 / (2 * (i : ℝ) + 1) := by
        apply one_div_le_one_div_of_le (by positivity); push_cast; linarith
      rw [e]
      have hA : (0 : ℝ) ≤ 1 / (2 * ((i + 1 : ℕ) : ℝ) + 1) := by positivity
      have hB : 0 ≤ x ^ (2 * i + 1) := by positivity
      have : 1 / (2 * ((i + 1 : ℕ) : ℝ) + 1) * (x ^ (2 * i + 1) * x ^ 2) ≤
          1 / (2 * (i : ℝ) + 1) * (x ^ (2 * i + 1) * (1 / 2)) := by gcongr
      linarith)
    have h2 := mul_le_mul_of_nonneg_left this hp.le
    refine h2.trans ?_
    rw [atanhHi, mul_add, mul_sum]
    push_cast
    rw [sumTo_cast]
    have e1 : ∑ i ∈ range n, 2 ^ p * (2 * (1 / (2 * (i : ℝ) + 1)) * x ^ (2 * i + 1)) ≤
        2 * (∑ i ∈ range n, (atanhTerm p a b i : ℝ) + n) := by
      calc _ ≤ ∑ i ∈ range n, 2 * ((atanhTerm p a b i : ℝ) + 1) := sum_le_sum fun i _ => hi i
        _ = _ := by rw [← mul_sum, sum_add_distrib]; simp
    have e2 := hi n
    linarith

theorem log_ratio {a b : ℝ} (hb : 0 < b) (h0 : 0 ≤ a) (hab : a < b) :
    Real.log (1 + a / b) - Real.log (1 - a / b) = Real.log ((b + a) / (b - a)) := by
  have h1 : 0 < b - a := by linarith
  rw [Real.log_div (by linarith) h1.ne']
  have e1 : 1 + a / b = (b + a) / b := by field_simp
  have e2 : 1 - a / b = (b - a) / b := by field_simp
  rw [e1, e2, Real.log_div (by linarith) hb.ne', Real.log_div h1.ne' hb.ne']
  ring

/-- The two ends around ln 2. -/
theorem ln2_enclosure (p : Nat) : (ln2Lo p : ℝ) ≤ 2 ^ p * Real.log 2 ∧ 2 ^ p * Real.log 2 ≤ ln2Hi p := by
  have h := artanh_enclosure p (a := 1) (b := 3) (by omega) (by omega) (seriesTerms p)
  have e := log_ratio (a := 1) (b := 3) (by norm_num) (by norm_num) (by norm_num)
  norm_num at h e
  rw [e] at h
  rw [ln2Lo, ln2Hi]
  push_cast
  exact h

/-- The two ends around ln 10. -/
theorem ln10_enclosure (p : Nat) : (ln10Lo p : ℝ) ≤ 2 ^ p * Real.log 10 ∧ 2 ^ p * Real.log 10 ≤ ln10Hi p := by
  have h := artanh_enclosure p (a := 1) (b := 9) (by omega) (by omega) (seriesTerms p)
  have e := log_ratio (a := 1) (b := 9) (by norm_num) (by norm_num) (by norm_num)
  norm_num at h e
  rw [e] at h
  have h2 := ln2_enclosure p
  have e10 : Real.log 10 = 3 * Real.log 2 + Real.log (5 / 4) := by
    have : (10 : ℝ) = 2 ^ 3 * (5 / 4) := by norm_num
    rw [this, Real.log_mul (by norm_num) (by norm_num), Real.log_pow]
    norm_num
  rw [ln10Lo, ln10Hi, e10]
  push_cast
  constructor
  · linarith [h.1, h2.1]
  · linarith [h.2, h2.2]

/-! ### Exponential -/

theorem expLo_le {p R : Nat} (n : Nat) : (expLo p R n : ℝ) ≤ 2 ^ p * Real.exp ((R : ℝ) / 2 ^ p) := by
  have h := Real.sum_le_exp_of_nonneg (x := (R : ℝ) / 2 ^ p) (by positivity) n
  have h2 := mul_le_mul_of_nonneg_left h (by positivity : (0 : ℝ) ≤ 2 ^ p)
  refine le_trans ?_ h2
  rw [expLo, sumTo_cast, mul_sum]
  exact sum_le_sum fun i _ => (floor_term p R i _ (Nat.factorial_pos _)).1

theorem le_expHi {p R n : Nat} (hR : R ≤ 2 ^ p) (hn : 0 < n) :
    2 ^ p * Real.exp ((R : ℝ) / 2 ^ p) ≤ (expHi p R n : ℝ) := by
  obtain ⟨h0, h1⟩ := unit_frac hR
  have hp : (0 : ℝ) < 2 ^ p := by positivity
  have h := Real.exp_bound' h0 h1 hn
  have h2 := mul_le_mul_of_nonneg_left h hp.le
  refine h2.trans ?_
  rw [expHi, mul_add, mul_sum]
  push_cast
  rw [sumTo_cast]
  have e1 : ∑ i ∈ range n, (2 : ℝ) ^ p * (((R : ℝ) / 2 ^ p) ^ i / (i.factorial : ℝ)) ≤
      ∑ i ∈ range n, (expTerm p R i : ℝ) + n := by
    calc _ ≤ ∑ i ∈ range n, ((expTerm p R i : ℝ) + 1) :=
          sum_le_sum fun i _ => (floor_term p R i _ (Nat.factorial_pos _)).2
      _ = _ := by rw [sum_add_distrib]; simp
  have e2 := (floor_term p R n _ (Nat.factorial_pos n)).2
  have hnR : (1 : ℝ) ≤ n := by exact_mod_cast hn
  have e3 : ((R : ℝ) / 2 ^ p) ^ n * ((n : ℝ) + 1) / ((n.factorial : ℝ) * n) ≤
      2 * (((R : ℝ) / 2 ^ p) ^ n / (n.factorial : ℝ)) := by
    rw [mul_div_mul_comm, mul_comm]
    refine mul_le_mul_of_nonneg_right ?_ (by positivity)
    rw [div_le_iff₀ (by linarith)]
    linarith
  have e4 := mul_le_mul_of_nonneg_left e3 hp.le
  have e5 : (2 : ℝ) ^ p * (((R : ℝ) / 2 ^ p) ^ n / (n.factorial : ℝ)) ≤ (expTerm p R n : ℝ) + 1 := e2
  linarith

end Sys2Proof.Machine
end

