-- ==== Sys2Proof/Laws/Cosine.lean ====
section
/-! SUPPORT. The cosine of a fraction of a turn: the exact comparison decides what it says it decides, and the cosine of at
most a quarter turn is correctly rounded. -/
namespace Sys2Proof.Machine

theorem unitsOne_cast : ((unitsOne : Nat) : ℝ) = 2 ^ 1074 := by rw [unitsOne, Nat.cast_pow, Nat.cast_ofNat]

theorem unitsOne_pos : 0 < unitsOne := by rw [unitsOne]; exact Nat.pow_pos Nat.two_pos

/-! ### Counting half turns -/

theorem sinSeq_spec {M D : Nat} {θ : ℝ} (hD : 0 < D) (hc : Real.cos θ = (M : ℝ) / D) (j : Nat) :
    ((sinSeq M D j).1 : ℝ) * D * Real.sin θ = Real.sin (j * θ) * D ^ j ∧
      ((sinSeq M D j).2 : ℝ) * Real.sin θ = Real.sin ((j + 1 : Nat) * θ) * D ^ j := by
  have hDR : (0 : ℝ) < D := by exact_mod_cast hD
  induction j with
  | zero => simp [sinSeq]
  | succ j ih =>
    obtain ⟨h1, h2⟩ := ih
    have hM : (M : ℝ) = Real.cos θ * D := by rw [hc]; field_simp
    refine ⟨?_, ?_⟩
    · rw [sinSeq, pow_succ, ← mul_assoc, ← h2]; ring
    · have ht : Real.sin ((j + 1 + 1 : Nat) * θ) =
          2 * Real.cos θ * Real.sin ((j + 1 : Nat) * θ) - Real.sin (j * θ) := by
        have e1 : ((j + 1 + 1 : Nat) : ℝ) * θ = (j + 1 : Nat) * θ + θ := by push_cast; ring
        have e2 : (j : ℝ) * θ = (j + 1 : Nat) * θ - θ := by push_cast; ring
        rw [e1, e2, Real.sin_add, Real.sin_sub]; ring
      rw [ht, sinSeq]
      push_cast at h1 h2 ⊢
      rw [hM, pow_succ]
      linear_combination 2 * Real.cos θ * D * h2 - D * h1

theorem sin_past {c : Nat} {t : ℝ} (h0 : (c : ℝ) * Real.pi < t) :
    Real.sin t = (-1) ^ c * Real.sin (t - c * Real.pi) ∧ 0 < t - c * Real.pi := by
  refine ⟨?_, by linarith⟩
  rw [← Real.sin_add_nat_mul_pi]; congr 1; ring

theorem sign_step {c : Nat} {t A K : ℝ} (hK : 0 < K) (hA : A * K = Real.sin t) (h0 : (c : ℝ) * Real.pi < t)
    (h2 : t < (c + 2) * Real.pi) :
    (c % 2 = 0 → (A < 0 ↔ (c + 1) * Real.pi < t)) ∧ (c % 2 = 1 → (0 < A ↔ (c + 1) * Real.pi < t)) := by
  obtain ⟨hs, hz⟩ := sin_past h0
  have hneg : Real.sin (t - c * Real.pi) < 0 ↔ (c + 1) * Real.pi < t := by
    constructor
    · intro h
      by_contra hc
      have := Real.sin_nonneg_of_nonneg_of_le_pi hz.le (by linarith)
      linarith
    · intro h
      have := Real.sin_pos_of_pos_of_lt_pi (x := t - c * Real.pi - Real.pi) (by linarith) (by linarith)
      rw [Real.sin_sub_pi] at this
      linarith
  constructor
  · intro hc
    rw [← hneg]
    have : ((-1 : ℝ)) ^ c = 1 := Even.neg_one_pow (Nat.even_iff.mpr hc)
    rw [this, one_mul] at hs
    rw [← hs, ← hA]
    exact ⟨fun h => mul_neg_of_neg_of_pos h hK, fun h => by by_contra hc'; exact absurd h (not_lt.mpr (mul_nonneg (not_lt.mp hc') hK.le))⟩
  · intro hc
    rw [← hneg]
    have : ((-1 : ℝ)) ^ c = -1 := Odd.neg_one_pow (Nat.odd_iff.mpr hc)
    have hs' : Real.sin (t - c * Real.pi) = -(A * K) := by rw [hA, hs, this]; ring
    rw [hs', neg_lt_zero]
    exact ⟨fun h => mul_pos h hK, fun h => by by_contra hc'; exact absurd h (not_lt.mpr (mul_nonpos_of_nonpos_of_nonneg (not_lt.mp hc') hK.le))⟩

/-- The count is the number of positive multiples of π below `jθ`. -/
theorem halfTurns_spec {M D : Nat} {θ : ℝ} (hD : 0 < D) (hc : Real.cos θ = (M : ℝ) / D) (h0 : 0 < θ)
    (hπ : θ < Real.pi) (j : Nat) (hj : 0 < j) :
    (halfTurns M D j : ℝ) * Real.pi < j * θ ∧ j * θ ≤ (halfTurns M D j + 1) * Real.pi := by
  induction j with
  | zero => omega
  | succ j ih =>
    rcases Nat.eq_zero_or_pos j with rfl | hj'
    · have : halfTurns M D (0 + 1) = 0 := by simp [halfTurns, sinSeq]
      rw [this]; simp; exact ⟨h0, hπ.le⟩
    · obtain ⟨i1, i2⟩ := ih hj'
      have hDR : (0 : ℝ) < D := by exact_mod_cast hD
      have hsin : 0 < Real.sin θ := Real.sin_pos_of_pos_of_lt_pi h0 hπ
      have e : ((j + 1 : Nat) : ℝ) * θ = j * θ + θ := by push_cast; ring
      have hA : ((sinSeq M D j).2 : ℝ) * (Real.sin θ / D ^ j) = Real.sin ((j + 1 : Nat) * θ) := by
        rw [← mul_div_assoc, (sinSeq_spec hD hc j).2]; field_simp
      have hst := sign_step (c := halfTurns M D j) (by positivity) hA (by rw [e]; linarith)
        (by rw [e]; linarith)
      have cast0 : ((sinSeq M D j).2 : ℝ) < 0 ↔ (sinSeq M D j).2 < 0 := by exact_mod_cast Iff.rfl
      have cast1 : 0 < ((sinSeq M D j).2 : ℝ) ↔ 0 < (sinSeq M D j).2 := by exact_mod_cast Iff.rfl
      rw [cast0, cast1] at hst
      have up : ((halfTurns M D j : ℝ) + 1) * Real.pi < (j + 1 : Nat) * θ →
          (((halfTurns M D j + 1 : Nat) : ℝ)) * Real.pi < (j + 1 : Nat) * θ ∧
            ((j + 1 : Nat) : ℝ) * θ ≤ (((halfTurns M D j + 1 : Nat) : ℝ) + 1) * Real.pi := by
        intro h
        push_cast at h ⊢
        refine ⟨h, ?_⟩
        linarith
      have stay : ¬ ((halfTurns M D j : ℝ) + 1) * Real.pi < (j + 1 : Nat) * θ →
          ((halfTurns M D j : Nat) : ℝ) * Real.pi < (j + 1 : Nat) * θ ∧
            ((j + 1 : Nat) : ℝ) * θ ≤ ((halfTurns M D j : Nat) + 1) * Real.pi := by
        intro h
        refine ⟨?_, not_lt.mp h⟩
        rw [e]; linarith
      rw [halfTurns]
      rcases Nat.mod_two_eq_zero_or_one (halfTurns M D j) with hp | hp
      · rw [if_pos hp]
        split
        · next hs => exact up ((hst.1 hp).mp hs)
        · next hs => exact stay (fun h => hs ((hst.1 hp).mpr h))
      · rw [if_neg (by omega)]
        split
        · next hs => exact up ((hst.2 hp).mp hs)
        · next hs => exact stay (fun h => hs ((hst.2 hp).mpr h))

/-! ### The comparison -/

theorem midUnits_pos (b : Nat) : 0 < midUnits b := by
  have := bitsMag_succ b
  rw [midUnits]; omega

theorem quarter_angle {u v : Nat} (hu : 0 < u) (hv : 4 * u < v) :
    0 < 2 * Real.pi * ((u : ℝ) / v) ∧ 2 * Real.pi * ((u : ℝ) / v) < Real.pi / 2 := by
  have huR : (0 : ℝ) < u := by exact_mod_cast hu
  have hvR : (0 : ℝ) < v := by exact_mod_cast (by omega : 0 < v)
  have hπ := Real.pi_pos
  refine ⟨by positivity, ?_⟩
  have : (u : ℝ) / v < 1 / 4 := by
    rw [div_lt_div_iff₀ hvR (by norm_num)]
    have : (4 : ℝ) * u < v := by exact_mod_cast hv
    linarith
  nlinarith

/-- The exact comparison of cos(2π·u/v), 0 < u/v < 1/4, with the point half way above `b`. -/
theorem cosAbove_iff {u v : Nat} (hu : 0 < u) (hv : 4 * u < v) (b : Nat) :
    cosAbove u v b = true ↔ b < infBits ∧
      ((midUnits b : ℝ) < 2 * (Real.cos (2 * Real.pi * (u / v)) * 2 ^ 1074) ∨
        (midUnits b : ℝ) = 2 * (Real.cos (2 * Real.pi * (u / v)) * 2 ^ 1074) ∧ b % 2 = 1) := by
  obtain ⟨hθ0, hθ1⟩ := quarter_angle hu hv
  have hπ := Real.pi_pos
  have hvR : (0 : ℝ) < v := by exact_mod_cast (by omega : 0 < v)
  generalize hθ : 2 * Real.pi * ((u : ℝ) / v) = θ at *
  have hvθ : (v : ℝ) * θ = (2 * u : Nat) * Real.pi := by rw [← hθ]; push_cast; field_simp
  have hD : 0 < 2 * unitsOne := Nat.mul_pos Nat.two_pos unitsOne_pos
  obtain ⟨D, hDdef⟩ : ∃ D, 2 * unitsOne = D := ⟨_, rfl⟩
  rw [hDdef] at hD
  have hDR : (0 : ℝ) < D := by exact_mod_cast hD
  have hcast : 2 * (Real.cos θ * 2 ^ 1074) = Real.cos θ * D := by
    rw [← hDdef, Nat.cast_mul, unitsOne_cast, Nat.cast_ofNat, mul_left_comm]
  have hM := midUnits_pos b
  rw [cosAbove, hcast, hDdef, Bool.and_eq_true, decide_eq_true_iff, roundsAbove_iff]
  clear hcast hDdef
  obtain ⟨M, hMdef⟩ : ∃ M, midUnits b = M := ⟨_, rfl⟩
  rw [hMdef] at hM ⊢
  have hMR : (0 : ℝ) < M := by exact_mod_cast hM
  have hcos1 : Real.cos θ < 1 := by
    have := Real.cos_lt_cos_of_nonneg_of_le_pi le_rfl (by linarith) hθ0
    rwa [Real.cos_zero] at this
  rcases Nat.lt_or_ge M D with hlt | hge
  · have hMD : (M : ℝ) < D := by exact_mod_cast hlt
    have hq1 : (M : ℝ) / D < 1 := (div_lt_one hDR).mpr hMD
    have hq0 : 0 < (M : ℝ) / D := by positivity
    obtain ⟨φ, hφ⟩ : ∃ φ, Real.arccos ((M : ℝ) / D) = φ := ⟨_, rfl⟩
    have hcφ : Real.cos φ = (M : ℝ) / D := by rw [← hφ]; exact Real.cos_arccos (by linarith) hq1.le
    have hφ0 : 0 < φ := by rw [← hφ]; exact Real.arccos_pos.mpr hq1
    have hφ1 : φ < Real.pi := by
      have : φ ≤ Real.pi / 2 := by rw [← hφ]; exact Real.arccos_le_pi_div_two.mpr hq0.le
      linarith
    obtain ⟨s1, s2⟩ := halfTurns_spec hD hcφ hφ0 hφ1 v (by omega)
    obtain ⟨c, hcdef⟩ : ∃ c, halfTurns M D v = c := ⟨_, rfl⟩
    rw [hcdef] at s1 s2 ⊢
    have hpast : (M : ℝ) < Real.cos θ * D ↔ 2 * u ≤ c := by
      rw [← div_lt_iff₀ hDR, ← hcφ]
      have : Real.cos φ < Real.cos θ ↔ θ < φ :=
        Real.strictAntiOn_cos.lt_iff_gt ⟨hφ0.le, hφ1.le⟩ ⟨hθ0.le, by linarith⟩
      rw [this, ← mul_lt_mul_iff_right₀ hvR, hvθ]
      constructor
      · intro h
        have h2 : ((2 * u : Nat) : ℝ) * Real.pi < ((c + 1 : Nat) : ℝ) * Real.pi := by push_cast at *; linarith
        have h3 : ((2 * u : Nat) : ℝ) < ((c + 1 : Nat) : ℝ) := lt_of_mul_lt_mul_right h2 hπ.le
        have : 2 * u < c + 1 := by exact_mod_cast h3
        omega
      · intro h
        have : ((2 * u : Nat) : ℝ) ≤ c := by exact_mod_cast h
        have := mul_le_mul_of_nonneg_right this hπ.le
        linarith
    have hon : (M : ℝ) = Real.cos θ * D ↔ (sinSeq M D v).1 = 0 ∧ c + 1 = 2 * u := by
      rw [← div_eq_iff hDR.ne', ← hcφ]
      have hsinφ : 0 < Real.sin φ := Real.sin_pos_of_pos_of_lt_pi hφ0 hφ1
      have hA := (sinSeq_spec hD hcφ v).1
      constructor
      · intro h
        have heq : φ = θ := Real.injOn_cos ⟨hφ0.le, hφ1.le⟩ ⟨hθ0.le, by linarith⟩ h
        have hv2 : (v : ℝ) * φ = (2 * u : Nat) * Real.pi := by rw [heq, hvθ]
        refine ⟨?_, ?_⟩
        · rw [hv2, Real.sin_nat_mul_pi, zero_mul] at hA
          have : ((sinSeq M D v).1 : ℝ) = 0 := by
            rcases mul_eq_zero.mp hA with h4 | h4
            · rcases mul_eq_zero.mp h4 with h5 | h5
              · exact h5
              · exact absurd h5 hDR.ne'
            · exact absurd h4 hsinφ.ne'
          exact_mod_cast this
        · rw [hv2] at s1 s2
          have a1 : (c : ℝ) < (2 * u : Nat) := lt_of_mul_lt_mul_right s1 hπ.le
          have a2 : ((2 * u : Nat) : ℝ) ≤ ((c + 1 : Nat) : ℝ) := by
            push_cast at s2 ⊢; exact le_of_mul_le_mul_right s2 hπ
          have b1 : c < 2 * u := by exact_mod_cast a1
          have b2 : 2 * u ≤ c + 1 := by exact_mod_cast a2
          omega
      · rintro ⟨h1, h2⟩
        rw [h1, Int.cast_zero, zero_mul, zero_mul] at hA
        have hsv : Real.sin (v * φ) = 0 := by
          rcases mul_eq_zero.mp hA.symm with h4 | h4
          · exact h4
          · exact absurd h4 (by positivity)
        have hvφ : (v : ℝ) * φ = (c + 1) * Real.pi := by
          by_contra hne
          obtain ⟨t1, t2⟩ := sin_past s1
          have hlt2 : (v : ℝ) * φ < (c + 1) * Real.pi := lt_of_le_of_ne s2 hne
          have := Real.sin_pos_of_pos_of_lt_pi t2 (by linarith)
          rw [hsv] at t1
          rcases mul_eq_zero.mp t1.symm with h5 | h5
          · exact absurd h5 (pow_ne_zero _ (by norm_num))
          · linarith
        have : (v : ℝ) * φ = v * θ := by rw [hvφ, hvθ, ← h2]; push_cast; ring
        rw [mul_left_cancel₀ hvR.ne' this]
    rw [hpast, hon]
    simp only [hlt, true_and, decide_eq_true_eq, Bool.and_eq_true, beq_iff_eq]
  · have hMD : (D : ℝ) ≤ M := by exact_mod_cast hge
    have : Real.cos θ * D < M := by nlinarith
    constructor
    · rintro ⟨h1, _⟩; omega
    · rintro ⟨_, h1 | ⟨h1, _⟩⟩ <;> linarith

/-! ### The quarter turn -/

theorem settle_scaled {lo hi p b : Nat} {y : ℝ} (h : settle (lo * unitsOne) (2 ^ p) (hi * unitsOne) (2 ^ p) = some b)
    (hl : (lo : ℝ) ≤ 2 ^ p * y) (hh : 2 ^ p * y ≤ hi) : NearestBits (y * 2 ^ 1074) b := by
  have hp : (0 : ℝ) < 2 ^ p := by positivity
  have hU : (0 : ℝ) ≤ 2 ^ 1074 := by positivity
  refine settle_nearest h (Nat.pow_pos Nat.two_pos) (Nat.pow_pos Nat.two_pos) ?_ ?_ <;>
    rw [Nat.cast_mul, unitsOne_cast, Nat.cast_pow, Nat.cast_ofNat]
  · rw [div_le_iff₀ hp, mul_right_comm, mul_comm y]
    exact mul_le_mul_of_nonneg_right hl hU
  · rw [le_div_iff₀ hp, mul_right_comm, mul_comm y]
    exact mul_le_mul_of_nonneg_right hh hU

theorem cosOctAt_nearest {u v p b : Nat} (hv : 0 < v) (h : cosOctAt u v p = some b) :
    NearestBits (Real.cos (2 * Real.pi * (u / v)) * 2 ^ 1074) b := by
  unfold cosOctAt at h
  split at h
  · next hle =>
    obtain ⟨a1, a2⟩ := angle_enclosure p u hv
    have hlohi : angleLo p u v ≤ 2 ^ p := by
      have : (angleLo p u v : ℝ) ≤ angleHi p u v := by
        have := a1.trans a2
        rwa [div_le_div_iff_of_pos_right (by positivity)] at this
      have : angleLo p u v ≤ angleHi p u v := by exact_mod_cast this
      omega
    have h1 := unit_frac hle
    have h2 := unit_frac hlohi
    have hπ : (1 : ℝ) ≤ Real.pi := by linarith [Real.pi_gt_three]
    have hp : (0 : ℝ) ≤ 2 ^ p := by positivity
    refine settle_scaled h ((cos_enclosure hle _).1.trans ?_) (le_trans ?_ (cos_enclosure hlohi _).2)
    · exact mul_le_mul_of_nonneg_left
        (Real.cos_le_cos_of_nonneg_of_le_pi (by linarith [h2.1]) (by linarith [h1.2]) a2) hp
    · exact mul_le_mul_of_nonneg_left
        (Real.cos_le_cos_of_nonneg_of_le_pi h2.1 (by linarith [h1.2]) a1) hp
  · cases h

theorem sinOctAt_nearest {u v p b : Nat} (hv : 0 < v) (h : sinOctAt u v p = some b) :
    NearestBits (Real.sin (2 * Real.pi * (u / v)) * 2 ^ 1074) b := by
  unfold sinOctAt at h
  split at h
  · next hle =>
    obtain ⟨a1, a2⟩ := angle_enclosure p u hv
    have hlohi : angleLo p u v ≤ 2 ^ p := by
      have : (angleLo p u v : ℝ) ≤ angleHi p u v := by
        have := a1.trans a2
        rwa [div_le_div_iff_of_pos_right (by positivity)] at this
      have : angleLo p u v ≤ angleHi p u v := by exact_mod_cast this
      omega
    have h1 := unit_frac hle
    have h2 := unit_frac hlohi
    have hπ : (3 : ℝ) ≤ Real.pi := by linarith [Real.pi_gt_three]
    have hp : (0 : ℝ) ≤ 2 ^ p := by positivity
    refine settle_scaled h ((sin_enclosure hlohi _).1.trans ?_) (le_trans ?_ (sin_enclosure hle _).2)
    · exact mul_le_mul_of_nonneg_left
        (Real.sin_le_sin_of_le_of_le_pi_div_two (by linarith [h2.1]) (by linarith [h1.2]) a1) hp
    · exact mul_le_mul_of_nonneg_left
        (Real.sin_le_sin_of_le_of_le_pi_div_two (by linarith [h2.1]) (by linarith [h1.2]) a2) hp
  · cases h

theorem rneBits_one_nearest : NearestBits (1 * 2 ^ 1074) (rneBits unitsOne 1) := by
  have := rneBits_nearest unitsOne (d := 1) (by omega)
  rwa [unitsOne_cast, Nat.cast_one, div_one, ← one_mul ((2 : ℝ) ^ 1074)] at this

/-- The rounded ±cosine of at most a quarter turn. -/
theorem cosQuarter_isRne (neg : Bool) {u v : Nat} (hv : 0 < v) (h : 4 * u ≤ v) :
    IsRne ((if neg then -1 else 1) * Real.cos (2 * Real.pi * (u / v))) (cosQuarter neg u v) := by
  have hvR : (0 : ℝ) < v := by exact_mod_cast hv
  have hπ := Real.pi_pos
  have fromBits : ∀ {y : ℝ} {b : Nat}, 0 < y → NearestBits (y * 2 ^ 1074) b →
      IsRne ((if neg then -1 else 1) * y) (mkF64 neg b) := by
    intro y b hy hb
    refine isRne_of_nearest ?_ ?_
    · have : |(if neg then -1 else 1) * y| = y := by cases neg <;> simp [abs_of_pos hy]
      rwa [this]
    · cases neg
      · simpa using hy.le
      · simpa using hy
  by_cases h0 : u = 0
  · rw [cosQuarter, if_pos h0, h0, Nat.cast_zero, zero_div, mul_zero, Real.cos_zero]
    exact fromBits one_pos rneBits_one_nearest
  · by_cases h4 : 4 * u = v
    · rw [cosQuarter, if_neg h0, if_pos h4]
      have hq : 2 * Real.pi * ((u : ℝ) / v) = Real.pi / 2 := by
        have hu0 : (u : ℝ) ≠ 0 := by exact_mod_cast h0
        have : (v : ℝ) = 4 * u := by rw [← h4]; push_cast; rfl
        rw [this]
        field_simp
        norm_num
      rw [hq, Real.cos_pi_div_two, mul_zero]
      refine isRne_of_nearest ?_ (by simp)
      have := rneBits_nearest 0 (d := 1) (by omega)
      rw [Nat.cast_zero, zero_div] at this
      rw [abs_zero, zero_mul]
      exact this
    · rw [cosQuarter, if_neg h0, if_neg h4]
      have hu : 0 < u := by omega
      have hlt : 4 * u < v := by omega
      obtain ⟨q0, q1⟩ := quarter_angle hu hlt
      refine fromBits (Real.cos_pos_of_mem_Ioo ⟨by linarith, q1⟩) ?_
      refine refRound_nearest ?_ (cosAbove_iff hu hlt)
      intro p _ b hb
      by_cases h8 : 8 * u ≤ v
      · rw [if_pos h8] at hb
        exact cosOctAt_nearest hv hb
      · rw [if_neg h8] at hb
        have := sinOctAt_nearest (by omega) hb
        have e : 2 * Real.pi * (((v - 4 * u : Nat) : ℝ) / ((4 * v : Nat) : ℝ)) =
            Real.pi / 2 - 2 * Real.pi * (u / v) := by
          rw [Nat.cast_sub h]; push_cast; field_simp; ring
        rwa [e, Real.sin_pi_div_two_sub] at this

/-- `cosHalf` is RNE of the cosine of half a turn's fraction. -/
theorem cosHalf_isRne {r d : Nat} (hd : 0 < d) (h : 2 * r ≤ d) :
    IsRne (Real.cos (2 * Real.pi * (r / d))) (cosHalf r d) := by
  have hdR : (0 : ℝ) < d := by exact_mod_cast hd
  unfold cosHalf
  by_cases h4 : 4 * r ≤ d
  · rw [if_pos h4]; simpa using cosQuarter_isRne false hd h4
  · rw [if_neg h4]
    have := cosQuarter_isRne true (u := d - 2 * r) (v := 2 * d) (by omega) (by omega)
    rw [if_pos rfl] at this
    have e : 2 * Real.pi * (((d - 2 * r : Nat) : ℝ) / ((2 * d : Nat) : ℝ)) = Real.pi - 2 * Real.pi * (r / d) := by
      rw [Nat.cast_sub h]; push_cast; field_simp
    rw [e, Real.cos_pi_sub] at this
    simpa using this

/-- `cosTurns` is RNE of the cosine of any fraction of a turn (`40_numerics.md` R150, R151). -/
theorem cosTurns_isRne (n : Nat) {d : Nat} (hd : 0 < d) :
    IsRne (Real.cos (2 * Real.pi * (n / d))) (cosTurns n d) := by
  have hdR : (0 : ℝ) < d := by exact_mod_cast hd
  have hdiv : (n : ℝ) / d = (n % d : Nat) / d + (n / d : Nat) := by
    have : (n : ℝ) = (d * (n / d) + n % d : Nat) := by rw [Nat.div_add_mod]
    rw [this]; push_cast; field_simp; ring
  have hred : Real.cos (2 * Real.pi * (n / d)) = Real.cos (2 * Real.pi * ((n % d : Nat) / d)) := by
    rw [hdiv, mul_add, mul_comm (2 * Real.pi) ((n / d : Nat) : ℝ), Real.cos_add_nat_mul_two_pi]
  rw [hred]
  have hlt := Nat.mod_lt n hd
  unfold cosTurns
  by_cases h : 2 * (n % d) ≤ d
  · rw [if_pos h]; exact cosHalf_isRne hd h
  · rw [if_neg h]
    have := cosHalf_isRne hd (r := d - n % d) (by omega)
    have e : 2 * Real.pi * (((d - n % d : Nat) : ℝ) / d) = 2 * Real.pi - 2 * Real.pi * ((n % d : Nat) / d) := by
      rw [Nat.cast_sub hlt.le]; field_simp
    rwa [e, Real.cos_two_pi_sub] at this

end Sys2Proof.Machine
end

