-- ==== Sys2Proof/Laws/HostPort.lean ====
section
/-! SUPPORT. What an access through CORE's ports can do, said once: a register access at the offset of a register or at a
reserved one, and a DMEM access of any width in both directions, the race mark and the draws included. -/
namespace Sys2Proof.Machine

variable (s : State)

/-! ### The register port -/

@[simp] theorem regAt_regOffset (n : RegName) : regAt (regOffset n) = some n := by cases n <;> rfl

@[simp] theorem regOffsetOk_regOffset (n : RegName) : regOffsetOk (regOffset n) = true := by cases n <;> rfl

theorem regAt_reserved : ∀ off : BitVec 12, off = 0x01C#12 ∨ 0x060 ≤ off.toNat → regAt off = none := by decide +kernel

theorem onRegWrite_regOffset {s : State} (h : s.resetLevel = false) (n : RegName) (v : Word) :
    s.onRegWrite (regOffset n) 4 v = .next (s.writeReg n v) := by
  simp [State.onRegWrite, regWidthOk, h, State.writeOffset]

theorem onRegRead_regOffset {s : State} (h : s.resetLevel = false) (n : RegName) :
    s.onRegRead (regOffset n) 4 = .next { s with rdata := (s.readReg n).setWidth 64 } := by
  simp [State.onRegRead, regWidthOk, h, State.readOffset]

/-! ### The DMEM port -/

theorem touches_iff {fs : List Footprint} {a n : Nat} :
    touches fs a n = true ↔ ∃ i < n, anyHas fs (a + i) = true := by
  simp [touches]

theorem touches_eq_false {fs : List Footprint} {a n : Nat} :
    touches fs a n = false ↔ ∀ i < n, anyHas fs (a + i) = false := by
  simp [touches]

/-- An access that keeps the HOST's duties, with RESET released, is the port's operation. -/
theorem onMemWrite_ok {s : State} {a w : Nat} (h : s.resetLevel = false) (hw : w ∈ [1, 2, 4, 8]) (ha : a % w = 0)
    (v : BitVec 64) : s.onMemWrite a w v = .next (s.memPortWrite a w v) := by
  fin_cases hw <;> simp_all [State.onMemWrite, memWidthOk, memAlignOk]

theorem onMemRead_ok {s : State} {a w : Nat} (h : s.resetLevel = false) (hw : w ∈ [1, 2, 4, 8]) (ha : a % w = 0) :
    s.onMemRead a w = .next (s.memPortRead a w) := by
  fin_cases hw <;> simp_all [State.onMemRead, memWidthOk, memAlignOk]

/-- Byte k of the little-endian bytes of a value. -/
theorem getElem?_leBytes (n v k : Nat) (hk : k < n) : (leBytes n v)[k]? = some (BitVec.ofNat 8 (v / 256 ^ k)) := by
  induction n generalizing v k with
  | zero => omega
  | succ n ih =>
    cases k with
    | zero => simp [leBytes]
    | succ k => simp [leBytes, ih _ _ (Nat.lt_of_succ_lt_succ hk), Nat.div_div_eq_div_mul, pow_succ, Nat.mul_comm]

/-- Byte k of the integer that a list of bytes composes to. -/
theorem leNat_div_mod (bs : List Byte) (k : Nat) (b : Byte) (h : bs[k]? = some b) :
    leNat bs / 256 ^ k % 256 = b.toNat := by
  induction bs generalizing k with
  | nil => simp at h
  | cons c cs ih =>
    have hc : c.toNat < 256 := c.isLt
    cases k with
    | zero => simp at h; subst h; rw [leNat]; omega
    | succ k =>
      rw [leNat, pow_succ, Nat.mul_comm (256 ^ k), ← Nat.div_div_eq_div_mul,
        show (c.toNat + 256 * leNat cs) / 256 = leNat cs by omega]
      exact ih k (by simpa using h)

theorem extract_byte (v : BitVec 64) (k : Nat) :
    v.extractLsb' (8 * k) 8 = BitVec.ofNat 8 (v.toNat / 256 ^ k) := by
  apply BitVec.eq_of_toNat_eq
  simp [BitVec.extractLsb'_toNat, Nat.shiftRight_eq_div_pow, pow_mul]

/-- What a DMEM write that fits leaves of every byte. -/
theorem byteAt_memWrite (a w : Nat) (v : BitVec 64) (b : Nat) :
    (s.memWrite a w v.toNat).byteAt b =
      if a ≤ b ∧ b < a + w then v.extractLsb' (8 * (b - a)) 8 else s.byteAt b := by
  rw [State.memWrite, byteAt_storeBytes]
  by_cases h : a ≤ b ∧ b < a + w
  · simp [h, getElem?_leBytes w v.toNat (b - a) (by omega), extract_byte]
  · simp [h]

/-- What a DMEM read that fits gives back, as an integer: the HOST's bytes, least significant first. -/
theorem toNat_rdata_memPortRead {a w : Nat} (hw : w ≤ 8) (hf : a + w ≤ s.params.dmemSize) :
    (s.memPortRead a w).rdata.toNat = leNat ((List.range w).map (fun i => s.hostByte (a + i))) := by
  rw [State.memPortRead, if_pos hf]
  refine Nat.mod_eq_of_lt ((leNat_lt _).trans_le ?_)
  rw [List.length_map, List.length_range]
  exact Nat.pow_le_pow_right (n := 256) (by omega) hw

theorem rdata_memPortRead_lt {a w : Nat} (hw : w ≤ 8) (hf : a + w ≤ s.params.dmemSize) :
    (s.memPortRead a w).rdata.toNat < 256 ^ w := by
  rw [toNat_rdata_memPortRead s hw hf]
  simpa using leNat_lt ((List.range w).map (fun i => s.hostByte (a + i)))

/-- Byte k of what a DMEM read that fits gives back. -/
theorem rdata_memPortRead {a w k : Nat} (hw : w ≤ 8) (hf : a + w ≤ s.params.dmemSize) (hk : k < w) :
    (s.memPortRead a w).rdata.extractLsb' (8 * k) 8 = s.hostByte (a + k) := by
  apply BitVec.eq_of_toNat_eq
  rw [extract_byte, BitVec.toNat_ofNat, toNat_rdata_memPortRead s hw hf]
  exact leNat_div_mod _ k _ (by simp [hk])

/-- What a DMEM write that fits does to the command in flight: the race mark, and nothing else. -/
theorem memPortWrite_inFlight {a w : Nat} (hf : a + w ≤ s.params.dmemSize) (v : BitVec 64) :
    (s.memPortWrite a w v).inFlight =
      s.inFlight.map (fun l => { l with raced := l.raced || touches (l.reads ++ l.writes) a w }) := by
  rw [State.memPortWrite, if_pos hf]
  cases h : s.inFlight <;> simp [State.markRace, State.memWrite, State.storeBytes, h]

/-- A DMEM write that fits changes DMEM and the race mark alone. -/
theorem memPortWrite_frame {a w : Nat} (hf : a + w ≤ s.params.dmemSize) (v : BitVec 64) :
    s.memPortWrite a w v =
      { s with dmem := (s.memWrite a w v.toNat).dmem, inFlight := (s.memPortWrite a w v).inFlight } := by
  rw [State.memPortWrite, if_pos hf]
  cases h : s.inFlight <;> simp [State.markRace, State.memWrite, State.storeBytes, h]

end Sys2Proof.Machine
end

