-- ==== Sys2Proof/Laws/Invariant.lean ====
section
/-! SUPPORT. The invariant of the machine, operation by operation: each named operation a step is made of keeps it. -/
namespace Sys2Proof.Machine

variable {s : State}

theorem snapshot_congr {s t : State} (hr : t.regs = s.regs) (hm : t.metaValid = s.metaValid) :
    t.snapshot = s.snapshot := by
  simp [State.snapshot, hr, hm]

theorem errorCode_bounds (e : ErrorKind) : (errorCode e).toNat ≤ 11 ∧ errorCode e ≠ 0 := by
  cases e <;> decide

/-- An error completion keeps the invariant. -/
theorem Inv_errorComplete (h : s.Inv) (e : ErrorKind) : (s.errorComplete e).Inv where
  params := h.params
  canonical := h.canonical
  inside := h.inside
  codes := (errorCode_bounds e).1
  errHasCode := fun _ => (errorCode_bounds e).2
  lastOp := h.lastOp
  srate := h.srate
  flight := fun _ hl => by simp at hl
  drawn := h.drawn

/-- The success completion of a command keeps the invariant. -/
theorem Inv_success (h : s.Inv) {i : Instr} (he : commandError i s = none) :
    (commandEffects i s).successComplete.Inv := by
  obtain ⟨hp, -, hst, hc, hsr, -, -, hcd, hd, -, -, hv⟩ := commandEffects_frame i s
  refine ⟨?_, ?_, ?_, ?_, ?_, ?_, ?_, ?_, ?_⟩
  · simpa [hp] using h.params
  · simpa using commandEffects_wf i h.canonical
  · simpa [hp] using commandEffects_below h.inside he
  · simpa [hst] using h.codes
  · simpa [hst] using h.errHasCode
  · simpa [hst, hc] using h.lastOp
  · simpa [hsr, hv] using h.srate
  · intro l hl; simp at hl
  · simpa [hcd, hd] using h.drawn

/-- Drawing footprints keeps the invariant. -/
theorem Inv_drawFootprints (h : s.Inv) (fs : List Footprint) : (s.drawFootprints fs).Inv where
  params := h.params
  canonical := Memory.wf_drawAll _ _ h.canonical
  inside := Memory.below_drawAll _ _ _ h.inside
  codes := h.codes
  errHasCode := h.errHasCode
  lastOp := h.lastOp
  srate := h.srate
  flight := h.flight
  drawn := Nat.lt_succ_of_lt h.drawn

theorem Inv_settleRace (h : s.Inv) (l : Latched) : (s.settleRace l).Inv := by
  unfold State.settleRace
  split
  · exact Inv_drawFootprints h _
  · exact h

/-- The completion step keeps the invariant. -/
theorem Inv_complete (h : s.Inv) {l : Latched} {t : State} (ht : s.complete l = .next t) : t.Inv := by
  unfold State.complete at ht
  cases hop : l.op with
  | illegal w =>
    simp only [hop, Host.Outcome.next.injEq] at ht
    exact ht ▸ Inv_settleRace (Inv_errorComplete h _) l
  | command i =>
    rcases exec_cases i s with ⟨e, -, hx⟩ | ⟨hn, hx⟩ <;> simp only [hop, hx, Host.Outcome.next.injEq] at ht
    · exact ht ▸ Inv_settleRace (Inv_errorComplete h _) l
    · exact ht ▸ Inv_settleRace (Inv_success h hn) l

/-- The sequencer's turn keeps the invariant. -/
theorem Inv_coreTurn (h : s.Inv) {t : State} (ht : s.coreTurn = .next t) : t.Inv := by
  unfold State.coreTurn at ht
  split at ht
  · cases ht; exact h
  · split at ht
    · exact Inv_complete h ht
    · cases ht; exact h

theorem Inv_setBusyWr (h : s.Inv) : s.setBusyWr.Inv :=
  ⟨h.params, h.canonical, h.inside, h.codes, h.errHasCode, h.lastOp, h.srate, h.flight, h.drawn⟩

theorem Inv_statusWrite (h : s.Inv) (v : Word) : (s.statusWrite v).Inv where
  params := h.params
  canonical := h.canonical
  inside := h.inside
  codes := h.codes
  errHasCode := fun he => h.errHasCode (by simp only [statusWrite_status, Bool.and_eq_true] at he; exact he.1)
  lastOp := h.lastOp
  srate := h.srate
  flight := fun l hl => by
    obtain ⟨h1, h2, h3, h4, h5⟩ := h.flight l hl
    exact ⟨h1, h2, by simp [h3], by simp [h4], h5⟩
  drawn := h.drawn

theorem Inv_accept (h : s.Inv) (c : Word) : (s.accept c).Inv where
  params := h.params
  canonical := h.canonical
  inside := h.inside
  codes := by simp
  errHasCode := fun he => by simp at he
  lastOp := rfl
  srate := h.srate
  flight := fun l hl => by
    simp only [accept_inFlight, Option.some.injEq] at hl
    subst hl
    exact ⟨rfl, rfl, rfl, rfl, rfl⟩
  drawn := h.drawn

theorem Inv_resetRegs (h : s.Inv) : s.resetRegs.Inv where
  params := h.params
  canonical := h.canonical
  inside := h.inside
  codes := by simp [StatusReg.reset]
  errHasCode := fun he => by simp [StatusReg.reset] at he
  lastOp := (by decide : (0 : BitVec 8) = opField 0)
  srate := fun hv => by simp [MetaValid.reset] at hv
  flight := fun _ hl => by simp at hl
  drawn := h.drawn

theorem Inv_softReset (h : s.Inv) : s.softReset.Inv := by
  unfold State.softReset State.abandon
  split
  · exact Inv_resetRegs (Inv_drawFootprints h _)
  · exact Inv_resetRegs h

theorem Inv_hardReset (h : s.Inv) : s.hardReset.Inv where
  params := h.params
  canonical := rfl
  inside := fun c hc => by simp at hc
  codes := by simp [StatusReg.reset]
  errHasCode := fun he => by simp [StatusReg.reset] at he
  lastOp := (by decide : (0 : BitVec 8) = opField 0)
  srate := fun hv => by simp [MetaValid.reset] at hv
  flight := fun _ hl => by simp at hl
  drawn := by simp

/-- A change of nothing but CTRL, the RESET level, the script, the turns, the read data and the draw counter upward keeps
the invariant. -/
theorem Inv_of_outer {s t : State} (h : s.Inv) (hp : t.params = s.params) (hs : t.status = s.status)
    (hc : t.cmd = s.cmd) (hm : t.metaValid = s.metaValid) (hr : t.regs = s.regs) (hsr : t.srate = s.srate)
    (hf : t.inFlight = s.inFlight) (hd : t.dmem = s.dmem) (hcd : t.coldDraw = s.coldDraw)
    (hn : s.draws ≤ t.draws) : t.Inv where
  params := hp ▸ h.params
  canonical := hd ▸ h.canonical
  inside := by rw [hd, hp]; exact h.inside
  codes := hs ▸ h.codes
  errHasCode := hs ▸ h.errHasCode
  lastOp := by rw [hs, hc]; exact h.lastOp
  srate := by rw [hm, hsr]; exact h.srate
  flight := fun l hl => by
    have := h.flight l (hf ▸ hl)
    rw [snapshot_congr hr hm, hc, hs]
    exact this
  drawn := by rw [hcd]; exact lt_of_lt_of_le h.drawn hn

theorem Inv_ctrlWrite (h : s.Inv) (v : Word) : (s.ctrlWrite v).Inv := by
  unfold State.ctrlWrite
  split
  · exact Inv_softReset h
  · exact Inv_of_outer h rfl rfl rfl rfl rfl rfl rfl rfl rfl le_rfl

/-- An accepted register write, made while nothing is in flight, keeps the invariant. -/
theorem Inv_writeIdle (h : s.Inv) (hi : s.inFlight = none) (n : RegName) (v : Word) : (s.writeIdle n v).Inv := by
  cases n
  case CMD => exact Inv_accept h v
  case SRATE =>
    exact ⟨h.params, h.canonical, h.inside, h.codes, h.errHasCode, h.lastOp,
      fun hv => by simpa [State.writeIdle] using hv, fun l hl => by simp [State.writeIdle, hi] at hl, h.drawn⟩
  case META_VALID =>
    refine ⟨h.params, h.canonical, h.inside, h.codes, h.errHasCode, h.lastOp, fun hv => ?_,
      fun l hl => by simp [State.writeIdle, hi] at hl, h.drawn⟩
    simp only [State.writeIdle, MetaValid.clearBits, Bool.and_eq_true] at hv
    exact h.srate hv.1
  all_goals
    first
    | exact h
    | exact ⟨h.params, h.canonical, h.inside, h.codes, h.errHasCode, h.lastOp, h.srate,
        fun l hl => by simp [State.writeIdle, hi] at hl, h.drawn⟩

theorem Inv_writeReg (h : s.Inv) (n : RegName) (v : Word) : (s.writeReg n v).Inv := by
  unfold State.writeReg
  split
  · exact Inv_setBusyWr h
  · next hb =>
    split
    · exact Inv_ctrlWrite h v
    · exact Inv_statusWrite h v
    · next hc hst =>
      by_cases hg : busyGuarded n = true
      · have hn : s.inFlight = none := by simpa [hg, State.busy] using hb
        exact Inv_writeIdle h hn n v
      · cases n <;> simp_all [busyGuarded] <;> exact h

theorem Inv_writeOffset (h : s.Inv) (off : BitVec 12) (v : Word) : (s.writeOffset off v).Inv := by
  unfold State.writeOffset
  split
  · exact Inv_writeReg h _ v
  · exact h

theorem Inv_memPortWrite (h : s.Inv) (a w : Nat) (v : BitVec 64) : (s.memPortWrite a w v).Inv := by
  unfold State.memPortWrite
  split
  · next hw =>
    have hwf : (s.memWrite a w v.toNat).dmem.wf = true := Memory.wf_store h.canonical _ _
    have hin : (s.memWrite a w v.toNat).dmem.below s.params.dmemSize :=
      Memory.below_store h.inside (by simp; omega)
    unfold State.markRace
    split
    · next l hl =>
      refine ⟨h.params, hwf, hin, h.codes, h.errHasCode, h.lastOp, h.srate, ?_, h.drawn⟩
      intro l' hl'
      simp only [Option.some.injEq] at hl'
      subst hl'
      exact h.flight l hl
    · exact ⟨h.params, hwf, hin, h.codes, h.errHasCode, h.lastOp, h.srate, h.flight, h.drawn⟩
  · exact h

theorem Inv_memPortRead (h : s.Inv) (a w : Nat) : (s.memPortRead a w).Inv := by
  unfold State.memPortRead
  split
  · refine Inv_of_outer h rfl rfl rfl rfl rfl rfl rfl rfl rfl ?_
    dsimp only
    split <;> omega
  · exact Inv_of_outer h rfl rfl rfl rfl rfl rfl rfl rfl rfl le_rfl

theorem Inv_readInReset (h : s.Inv) : s.readInReset.Inv :=
  Inv_of_outer h rfl rfl rfl rfl rfl rfl rfl rfl rfl (Nat.le_succ _)

theorem Inv_driveReset (h : s.Inv) (level : Bool) : (s.driveReset level).Inv := by
  unfold State.driveReset
  split
  · exact Inv_of_outer h rfl rfl rfl rfl rfl rfl rfl rfl rfl le_rfl
  · split
    · exact Inv_hardReset h
    · exact h

end Sys2Proof.Machine
end

