-- ==== Sys2Proof/Laws/LogExp.lean ====
section
/-! SUPPORT. The base-10 logarithm and the power of ten: what settles is nearest, and the exact comparisons decide what they
say they decide. -/
namespace Sys2Proof.Machine

/-! ### Positive lower ends -/

theorem le_sumTo (t : Nat → Nat) {n : Nat} (hn : 0 < n) : t 0 ≤ sumTo t n := by
  induction n with
  | zero => omega
  | succ n ih =>
    rw [sumTo]
    rcases Nat.eq_zero_or_pos n with rfl | h
    · simp [sumTo]
    · have := ih h; omega

theorem seriesTerms_pos (p : Nat) : 0 < seriesTerms p := by rw [seriesTerms]; omega

theorem ln2Lo_pos {p : Nat} (hp : 2 ≤ p) : 0 < ln2Lo p := by
  have h := le_sumTo (atanhTerm p 1 3) (seriesTerms_pos p)
  have h4 : 2 ^ 2 ≤ 2 ^ p := Nat.pow_le_pow_right Nat.two_pos hp
  have : 0 < atanhTerm p 1 3 0 := by
    rw [atanhTerm]
    exact Nat.div_pos (by simpa using (by omega : 3 ≤ 2 ^ p)) (by norm_num)
  rw [ln2Lo, atanhLo]
  omega

theorem ln10Lo_pos {p : Nat} (hp : 2 ≤ p) : 0 < ln10Lo p := by
  have := ln2Lo_pos hp
  rw [ln10Lo]; omega

theorem precision_ge {p : Nat} (h : p ∈ Config.precisions) : 2 ≤ p := by
  simp only [Config.precisions, List.mem_cons, List.not_mem_nil, or_false] at h
  omega

/-! ### The natural logarithm of a magnitude -/

/-- A magnitude has at most 53 significant bits. -/
theorem sig53_exact (b : Nat) (hb : 0 < b) :
    sig53 (bitsMag b) * 2 ^ Nat.log2 (bitsMag b) = bitsMag b * 2 ^ 52 ∧
      2 ^ 52 ≤ sig53 (bitsMag b) ∧ sig53 (bitsMag b) < 2 ^ 53 := by
  have hpos : 0 < bitsMag b := by rw [← bitsMag_zero]; exact bitsMag_strictMono hb
  have hdvd : 2 ^ Nat.log2 (bitsMag b) ∣ bitsMag b * 2 ^ 52 := by
    obtain ⟨k, m, rfl, hm, hk⟩ := bits_split b
    rw [bitsMag_norm (by omega) hk] at hpos ⊢
    have hlog : Nat.log2 (m * 2 ^ k) ≤ 52 + k := by
      rw [← Nat.lt_succ_iff, Nat.log2_lt hpos.ne']
      calc m * 2 ^ k < 2 ^ 53 * 2 ^ k := Nat.mul_lt_mul_of_pos_right hm (by positivity)
        _ = 2 ^ (52 + k).succ := by rw [← pow_add]; congr 1; omega
    rw [Nat.mul_assoc, ← pow_add]
    exact (pow_dvd_pow 2 (by omega)).mul_left _
  have hex : sig53 (bitsMag b) * 2 ^ Nat.log2 (bitsMag b) = bitsMag b * 2 ^ 52 := Nat.div_mul_cancel hdvd
  refine ⟨hex, ?_, ?_⟩
  · have := Nat.log2_self_le hpos.ne'
    rw [sig53, Nat.le_div_iff_mul_le (by positivity), Nat.mul_comm]
    exact Nat.mul_le_mul_right _ this
  · have : bitsMag b < 2 ^ (Nat.log2 (bitsMag b) + 1) := Nat.lt_log2_self
    rw [sig53, Nat.div_lt_iff_lt_mul (by positivity)]
    calc bitsMag b * 2 ^ 52 < 2 ^ (Nat.log2 (bitsMag b) + 1) * 2 ^ 52 :=
          Nat.mul_lt_mul_of_pos_right this (by positivity)
      _ = _ := by rw [pow_succ]; ring

theorem two_zpow_split (L c : Nat) :
    (2 : ℝ) ^ ((L : ℤ) - 52 + (c : ℤ) - 1074) * (2 ^ 52 * 2 ^ 1074) = 2 ^ L * 2 ^ c := by
  have h2 : (2 : ℝ) ≠ 0 := two_ne_zero
  rw [show (2 : ℝ) ^ 52 * 2 ^ 1074 = (2 : ℝ) ^ ((52 : ℤ) + 1074) by
    rw [zpow_add₀ h2]; exact congrArg₂ (· * ·) (zpow_ofNat _ _).symm (zpow_ofNat _ _).symm]
  rw [← zpow_add₀ h2, show ((L : ℤ) - 52 + (c : ℤ) - 1074 + (52 + 1074)) = (L : ℤ) + c by ring, zpow_add₀ h2,
    zpow_natCast, zpow_natCast]

/-- The two ends around the natural logarithm of `bitsMag b` units. -/
theorem ln_enclosure (p : Nat) {b : Nat} (hb : 0 < b) :
    (lnLo (bitsMag b) p : ℝ) ≤ 2 ^ p * Real.log ((bitsMag b : ℝ) / 2 ^ 1074) ∧
      2 ^ p * Real.log ((bitsMag b : ℝ) / 2 ^ 1074) ≤ lnHi (bitsMag b) p := by
  obtain ⟨hex, hlo, hhi⟩ := sig53_exact b hb
  have hpR : (0 : ℝ) < 2 ^ p := by positivity
  obtain ⟨l1, l2⟩ := ln2_enclosure p
  generalize hM : bitsMag b = M at *
  have hc : sigShift M = 52 ∧ 3 * sig53 M ≤ 4 * 2 ^ 52 ∨ sigShift M = 53 ∧ 4 * 2 ^ 52 < 3 * sig53 M := by
    unfold sigShift
    by_cases h : 3 * sig53 M ≤ 4 * 2 ^ 52
    · rw [if_pos h]; exact .inl ⟨rfl, h⟩
    · rw [if_neg h]; exact .inr ⟨rfl, not_le.mp h⟩
  -- the reduced value and the power of two
  have hS : (0 : ℝ) < (sig53 M : ℝ) := by exact_mod_cast (by omega : 0 < sig53 M)
  have hC : (0 : ℝ) < ((2 ^ sigShift M : Nat) : ℝ) := by positivity
  have hval : Real.log ((M : ℝ) / 2 ^ 1074) =
      logExp M * Real.log 2 + Real.log ((sig53 M : ℝ) / (2 ^ sigShift M : Nat)) := by
    have hz := two_zpow_split (Nat.log2 M) (sigShift M)
    have hexR : (sig53 M : ℝ) * 2 ^ Nat.log2 M = M * 2 ^ 52 := by exact_mod_cast hex
    have hMv : (M : ℝ) / 2 ^ 1074 = (2 : ℝ) ^ logExp M * ((sig53 M : ℝ) / (2 ^ sigShift M : Nat)) := by
      rw [logExp]
      generalize (2 : ℝ) ^ ((Nat.log2 M : ℤ) - 52 + (sigShift M : ℤ) - 1074) = Z at *
      push_cast at hC ⊢
      have hU : (0 : ℝ) < 2 ^ 1074 := by positivity
      generalize (2 : ℝ) ^ 1074 = U at *
      generalize (2 : ℝ) ^ Nat.log2 M = P at *
      generalize (2 : ℝ) ^ sigShift M = C at *
      rw [← mul_div_assoc, div_eq_div_iff hU.ne' hC.ne']
      have h52 : (0 : ℝ) < 2 ^ 52 := by positivity
      apply mul_right_cancel₀ h52.ne'
      linear_combination (-C) * hexR - (sig53 M : ℝ) * hz
    rw [hMv, Real.log_mul (by positivity) (by positivity), Real.log_zpow]
  have hE : (logExp M * (if 0 ≤ logExp M then (ln2Lo p : Int) else (ln2Hi p : Int)) : ℝ) ≤
        2 ^ p * (logExp M * Real.log 2) ∧
      2 ^ p * (logExp M * Real.log 2) ≤
        (logExp M * (if 0 ≤ logExp M then (ln2Hi p : Int) else (ln2Lo p : Int)) : ℝ) := by
    rcases le_or_gt 0 (logExp M) with h | h
    · have hR : (0 : ℝ) ≤ logExp M := by exact_mod_cast h
      rw [if_pos h, if_pos h]
      push_cast
      constructor <;> nlinarith
    · have hR : (logExp M : ℝ) < 0 := by exact_mod_cast h
      rw [if_neg (not_le.mpr h), if_neg (not_le.mpr h)]
      push_cast
      constructor <;> nlinarith
  have hF : ((if 2 ^ sigShift M ≤ sig53 M then (2 * atanhLo p (atanhNum M) (atanhDen M) (seriesTerms p) : Int)
        else -(2 * atanhHi p (atanhNum M) (atanhDen M) (seriesTerms p) : Int) : ℤ) : ℝ) ≤
        2 ^ p * Real.log ((sig53 M : ℝ) / (2 ^ sigShift M : Nat)) ∧
      2 ^ p * Real.log ((sig53 M : ℝ) / (2 ^ sigShift M : Nat)) ≤
        ((if 2 ^ sigShift M ≤ sig53 M then (2 * atanhHi p (atanhNum M) (atanhDen M) (seriesTerms p) : Int)
        else -(2 * atanhLo p (atanhNum M) (atanhDen M) (seriesTerms p) : Int) : ℤ) : ℝ) := by
    have hCpos : 0 < 2 ^ sigShift M := by positivity
    have hden : 0 < atanhDen M := by rw [atanhDen]; omega
    have hdenR : (0 : ℝ) < (atanhDen M : ℝ) := by exact_mod_cast hden
    have hden' : (atanhDen M : ℝ) = sig53 M + (2 ^ sigShift M : Nat) := by rw [atanhDen]; push_cast; rfl
    by_cases hle : 2 ^ sigShift M ≤ sig53 M
    · have hnum : atanhNum M = sig53 M - 2 ^ sigShift M := by rw [atanhNum, if_pos hle]
      have hnum' : (atanhNum M : ℝ) = sig53 M - (2 ^ sigShift M : Nat) := by rw [hnum, Nat.cast_sub hle]
      have h2 : 2 * atanhNum M ≤ atanhDen M := by
        rw [hnum, atanhDen]
        rcases hc with ⟨hc, h⟩ | ⟨hc, h⟩ <;> rw [hc] at hle ⊢ <;> omega
      obtain ⟨a1, a2⟩ := artanh_enclosure p hden h2 (seriesTerms p)
      rw [log_ratio hdenR (by positivity) (by rw [hden', hnum']; linarith), hden', hnum'] at a1 a2
      have e : ((sig53 M : ℝ) + (2 ^ sigShift M : Nat) + (sig53 M - (2 ^ sigShift M : Nat))) /
          (sig53 M + (2 ^ sigShift M : Nat) - (sig53 M - (2 ^ sigShift M : Nat))) =
          sig53 M / (2 ^ sigShift M : Nat) := by
        rw [div_eq_div_iff (by linarith) hC.ne']; ring
      rw [e] at a1 a2
      rw [if_pos hle, if_pos hle]
      push_cast at a1 a2 ⊢
      exact ⟨a1, a2⟩
    · have hnum : atanhNum M = 2 ^ sigShift M - sig53 M := by rw [atanhNum, if_neg hle]
      have hnum' : (atanhNum M : ℝ) = (2 ^ sigShift M : Nat) - sig53 M := by
        rw [hnum, Nat.cast_sub (not_le.mp hle).le]
      have h2 : 2 * atanhNum M ≤ atanhDen M := by
        rw [hnum, atanhDen]
        rcases hc with ⟨hc, h⟩ | ⟨hc, h⟩ <;> rw [hc] at hle ⊢ <;> omega
      obtain ⟨a1, a2⟩ := artanh_enclosure p hden h2 (seriesTerms p)
      rw [log_ratio hdenR (by positivity) (by rw [hden', hnum']; linarith), hden', hnum'] at a1 a2
      have e : ((sig53 M : ℝ) + (2 ^ sigShift M : Nat) + ((2 ^ sigShift M : Nat) - sig53 M)) /
          (sig53 M + (2 ^ sigShift M : Nat) - ((2 ^ sigShift M : Nat) - sig53 M)) =
          ((sig53 M : ℝ) / (2 ^ sigShift M : Nat))⁻¹ := by
        rw [inv_div, div_eq_div_iff (by linarith) hS.ne']; ring
      rw [e, Real.log_inv] at a1 a2
      rw [if_neg hle, if_neg hle]
      push_cast at a1 a2 ⊢
      constructor <;> linarith
  rw [hval, lnLo, lnHi, mul_add]
  push_cast at hE hF ⊢
  exact ⟨by linarith [hE.1, hF.1], by linarith [hE.2, hF.2]⟩

/-! ### The base-10 logarithm -/

theorem settle_quotient {p b : Nat} {lo hi : Int} {v : ℝ} (hp : 2 ≤ p) (hv : 0 ≤ v) (h0 : 0 ≤ lo)
    (h : settle (lo.toNat * unitsOne) (ln10Hi p) (hi.toNat * unitsOne) (ln10Lo p) = some b)
    (h1 : (lo : ℝ) ≤ 2 ^ p * v) (h2 : 2 ^ p * v ≤ hi) : NearestBits (v / Real.log 10 * 2 ^ 1074) b := by
  obtain ⟨t1, t2⟩ := ln10_enclosure p
  have hpR : (0 : ℝ) < 2 ^ p := by positivity
  have hlog : 0 < Real.log 10 := Real.log_pos (by norm_num)
  have hL : (0 : ℝ) < ln10Lo p := by exact_mod_cast ln10Lo_pos hp
  have hprod : 0 < 2 ^ p * Real.log 10 := by positivity
  have hH : (0 : ℝ) < ln10Hi p := by linarith
  have hlo : ((lo.toNat : Nat) : ℝ) = lo := by exact_mod_cast Int.toNat_of_nonneg h0
  have hhi0 : 0 ≤ hi := by
    have : (0 : ℝ) ≤ hi := le_trans (by positivity) h2
    exact_mod_cast this
  have hhi : ((hi.toNat : Nat) : ℝ) = hi := by exact_mod_cast Int.toNat_of_nonneg hhi0
  have hU : (0 : ℝ) ≤ 2 ^ 1074 := by positivity
  refine settle_nearest h (by exact_mod_cast hH) (ln10Lo_pos hp) ?_ ?_ <;>
    rw [Nat.cast_mul, unitsOne_cast, mul_div_right_comm] <;> refine mul_le_mul_of_nonneg_right ?_ hU
  · rw [hlo, div_le_div_iff₀ hH hlog]
    have a1 : (lo : ℝ) * Real.log 10 ≤ 2 ^ p * v * Real.log 10 := mul_le_mul_of_nonneg_right h1 hlog.le
    have a2 : v * (2 ^ p * Real.log 10) ≤ v * ln10Hi p := mul_le_mul_of_nonneg_left t2 hv
    linarith
  · rw [hhi, div_le_div_iff₀ hlog hL]
    have a1 : 2 ^ p * v * Real.log 10 ≤ hi * Real.log 10 := mul_le_mul_of_nonneg_right h2 hlog.le
    have a2 : v * ln10Lo p ≤ v * (2 ^ p * Real.log 10) := mul_le_mul_of_nonneg_left t1 hv
    linarith

/-- What `log10At` settles on is nearest to |log10| of the value. -/
theorem log10At_nearest {b p c : Nat} {big : Bool} (hb : 0 < b) (hp : 2 ≤ p)
    (h : log10At (bitsMag b) big p = some c) :
    NearestBits ((if big then 1 else -1) * Real.logb 10 ((bitsMag b : ℝ) / 2 ^ 1074) * 2 ^ 1074) c := by
  obtain ⟨e1, e2⟩ := ln_enclosure p hb
  have hpR : (0 : ℝ) < 2 ^ p := by positivity
  unfold log10At at h
  cases big
  · rw [if_neg (by simp)] at h
    split at h
    · next hc =>
      have hneg : Real.log ((bitsMag b : ℝ) / 2 ^ 1074) ≤ 0 := by
        have : (lnHi (bitsMag b) p : ℝ) ≤ 0 := by exact_mod_cast hc
        by_contra hx
        have := mul_pos hpR (not_le.mp hx)
        linarith
      have := settle_quotient (v := -Real.log ((bitsMag b : ℝ) / 2 ^ 1074)) hp (by linarith) (by omega) h
        (by push_cast; linarith) (by push_cast; linarith)
      rw [if_neg (by simp), Real.logb, ← mul_div_assoc, neg_one_mul]
      exact this
    · cases h
  · rw [if_pos rfl] at h
    split at h
    · next hc =>
      have hpos : 0 ≤ Real.log ((bitsMag b : ℝ) / 2 ^ 1074) := by
        have : (0 : ℝ) ≤ lnLo (bitsMag b) p := by exact_mod_cast hc
        by_contra hx
        have := mul_neg_of_pos_of_neg hpR (not_le.mp hx)
        linarith
      have := settle_quotient hp hpos hc h e1 e2
      rw [if_pos rfl, Real.logb, one_mul]
      exact this
    · cases h

/-- Comparing a reduced fraction with a ratio of logarithms by powers of integers. -/
theorem log_compare {A B e f : Nat} (hA : 0 < A) (hB : 0 < B) :
    ((e : ℝ) * Real.log 10 < f * Real.log ((A : ℝ) / B) ↔ B ^ f * 10 ^ e < A ^ f) ∧
      ((e : ℝ) * Real.log 10 = f * Real.log ((A : ℝ) / B) ↔ B ^ f * 10 ^ e = A ^ f) := by
  have hAR : (0 : ℝ) < A := by exact_mod_cast hA
  have hBR : (0 : ℝ) < B := by exact_mod_cast hB
  have l1 : Real.log ((A : ℝ) / B) = Real.log A - Real.log B := Real.log_div hAR.ne' hBR.ne'
  have l2 : Real.log (((B ^ f * 10 ^ e : Nat) : ℝ)) = f * Real.log B + e * Real.log 10 := by
    push_cast
    rw [Real.log_mul (by positivity) (by positivity), Real.log_pow, Real.log_pow]
  have l3 : Real.log (((A ^ f : Nat) : ℝ)) = f * Real.log A := by push_cast; rw [Real.log_pow]
  have p1 : (0 : ℝ) < ((B ^ f * 10 ^ e : Nat) : ℝ) := by exact_mod_cast (by positivity : 0 < B ^ f * 10 ^ e)
  have p2 : (0 : ℝ) < ((A ^ f : Nat) : ℝ) := by exact_mod_cast (by positivity : 0 < A ^ f)
  constructor
  · have h : ((B ^ f * 10 ^ e : Nat) : ℝ) < ((A ^ f : Nat) : ℝ) ↔ B ^ f * 10 ^ e < A ^ f := by exact_mod_cast Iff.rfl
    rw [← h, ← Real.log_lt_log_iff p1 p2, l2, l3, l1]
    constructor <;> intro <;> linarith
  · have h : ((B ^ f * 10 ^ e : Nat) : ℝ) = ((A ^ f : Nat) : ℝ) ↔ B ^ f * 10 ^ e = A ^ f := by exact_mod_cast Iff.rfl
    have h2 : Real.log ((B ^ f * 10 ^ e : Nat) : ℝ) = Real.log ((A ^ f : Nat) : ℝ) ↔
        ((B ^ f * 10 ^ e : Nat) : ℝ) = ((A ^ f : Nat) : ℝ) :=
      Real.log_injOn_pos.eq_iff (Set.mem_Ioi.mpr p1) (Set.mem_Ioi.mpr p2)
    rw [← h, ← h2, l2, l3, l1]
    constructor <;> intro <;> linarith

/-- A reduced fraction has the value it was reduced from. -/
theorem reduced (a : Nat) {d : Nat} (hd : 0 < d) :
    0 < d / Nat.gcd a d ∧ ((a / Nat.gcd a d : Nat) : ℝ) / (d / Nat.gcd a d : Nat) = (a : ℝ) / d := by
  have hg : 0 < Nat.gcd a d := Nat.gcd_pos_of_pos_right a hd
  have h1 : d / Nat.gcd a d * Nat.gcd a d = d := Nat.div_mul_cancel (Nat.gcd_dvd_right a d)
  have h2 : a / Nat.gcd a d * Nat.gcd a d = a := Nat.div_mul_cancel (Nat.gcd_dvd_left a d)
  have h3 : 0 < d / Nat.gcd a d := Nat.div_pos (Nat.le_of_dvd hd (Nat.gcd_dvd_right a d)) hg
  refine ⟨h3, ?_⟩
  have hgR : (0 : ℝ) < Nat.gcd a d := by exact_mod_cast hg
  have h3R : (0 : ℝ) < (d / Nat.gcd a d : Nat) := by exact_mod_cast h3
  have hdR : (0 : ℝ) < d := by exact_mod_cast hd
  have h1R : ((d / Nat.gcd a d : Nat) : ℝ) * Nat.gcd a d = d := by exact_mod_cast h1
  have h2R : ((a / Nat.gcd a d : Nat) : ℝ) * Nat.gcd a d = a := by exact_mod_cast h2
  rw [div_eq_div_iff h3R.ne' hdR.ne']
  rw [← h1R, ← h2R]; ring

/-- The exact comparison of |log10| of M units with the point half way above `b`. -/
theorem log10Above_iff {M : Nat} (hM : 0 < M) (big : Bool) (b : Nat) :
    log10Above M big b = true ↔ b < infBits ∧
      ((midUnits b : ℝ) < 2 * ((if big then 1 else -1) * Real.logb 10 ((M : ℝ) / 2 ^ 1074) * 2 ^ 1074) ∨
        (midUnits b : ℝ) = 2 * ((if big then 1 else -1) * Real.logb 10 ((M : ℝ) / 2 ^ 1074) * 2 ^ 1074) ∧
          b % 2 = 1) := by
  have hUpos := unitsOne_pos
  have hUc := unitsOne_cast
  rw [log10Above, roundsAbove_iff, ← hUc]
  clear hUc
  generalize unitsOne = U at *
  have hUR : (0 : ℝ) < U := by exact_mod_cast hUpos
  have hMR : (0 : ℝ) < M := by exact_mod_cast hM
  have hlog : 0 < Real.log 10 := Real.log_pos (by norm_num)
  obtain ⟨hf, hfrac⟩ := reduced (midUnits b) (d := 2 * U) (by omega)
  generalize midUnits b / Nat.gcd (midUnits b) (2 * U) = e at *
  generalize 2 * U / Nat.gcd (midUnits b) (2 * U) = f at *
  have hfR : (0 : ℝ) < f := by exact_mod_cast hf
  have h2U : (0 : ℝ) < ((2 * U : Nat) : ℝ) := by push_cast; linarith
  have hmid : (midUnits b : ℝ) = e / f * (2 * U : Nat) := by rw [hfrac]; field_simp
  have hside : (if big then 1 else -1) * Real.logb 10 ((M : ℝ) / U) =
      Real.log (((if big then M else U : Nat) : ℝ) / ((if big then U else M : Nat) : ℝ)) / Real.log 10 := by
    cases big
    · rw [if_neg (by simp), if_neg (by simp), if_neg (by simp), Real.logb, ← inv_div (M : ℝ), Real.log_inv]; ring
    · rw [if_pos rfl, if_pos rfl, if_pos rfl, Real.logb, one_mul]
  rw [hside]
  have hA : 0 < (if big then M else U) := by cases big <;> simp [hM, hUpos]
  have hB : 0 < (if big then U else M) := by cases big <;> simp [hM, hUpos]
  generalize (if big then M else U) = A at *
  generalize (if big then U else M) = B at *
  obtain ⟨c1, c2⟩ := log_compare (e := e) (f := f) hA hB
  generalize Real.log ((A : ℝ) / B) = l at *
  have k1 : (midUnits b : ℝ) < 2 * (l / Real.log 10 * U) ↔ (e : ℝ) * Real.log 10 < f * l := by
    rw [hmid, show 2 * (l / Real.log 10 * U) = l / Real.log 10 * ((2 * U : Nat) : ℝ) by push_cast; ring,
      mul_lt_mul_iff_left₀ h2U, div_lt_div_iff₀ hfR hlog, mul_comm l]
  have k2 : (midUnits b : ℝ) = 2 * (l / Real.log 10 * U) ↔ (e : ℝ) * Real.log 10 = f * l := by
    rw [hmid, show 2 * (l / Real.log 10 * U) = l / Real.log 10 * ((2 * U : Nat) : ℝ) by push_cast; ring,
      mul_left_inj' h2U.ne', div_eq_div_iff hfR.ne' hlog.ne', mul_comm l]
  rw [k1, k2, c1, c2, decide_eq_true_iff, beq_iff_eq]

/-! ### The power of ten -/

theorem ten_enclosure (p X : Nat) :
    (tenLo p X : ℝ) ≤ 2 ^ p * ((X : ℝ) / 2 ^ 1074 * Real.log 10) ∧
      2 ^ p * ((X : ℝ) / 2 ^ 1074 * Real.log 10) ≤ tenHi p X := by
  obtain ⟨t1, t2⟩ := ln10_enclosure p
  have hUpos := unitsOne_pos
  have hUc := unitsOne_cast
  rw [← hUc, tenLo, tenHi]
  clear hUc
  generalize unitsOne = U at *
  have hUR : (0 : ℝ) < U := by exact_mod_cast hUpos
  have e : 2 ^ p * ((X : ℝ) / U * Real.log 10) = X * (2 ^ p * Real.log 10) / U := by ring
  rw [e]
  constructor
  · refine (floor_le_div _ _).trans ?_
    push_cast
    gcongr
  · have h := div_le_floor_add_one (X * ln10Hi p) hUpos
    push_cast at h ⊢
    refine le_trans ?_ h
    gcongr

theorem exp_le_of_units {p R : Nat} {r : ℝ} (h : (R : ℝ) ≤ 2 ^ p * r) : (R : ℝ) / 2 ^ p ≤ r := by
  rw [div_le_iff₀ (by positivity), mul_comm]; exact h

theorem le_of_units_exp {p R : Nat} {r : ℝ} (h : 2 ^ p * r ≤ (R : ℝ)) : r ≤ (R : ℝ) / 2 ^ p := by
  rw [le_div_iff₀ (by positivity), mul_comm]; exact h

/-- What `exp10PosAt` settles on is nearest to 10^x. -/
theorem exp10PosAt_nearest {X p b : Nat} (h : exp10PosAt X p = some b) :
    NearestBits (Real.exp ((X : ℝ) / 2 ^ 1074 * Real.log 10) * 2 ^ 1074) b := by
  obtain ⟨t1, t2⟩ := ten_enclosure p X
  obtain ⟨l1, l2⟩ := ln2_enclosure p
  have hU : (0 : ℝ) < 2 ^ 1074 := by positivity
  have hpR : (0 : ℝ) < 2 ^ p := by positivity
  unfold exp10PosAt at h
  generalize hk : tenLo p X / ln2Hi p = k at *
  generalize (X : ℝ) / 2 ^ 1074 * Real.log 10 = z at *
  split at h
  · next hg =>
    have hkle : k * ln2Hi p ≤ tenLo p X := by rw [← hk]; exact Nat.div_mul_le_self _ _
    obtain ⟨r, hr⟩ : ∃ r, z - k * Real.log 2 = r := ⟨_, rfl⟩
    have hz : Real.exp z = Real.exp r * 2 ^ k := by
      rw [← hr, Real.exp_sub, Real.exp_nat_mul, Real.exp_log (by norm_num)]
      field_simp
    have hkR : (0 : ℝ) ≤ k := Nat.cast_nonneg k
    have r1 : ((tenLo p X - k * ln2Hi p : Nat) : ℝ) ≤ 2 ^ p * r := by
      rw [Nat.cast_sub hkle, ← hr]; push_cast
      nlinarith
    have r2 : 2 ^ p * r ≤ ((tenHi p X - k * ln2Lo p : Nat) : ℝ) := by
      refine le_trans ?_ (sub_le_cast_sub _ _)
      rw [← hr]; push_cast
      nlinarith
    have x1 := expLo_le (p := p) (R := tenLo p X - k * ln2Hi p) (seriesTerms p)
    have x2 := le_expHi hg (seriesTerms_pos p)
    have y1 := Real.exp_le_exp.mpr (exp_le_of_units r1)
    have y2 := Real.exp_le_exp.mpr (le_of_units_exp r2)
    rw [hz]
    refine settle_nearest h (Nat.pow_pos Nat.two_pos) (Nat.pow_pos Nat.two_pos) ?_ ?_ <;>
      rw [Nat.cast_mul, Nat.cast_pow, Nat.cast_pow, Nat.cast_ofNat, pow_add, mul_comm ((2 : ℝ) ^ 1074), ← mul_assoc,
        mul_div_right_comm] <;> refine mul_le_mul_of_nonneg_right ?_ hU.le
    · rw [div_le_iff₀ hpR]
      have : (2 : ℝ) ^ p * Real.exp ((tenLo p X - k * ln2Hi p : Nat) / 2 ^ p) ≤ 2 ^ p * Real.exp r :=
        mul_le_mul_of_nonneg_left y1 hpR.le
      have h2 : (0 : ℝ) ≤ 2 ^ k := by positivity
      nlinarith
    · rw [le_div_iff₀ hpR]
      have : (2 : ℝ) ^ p * Real.exp r ≤ 2 ^ p * Real.exp ((tenHi p X - k * ln2Lo p : Nat) / 2 ^ p) :=
        mul_le_mul_of_nonneg_left y2 hpR.le
      have h2 : (0 : ℝ) ≤ 2 ^ k := by positivity
      nlinarith
  · cases h

/-- What `exp10NegAt` settles on is nearest to 10^(−x). -/
theorem exp10NegAt_nearest {X p b : Nat} (hp : 2 ≤ p) (h : exp10NegAt X p = some b) :
    NearestBits (Real.exp (-((X : ℝ) / 2 ^ 1074 * Real.log 10)) * 2 ^ 1074) b := by
  obtain ⟨t1, t2⟩ := ten_enclosure p X
  obtain ⟨l1, l2⟩ := ln2_enclosure p
  have hU : (0 : ℝ) < 2 ^ 1074 := by positivity
  have hpR : (0 : ℝ) < 2 ^ p := by positivity
  unfold exp10NegAt at h
  have hkle : tenHi p X ≤ (tenHi p X / ln2Lo p + 1) * ln2Lo p :=
    (Nat.lt_mul_of_div_lt (Nat.lt_succ_self _) (ln2Lo_pos hp)).le
  generalize tenHi p X / ln2Lo p + 1 = k at *
  generalize (X : ℝ) / 2 ^ 1074 * Real.log 10 = z at *
  split at h
  · next hg =>
    obtain ⟨r, hr⟩ : ∃ r, k * Real.log 2 - z = r := ⟨_, rfl⟩
    have hz : Real.exp (-z) = Real.exp r / 2 ^ k := by
      have : -z = r - k * Real.log 2 := by rw [← hr]; ring
      rw [this, Real.exp_sub, Real.exp_nat_mul, Real.exp_log (by norm_num)]
    have hkR : (0 : ℝ) ≤ k := Nat.cast_nonneg k
    have r1 : ((k * ln2Lo p - tenHi p X : Nat) : ℝ) ≤ 2 ^ p * r := by
      rw [Nat.cast_sub hkle, ← hr]; push_cast
      nlinarith
    have r2 : 2 ^ p * r ≤ ((k * ln2Hi p - tenLo p X : Nat) : ℝ) := by
      refine le_trans ?_ (sub_le_cast_sub _ _)
      rw [← hr]; push_cast
      nlinarith
    have x1 := expLo_le (p := p) (R := k * ln2Lo p - tenHi p X) (seriesTerms p)
    have x2 := le_expHi hg (seriesTerms_pos p)
    have y1 := Real.exp_le_exp.mpr (exp_le_of_units r1)
    have y2 := Real.exp_le_exp.mpr (le_of_units_exp r2)
    have hd : (0 : ℝ) < 2 ^ (p + k) := by positivity
    have hsplit : Real.exp r / 2 ^ k * 2 ^ (p + k) = 2 ^ p * Real.exp r := by rw [pow_add]; field_simp
    rw [hz]
    refine settle_nearest h (Nat.pow_pos Nat.two_pos) (Nat.pow_pos Nat.two_pos) ?_ ?_ <;>
      rw [Nat.cast_mul, unitsOne_cast, Nat.cast_pow, Nat.cast_ofNat, mul_div_right_comm] <;>
      refine mul_le_mul_of_nonneg_right ?_ hU.le
    · rw [div_le_iff₀ hd, hsplit]
      exact x1.trans (mul_le_mul_of_nonneg_left y1 hpR.le)
    · rw [le_div_iff₀ hd, hsplit]
      exact (mul_le_mul_of_nonneg_left y2 hpR.le).trans x2
  · cases h

/-- Comparing a power of ten with a fraction by powers of integers. -/
theorem exp_compare {m D e f : Nat} (hm : 0 < m) (hD : 0 < D) (hf : 0 < f) (neg : Bool) :
    ((m : ℝ) < Real.exp ((if neg then -1 else 1) * ((e : ℝ) / f * Real.log 10)) * D ↔
        m ^ f * (if neg then 10 ^ e else 1) < D ^ f * (if neg then 1 else 10 ^ e)) ∧
      ((m : ℝ) = Real.exp ((if neg then -1 else 1) * ((e : ℝ) / f * Real.log 10)) * D ↔
        m ^ f * (if neg then 10 ^ e else 1) = D ^ f * (if neg then 1 else 10 ^ e)) := by
  have hmR : (0 : ℝ) < m := by exact_mod_cast hm
  have hDR : (0 : ℝ) < D := by exact_mod_cast hD
  have hfR : (0 : ℝ) < f := by exact_mod_cast hf
  have pos : ∀ {a b : ℝ}, 0 < a → 0 < b → ((a < b ↔ Real.log a < Real.log b) ∧ (a = b ↔ Real.log a = Real.log b)) :=
    fun ha hb => ⟨(Real.log_lt_log_iff ha hb).symm,
      (Real.log_injOn_pos.eq_iff (Set.mem_Ioi.mpr ha) (Set.mem_Ioi.mpr hb)).symm⟩
  obtain ⟨q1, q2⟩ := pos hmR (mul_pos (Real.exp_pos ((if neg then -1 else 1) * ((e : ℝ) / f * Real.log 10))) hDR)
  rw [q1, q2, Real.log_mul (Real.exp_pos _).ne' hDR.ne', Real.log_exp]
  have s1 : Real.log m < (if neg then -1 else 1) * ((e : ℝ) / f * Real.log 10) + Real.log D ↔
      f * Real.log m + (if neg then (e : ℝ) * Real.log 10 else 0) <
        f * Real.log D + (if neg then 0 else (e : ℝ) * Real.log 10) := by
    rw [← mul_lt_mul_iff_right₀ hfR]
    have : (f : ℝ) * ((if neg then -1 else 1) * ((e : ℝ) / f * Real.log 10) + Real.log D) =
        (if neg then -1 else 1) * (e * Real.log 10) + f * Real.log D := by field_simp
    rw [this]
    cases neg <;> simp <;> constructor <;> intro <;> linarith
  have s2 : Real.log m = (if neg then -1 else 1) * ((e : ℝ) / f * Real.log 10) + Real.log D ↔
      f * Real.log m + (if neg then (e : ℝ) * Real.log 10 else 0) =
        f * Real.log D + (if neg then 0 else (e : ℝ) * Real.log 10) := by
    rw [← mul_right_inj' hfR.ne']
    have : (f : ℝ) * ((if neg then -1 else 1) * ((e : ℝ) / f * Real.log 10) + Real.log D) =
        (if neg then -1 else 1) * (e * Real.log 10) + f * Real.log D := by field_simp
    rw [this]
    cases neg <;> simp <;> constructor <;> intro <;> linarith
  have l1 : Real.log ((m ^ f * (if neg then 10 ^ e else 1) : Nat) : ℝ) =
      f * Real.log m + (if neg then (e : ℝ) * Real.log 10 else 0) := by
    cases neg
    · simp [Real.log_pow]
    · simp only [if_true]; push_cast
      rw [Real.log_mul (by positivity) (by positivity), Real.log_pow, Real.log_pow]
  have l2 : Real.log ((D ^ f * (if neg then 1 else 10 ^ e) : Nat) : ℝ) =
      f * Real.log D + (if neg then 0 else (e : ℝ) * Real.log 10) := by
    cases neg
    · simp only [Bool.false_eq_true, if_false]; push_cast
      rw [Real.log_mul (by positivity) (by positivity), Real.log_pow, Real.log_pow]
    · simp [Real.log_pow]
  have n1 : 0 < m ^ f * (if neg then 10 ^ e else 1) := Nat.mul_pos (by positivity) (by cases neg <;> simp)
  have n2 : 0 < D ^ f * (if neg then 1 else 10 ^ e) := Nat.mul_pos (by positivity) (by cases neg <;> simp)
  obtain ⟨q3, q4⟩ := pos (Nat.cast_pos.mpr n1) (Nat.cast_pos.mpr n2)
  rw [s1, s2, ← l1, ← l2, ← q3, ← q4, Nat.cast_lt, Nat.cast_inj]
  exact ⟨Iff.rfl, Iff.rfl⟩

/-- The exact comparison of 10^x, x of ±X units, with the point half way above `b`. -/
theorem exp10Above_iff (X : Nat) (neg : Bool) (b : Nat) :
    exp10Above X neg b = true ↔ b < infBits ∧
      ((midUnits b : ℝ) <
          2 * (Real.exp ((if neg then -1 else 1) * ((X : ℝ) / 2 ^ 1074 * Real.log 10)) * 2 ^ 1074) ∨
        (midUnits b : ℝ) =
          2 * (Real.exp ((if neg then -1 else 1) * ((X : ℝ) / 2 ^ 1074 * Real.log 10)) * 2 ^ 1074) ∧
          b % 2 = 1) := by
  have hUpos := unitsOne_pos
  have hUc := unitsOne_cast
  rw [exp10Above, roundsAbove_iff, ← hUc]
  clear hUc
  generalize unitsOne = U at *
  obtain ⟨hf, hfrac⟩ := reduced X hUpos
  rw [← hfrac]
  generalize X / Nat.gcd X U = e at *
  generalize U / Nat.gcd X U = f at *
  obtain ⟨c1, c2⟩ := exp_compare (m := midUnits b) (D := 2 * U) (e := e) (f := f) (midUnits_pos b) (by omega) hf neg
  have hd : ∀ E : ℝ, 2 * (E * U) = E * ((2 * U : Nat) : ℝ) := by intro E; push_cast; ring
  rw [hd, c1, c2, decide_eq_true_iff, beq_iff_eq]

end Sys2Proof.Machine
end

