-- ==== Sys2Proof/Laws/OverlapAdd.lean ====
section
/-! SUPPORT. Overlap-add sample by sample: the list form the ISTFT meaning folds is the accumulator each sample sees. -/
namespace Sys2Proof.Machine

/-- One frame of overlap-add changes the samples it covers alone. -/
theorem getElem?_addAt (o : Nat) (xs acc : List F64) (p : Nat) :
    (addAt o xs acc)[p]? =
      acc[p]?.map (fun a => if o ≤ p ∧ p < o + xs.length then fadd a (xs.getD (p - o) 0) else a) := by
  fun_induction addAt generalizing p with
  | case1 => simp
  | case2 o acc h =>
    have e : ¬(o ≤ p ∧ p < o + 0) := by omega
    simp only [List.length_nil, if_neg e, Option.map_id']
  | case3 x xs a acc ih =>
    cases p with
    | zero => simp
    | succ p => simp [ih]
  | case4 o xs a acc h ih =>
    cases p with
    | zero => simp
    | succ p =>
      rw [List.getElem?_cons_succ, List.getElem?_cons_succ, ih]
      have e : ∀ n, (o + 1 ≤ p + 1 ∧ p + 1 < o + 1 + n) ↔ (o ≤ p ∧ p < o + n) := by omega
      simp only [e, Nat.succ_eq_add_one, Nat.add_sub_add_right]

/-- Overlap-add of frames of W samples, `step` apart, sample by sample. -/
theorem getElem?_foldl_addAt (W step nf : Nat) (g : Nat → List F64) (hg : ∀ i, (g i).length = W) (len p : Nat)
    (hp : p < len) :
    ((List.range nf).foldl (fun acc i => addAt (i * step) (g i) acc) (List.replicate len (f64Zero false)))[p]? =
      some (overlapAdd W step nf (fun i n => (g i).getD n 0) p) := by
  induction nf with
  | zero => simp [overlapAdd, hp]; decide
  | succ nf ih =>
    rw [List.range_succ, List.foldl_append, List.foldl_cons, List.foldl_nil, getElem?_addAt, ih, Option.map_some, hg,
      overlapAdd, overlapAdd, List.range_succ, List.foldl_append, List.foldl_cons, List.foldl_nil]

end Sys2Proof.Machine
end

