-- ==== Sys2Proof/Laws/PerInstr.lean ====
section
/-! SUPPORT. The family Encoding, one lemma per command: its word is the one the opcode map gives, and the decoder
reads it back. -/
namespace Sys2Proof.Laws.Encoding

/-- A command is well-formed, its word holds its opcode with RSVD = 0, and the decoder reads it back
(`30_encoding.md` R110 to R112). -/
def Statement (i : Instr) : Prop :=
  i.wellFormed = true ∧ opField (encode i) = opcode i ∧ rsvdField (encode i) = 0 ∧ decode (encode i) = .command i

theorem nop : Statement .nop := by unfold Statement; decide
theorem fft : Statement .fft := by unfold Statement; decide
theorem ifft : Statement .ifft := by unfold Statement; decide
theorem stft : Statement .stft := by unfold Statement; decide
theorem qenc : Statement .qenc := by unfold Statement; decide
theorem qdec : Statement .qdec := by unfold Statement; decide
theorem istft : Statement .istft := by unfold Statement; decide
theorem zphase : Statement .zphase := by unfold Statement; decide
theorem hann : Statement .hann := by unfold Statement; decide

end Sys2Proof.Laws.Encoding
end

