-- ==== Sys2Proof/Laws/Root.lean ====
section
/-! SUPPORT. Square roots for the magnitude: the integer root is exact, and the rounded root of a number of units is nearest. -/
namespace Sys2Proof.Machine

theorem isqrt_spec (k n : Nat) (h : n < 4 ^ k) :
    isqrt k n * isqrt k n ≤ n ∧ n < (isqrt k n + 1) * (isqrt k n + 1) := by
  induction k generalizing n with
  | zero => have : n = 0 := by simpa using h
            subst this; simp [isqrt]
  | succ k ih =>
    have h4 : n / 4 < 4 ^ k := by rw [pow_succ] at h; omega
    obtain ⟨h1, h2⟩ := ih _ h4
    rw [isqrt]
    generalize isqrt k (n / 4) = r at *
    have e1 : (2 * r + 1) * (2 * r + 1) = 4 * (r * r) + 4 * r + 1 := by ring
    have e2 : (2 * r + 1 + 1) * (2 * r + 1 + 1) = 4 * ((r + 1) * (r + 1)) := by ring
    have e3 : 2 * r * (2 * r) = 4 * (r * r) := by ring
    split
    · rw [e2]; exact ⟨by assumption, by omega⟩
    · rw [e3]; exact ⟨by omega, by omega⟩

theorem midUnits_split (b : Nat) : ∃ k m, midUnits b = (2 * m + 1) * 2 ^ k ∧ m < 2 ^ 53 := by
  obtain ⟨k, m, rfl, hm, hk⟩ := bits_split b
  refine ⟨k, m, ?_, hm⟩
  rw [midUnits, Nat.add_assoc, bitsMag_norm (by omega) hk, bitsMag_norm (by omega) (by omega)]
  ring

/-- A half-way point above `H·2^e`, H of 54 bits and more, is a multiple of `2^e`. -/
theorem dvd_midUnits {b H e : Nat} (hH : e = 0 ∨ 2 ^ 54 ≤ H) (h : H * 2 ^ e ≤ midUnits b) : 2 ^ e ∣ midUnits b := by
  rcases hH with rfl | hH
  · simp
  · obtain ⟨k, m, hm, hlt⟩ := midUnits_split b
    rw [hm] at h ⊢
    have : e ≤ k := by
      by_contra hc
      have h1 : 2 ^ (k + 1) ≤ 2 ^ e := Nat.pow_le_pow_right Nat.two_pos (by omega)
      have h2 : 2 ^ 54 * 2 ^ (k + 1) ≤ H * 2 ^ e := Nat.mul_le_mul hH h1
      have h3 : (2 * m + 1) * 2 ^ k < 2 ^ 54 * 2 ^ (k + 1) := by
        rw [pow_succ 2 k]
        have : (2 * m + 1) * 2 ^ k ≤ 2 ^ 54 * 2 ^ k := Nat.mul_le_mul_right _ (by omega)
        have : 0 < 2 ^ k := by positivity
        omega
      omega
    exact (pow_dvd_pow 2 this).mul_left _

/-- Where no half-way point lies strictly between two neighbours, everything between them rounds alike. -/
theorem nearest_between {e H b : Nat} (hH : e = 0 ∨ 2 ^ 54 ≤ H) {y : ℝ}
    (hz : NearestBits (((2 * H + 1) * 2 ^ e : Nat) / 4) b)
    (hlo : ((H * 2 ^ e : Nat) : ℝ) < 2 * y) (hhi : 2 * y < (((H + 1) * 2 ^ e : Nat) : ℝ)) : NearestBits y b := by
  have hP : 0 < 2 ^ e := by positivity
  have no : ∀ c, midUnits c ≤ H * 2 ^ e ∨ (H + 1) * 2 ^ e ≤ midUnits c := by
    intro c
    rcases Nat.le_total (midUnits c) (H * 2 ^ e) with h | h
    · exact .inl h
    · obtain ⟨q, hq⟩ := dvd_midUnits hH h
      rcases Nat.lt_or_ge H q with hlt | hge
      · right; rw [hq, Nat.mul_comm]; exact Nat.mul_le_mul_left _ hlt
      · left; rw [hq, Nat.mul_comm]; exact Nat.mul_le_mul_right _ hge
  have ez : 2 * ((((2 * H + 1) * 2 ^ e : Nat) : ℝ) / 4) = H * 2 ^ e + 2 ^ e / 2 := by push_cast; ring
  have hPR : (0 : ℝ) < 2 ^ e := by positivity
  have lowlt : 0 < b → ((bitsMag (b - 1) + bitsMag b : Nat) : ℝ) < 2 * y := by
    intro hb
    have h1 := hz.low hb
    rw [ez] at h1
    have e1 : bitsMag (b - 1) + bitsMag b = midUnits (b - 1) := by rw [midUnits, Nat.sub_add_cancel hb]
    rw [e1] at h1 ⊢
    rcases no (b - 1) with h | h
    · exact lt_of_le_of_lt (by exact_mod_cast h) hlo
    · exfalso
      have : (((H + 1) * 2 ^ e : Nat) : ℝ) ≤ midUnits (b - 1) := by exact_mod_cast h
      push_cast at this
      linarith
  have highlt : b < infBits → 2 * y < (midUnits b : ℝ) := by
    intro hb
    have h1 := hz.high hb
    rw [ez] at h1
    rcases no b with h | h
    · exfalso
      have : (midUnits b : ℝ) ≤ ((H * 2 ^ e : Nat) : ℝ) := by exact_mod_cast h
      push_cast at this
      linarith
    · exact lt_of_lt_of_le hhi (by exact_mod_cast h)
  exact ⟨hz.le_inf, fun h => (lowlt h).le, fun h he => absurd he (lowlt h).ne, fun h => (highlt h).le,
    fun h he => absurd he (highlt h).ne⟩

theorem sqrtHead_bounds (m : Nat) :
    sqrtHead m * sqrtHead m * 4 ^ sqrtShift m ≤ m ∧ m < (sqrtHead m + 1) * (sqrtHead m + 1) * 4 ^ sqrtShift m ∧
      (sqrtShift m = 0 ∨ 2 ^ 54 ≤ sqrtHead m) := by
  have hP : 0 < 4 ^ sqrtShift m := by positivity
  have hbound : m / 4 ^ sqrtShift m < 4 ^ 58 := by
    rw [Nat.div_lt_iff_lt_mul hP]
    have h1 : m < 2 ^ (Nat.log2 m + 1) := Nat.lt_log2_self
    refine h1.trans_le ?_
    rw [show (4 : Nat) = 2 ^ 2 by norm_num, ← pow_mul, ← pow_mul, ← pow_add, sqrtShift]
    exact Nat.pow_le_pow_right Nat.two_pos (by omega)
  obtain ⟨h1, h2⟩ := isqrt_spec 58 _ hbound
  have e1 : m / 4 ^ sqrtShift m * 4 ^ sqrtShift m ≤ m := Nat.div_mul_le_self _ _
  have e2 : m < (m / 4 ^ sqrtShift m + 1) * 4 ^ sqrtShift m := Nat.lt_mul_of_div_lt (Nat.lt_succ_self _) hP
  refine ⟨?_, ?_, ?_⟩
  · exact (Nat.mul_le_mul_right _ h1).trans e1
  · exact e2.trans_le (Nat.mul_le_mul_right _ h2)
  · rcases Nat.eq_zero_or_pos (sqrtShift m) with h | h
    · exact .inl h
    · right
      have hm : m ≠ 0 := by rintro rfl; simp [sqrtShift] at h
      have hlog := Nat.log2_self_le hm
      have h112 : 4 ^ 56 * 4 ^ sqrtShift m ≤ m := by
        refine le_trans ?_ hlog
        rw [show (4 : Nat) = 2 ^ 2 by norm_num, ← pow_mul, ← pow_mul, ← pow_add]
        refine Nat.pow_le_pow_right Nat.two_pos ?_
        rw [sqrtShift] at h ⊢; omega
      have h56 : 4 ^ 56 ≤ m / 4 ^ sqrtShift m := (Nat.le_div_iff_mul_le hP).mpr h112
      by_contra hc
      have hle : sqrtHead m + 1 ≤ 2 ^ 54 := by omega
      have : (sqrtHead m + 1) * (sqrtHead m + 1) ≤ 2 ^ 54 * 2 ^ 54 := Nat.mul_le_mul hle hle
      rw [sqrtHead] at this
      omega

/-- The rounded root is nearest. -/
theorem rneSqrtBits_nearest (n : Nat) : NearestBits (Real.sqrt n) (rneSqrtBits n) := by
  obtain ⟨h1, h2, h3⟩ := sqrtHead_bounds (4 * n)
  have hs : 2 * Real.sqrt n = Real.sqrt ((4 * n : Nat) : ℝ) := by
    rw [Nat.cast_mul, Real.sqrt_mul (by positivity)]
    have : Real.sqrt ((4 : Nat) : ℝ) = 2 := by
      rw [show ((4 : Nat) : ℝ) = 2 ^ 2 by norm_num]; exact Real.sqrt_sq (by norm_num)
    rw [this]
  have e4 : ∀ h e : Nat, (h * h * 4 ^ e : Nat) = (h * 2 ^ e) * (h * 2 ^ e) := by
    intro h e
    rw [show (4 : Nat) = 2 * 2 by norm_num, mul_pow]; ring
  rw [e4] at h1 h2
  have root : ∀ z : Nat, Real.sqrt ((z * z : Nat) : ℝ) = z := by
    intro z; rw [Nat.cast_mul]; exact Real.sqrt_mul_self (Nat.cast_nonneg z)
  unfold rneSqrtBits
  generalize sqrtHead (4 * n) = H at *
  generalize sqrtShift (4 * n) = e at *
  split
  · next heq =>
    have hy : Real.sqrt n = ((2 * H * 2 ^ e : Nat) : ℝ) / ((4 : Nat) : ℝ) := by
      rw [e4] at heq
      rw [← heq, root] at hs
      push_cast at hs ⊢
      linarith
    rw [hy]
    exact rneBits_nearest _ (by omega)
  · next hne =>
    rw [e4] at hne
    refine nearest_between h3 ?_ ?_ ?_
    · exact_mod_cast rneBits_nearest ((2 * H + 1) * 2 ^ e) (d := 4) (by omega)
    · rw [hs, ← root (H * 2 ^ e)]
      exact Real.sqrt_lt_sqrt (by positivity) (by exact_mod_cast lt_of_le_of_ne h1 hne)
    · rw [hs, ← root ((H + 1) * 2 ^ e)]
      exact Real.sqrt_lt_sqrt (by positivity) (by exact_mod_cast h2)

theorem f64Rat_sq (v : F64) : ((f64Rat v : ℚ) : ℝ) ^ 2 = (f64Mag v : ℝ) ^ 2 / (2 ^ 1074) ^ 2 := by
  have : ((f64Units v : ℤ) : ℝ) ^ 2 = (f64Mag v : ℝ) ^ 2 := by
    rw [f64Units]; split <;> push_cast <;> ring
  rw [f64Rat, Rat.cast_div, div_pow, Rat.cast_intCast, this]
  norm_num

end Sys2Proof.Machine
end

