-- ==== Sys2Proof/Laws/Turns.lean ====
section
/-! SUPPORT. What a step can do, said once: whose turn it is, what the HOST's turn does with the script, and every case of
an event that answers a next state, the `wait` loop among them. -/
namespace Sys2Proof.Machine

variable {s t : State}

/-- The sequencer takes the step when the turns say so, or when they are used up and a completion is enabled. -/
theorem coreMoves_iff : s.coreMoves = true ↔
    s.turns.head? = some .core ∨ s.turns = [] ∧ s.inFlight.isSome = true ∧ s.resetLevel = false := by
  unfold State.coreMoves
  split <;> simp_all

theorem coreMoves_eq_false : s.coreMoves = false ↔
    s.turns.head? = some .host ∨ s.turns = [] ∧ (s.inFlight = none ∨ s.resetLevel = true) := by
  unfold State.coreMoves
  split <;> simp_all [or_iff_not_imp_left, Option.isSome_iff_ne_none]

@[simp] theorem passTurn_nil (h : s.turns = []) : s.passTurn = s := by
  rw [State.passTurn, h, List.tail_nil, ← h]

theorem step_of_coreMoves (h : s.coreMoves = true) : step s = s.passTurn.coreTurn := by rw [step, State.advance, if_pos h]

theorem step_of_hostMoves (h : s.coreMoves = false) : step s = s.passTurn.hostTurn := by
  rw [step, State.advance, if_neg (by simp [h])]

theorem hostTurn_nil (h : s.script = []) : s.hostTurn = .next s := by simp [State.hostTurn, h]

theorem hostTurn_cons {e : HostEvent} {rest : List HostEvent} (h : s.script = e :: rest) :
    s.hostTurn = State.onEvent { s with script := rest } e := by simp [State.hostTurn, h]

/-- Every event that answers a next state is one of these. -/
theorem onEvent_cases {e : HostEvent} (h : s.onEvent e = .next t) :
    (∃ off v, e = .regWrite off 4 v ∧ t = if s.resetLevel then s else s.writeOffset off v) ∨
    (∃ off, e = .regRead off 4 ∧
      t = if s.resetLevel then s.readInReset else { s with rdata := (s.readOffset off).setWidth 64 }) ∨
    (∃ a w v, e = .memWrite a w v ∧ t = if s.resetLevel then s else s.memPortWrite a w v) ∨
    (∃ a w, e = .memRead a w ∧ t = if s.resetLevel then s.readInReset else s.memPortRead a w) ∨
    (∃ level, e = .resetPin level ∧ t = s.driveReset level) ∨
    (e = .waitLoop ∧ ∃ u, s.onRegRead (regOffset .STATUS) 4 = .next u ∧
      t = if u.rdata.getLsbD 0 then { u with script := .waitLoop :: u.script } else u) := by
  cases e with
  | regWrite off w v =>
    by_cases hw : regWidthOk w = true
    · obtain rfl : w = 4 := by simpa [regWidthOk] using hw
      refine .inl ⟨off, v, rfl, ?_⟩
      simp only [State.onEvent, State.onRegWrite] at h
      repeat' split at h
      all_goals simp_all
    · simp [State.onEvent, State.onRegWrite, hw] at h
  | regRead off w =>
    by_cases hw : regWidthOk w = true
    · obtain rfl : w = 4 := by simpa [regWidthOk] using hw
      refine .inr (.inl ⟨off, rfl, ?_⟩)
      simp only [State.onEvent, State.onRegRead] at h
      repeat' split at h
      all_goals simp_all
    · simp [State.onEvent, State.onRegRead, hw] at h
  | memWrite a w v =>
    refine .inr (.inr (.inl ⟨a, w, v, rfl, ?_⟩))
    simp only [State.onEvent, State.onMemWrite] at h
    repeat' split at h
    all_goals simp_all
  | memRead a w =>
    refine .inr (.inr (.inr (.inl ⟨a, w, rfl, ?_⟩)))
    simp only [State.onEvent, State.onMemRead] at h
    repeat' split at h
    all_goals simp_all
  | resetPin level =>
    refine .inr (.inr (.inr (.inr (.inl ⟨level, rfl, ?_⟩))))
    simpa [State.onEvent] using h.symm
  | waitLoop =>
    refine .inr (.inr (.inr (.inr (.inr ⟨rfl, ?_⟩))))
    simp only [State.onEvent, State.waitPass] at h
    split at h
    · next u hu => exact ⟨u, hu, by simpa using h.symm⟩
    · cases h
    · cases h

end Sys2Proof.Machine
end

