-- ==== Sys2Proof/Tests/Slice0.lean ====
section
/-! SUPPORT. The model's own tests: ill-formed events, words of the opcode map, one step of each command with the values of
`95_test_vectors.md`, and a witness for the hypotheses of every statement. -/
namespace Sys2Proof.Tests
open Sys2Proof.Machine

/-! ### Well-formedness: an event that each check refuses, and the accepted one beside it -/

theorem test_wf_reg_width : HostEventOk (.regWrite 0x010 2 0) = false ∧ HostEventOk (.regWrite 0x010 4 0) = true := by
  decide

theorem test_wf_reg_offset : HostEventOk (.regRead 0x012 4) = false ∧ HostEventOk (.regRead 0xFFC 4) = true := by
  decide

theorem test_wf_mem_width : HostEventOk (.memRead 0 3) = false ∧ HostEventOk (.memWrite 0 16 0) = false ∧
    HostEventOk (.memRead 0 0) = false ∧ HostEventOk (.memRead 0 8) = true := by decide

theorem test_wf_mem_align : HostEventOk (.memWrite 4 8 0) = false ∧ HostEventOk (.memWrite 7 1 0) = true := by decide

theorem test_wf_commands : ∀ i : Instr, i.wellFormed = true := by intro i; cases i <;> rfl

/-! ### Decoding: words written bit by bit from `30_encoding.md` R110 and R112 -/

theorem test_decode_nop : decode 0b00000000000000000000000000000000#32 = .command .nop := by decide
theorem test_decode_fft : decode 0b00000000000000000000000000000001#32 = .command .fft := by decide
theorem test_decode_ifft : decode 0b00000000000000000000000000000010#32 = .command .ifft := by decide
theorem test_decode_stft : decode 0b00000000000000000000000000000011#32 = .command .stft := by decide
theorem test_decode_qenc : decode 0b00000000000000000000000000000100#32 = .command .qenc := by decide
theorem test_decode_qdec : decode 0b00000000000000000000000000000101#32 = .command .qdec := by decide
theorem test_decode_istft : decode 0b00000000000000000000000000000110#32 = .command .istft := by decide
theorem test_decode_zphase : decode 0b00000000000000000000000000000111#32 = .command .zphase := by decide
theorem test_decode_hann : decode 0b00000000000000000000000000001000#32 = .command .hann := by decide

theorem test_decode_illegal : decode 0x00000009#32 = .illegal .reservedOpcode ∧
    decode 0x000000FF#32 = .illegal .reservedOpcode ∧ decode 0x00000101#32 = .illegal .rsvdSet ∧
    decode 0x80000000#32 = .illegal .rsvdSet := by decide

theorem test_decodeTableWord : decodeTableWord 32 6 = some .istft ∧ decodeTableWord 32 9 = none := by decide

/-! ### Small states -/

/-- Parameter registers by name, the others at reset. -/
def regs (src dst scr size stride sigLen wsize overlap nbins nframes : Nat) : ParamRegs :=
  { ParamRegs.reset with
    src := BitVec.ofNat 32 src, dst := BitVec.ofNat 32 dst, scr := BitVec.ofNat 32 scr
    size := BitVec.ofNat 32 size, stride := BitVec.ofNat 32 stride, sigLen := BitVec.ofNat 32 sigLen
    wsize := BitVec.ofNat 32 wsize, overlap := BitVec.ofNat 32 overlap
    nbins := BitVec.ofNat 32 nbins, nframes := BitVec.ofNat 32 nframes }

/-- The operands of FFT and IFFT. -/
def fftRegs (src dst size stride : Nat) : ParamRegs := regs src dst 0 size stride 0 0 0 0 0

/-- The operands of STFT, SRC 0 and DST 0x100. -/
def stftRegs (sigLen wsize overlap : Nat) : ParamRegs := regs 0 0x100 0 0 1 sigLen wsize overlap 0 0

/-- The operands of QENC and QDEC, SRC 0 and DST 0x200. -/
def matrixRegs (nbins nframes : Nat) : ParamRegs := regs 0 0x200 0 0 1 0 0 0 nbins nframes

/-- Reset, the given registers, and the word just accepted. -/
def flying (r : ParamRegs) (c : Word) : State := { State.reset with regs := r }.placeCommand c

/-- The same with a real array at address 0. -/
def flyingOn (vs : List F64) (r : ParamRegs) (c : Word) : State := (flying r c).writeF64s 0 vs

/-- The state one step later. -/
def after (s : State) : State :=
  match step s with
  | .next t => t
  | .fault _ => s
  | .refused _ => s

/-- The real array of n elements at `base`, one step later. -/
def reals (s : State) (base n : Nat) : List F64 := (after s).readF64s base n

/-- The STATUS word one step later. -/
def statusAfter (s : State) : Word := (after s).readReg .STATUS

/-- The ramp 0, 1, …, n − 1 as binary64 values. -/
def ramp (n : Nat) : List F64 := (List.range n).map f64OfNat

/-- The matrix of V-ST1, bin-major. -/
def matrixST1 : List F64 :=
  [0x4018000000000000#64, 0x402C000000000000#64, 0x4036000000000000#64, 0x4006A09E667F3BCD#64,
    0x4006A09E667F3BCD#64, 0x4006A09E667F3BCD#64, 0x4000000000000000#64, 0x4000000000000000#64,
    0x4000000000000000#64]

/-! ### One step of each command, and the errors in order -/

/-- V-C2: NOP leaves STATUS 0x0000_0002. -/
theorem test_nop : statusAfter (flying ParamRegs.reset 0) = 0x00000002#32 := by decide

/-- V-C3 to V-C5: illegal words. -/
theorem test_illegal : [0x00000009#32, 0x00000101#32, 0xFFFFFFFF#32].map
    (fun c => (statusAfter (flying ParamRegs.reset c), (after (flying ParamRegs.reset c)).readReg .CMD)) =
    [(0x00090806#32, 0x00000009#32), (0x00010806#32, 0x00000101#32), (0x00FF0806#32, 0xFFFFFFFF#32)] := by decide

/-- V-FF10: elements 0, 2, 4 and 6 of an array, gathered with STRIDE 2, transformed. -/
theorem test_fft_strided :
    reals (flyingOn [ONE, 0, 0, 0, 0x4008000000000000#64, 0, 0, 0, 0x4014000000000000#64, 0, 0, 0,
      0x401C000000000000#64, 0] (fftRegs 0 0x100 4 2) 1) 0x100 8 =
    [0x4030000000000000#64, 0, 0xC010000000000000#64, 0x4010000000000000#64, 0xC010000000000000#64, 0,
      0xC010000000000000#64, 0xC010000000000000#64] := by decide +kernel

/-- V-FE1 to V-FE9. -/
theorem test_fft_errors :
    [fftRegs 0 0x100 0 1, fftRegs 0 0x100 6 1, fftRegs 0 0x200000 0x20000 1, fftRegs 4 0x100 4 1,
      fftRegs 0xFFFFC8 0x100 4 1, fftRegs 0 0x100 4 0x10000000, fftRegs 0 0x30 4 1, fftRegs 4 0 3 1,
      fftRegs 0 0x10 4 2].map (fun r => statusAfter (flying r 1)) =
    [0x00010106#32, 0x00010106#32, 0x00010106#32, 0x00010906#32, 0x00010206#32, 0x00010206#32, 0x00010A06#32,
      0x00010106#32, 0x00010A06#32] := by decide +kernel

/-- V-IF3: the inverse transform of V-FF3, with its signed zeros. -/
theorem test_ifft :
    reals (flyingOn [0x4024000000000000#64, 0, 0xC000000000000000#64, 0x4000000000000000#64, 0xC000000000000000#64, 0,
      0xC000000000000000#64, 0xC000000000000000#64] (fftRegs 0 0x100 4 1) 2) 0x100 8 =
    [0x3FF0000000000000#64, 0x8000000000000000#64, 0x4000000000000000#64, 0x8000000000000000#64,
      0x4008000000000000#64, 0, 0x4010000000000000#64, 0x8000000000000000#64] := by decide +kernel

/-- The four errors of IFFT, with LASTOP 2 (V-FE2, V-FE4, V-FE5 and V-FE7 for IFFT, by `41_fft.md` R174). -/
theorem test_ifft_errors :
    [fftRegs 0 0x100 6 1, fftRegs 4 0x100 4 1, fftRegs 0xFFFFC8 0x100 4 1, fftRegs 0 0x30 4 1].map
      (fun r => statusAfter (flying r 2)) =
    [0x00020106#32, 0x00020906#32, 0x00020206#32, 0x00020A06#32] := by decide +kernel

/-- V-ST1: the magnitudes. -/
theorem test_stft : reals (flyingOn (ramp 8) (stftRegs 8 4 2) 3) 0x100 9 = matrixST1 := by decide +kernel

/-- V-ST7 to V-ST12. -/
theorem test_stft_errors :
    [stftRegs 8 4 4, stftRegs 3 4 2, stftRegs 10 6 2, stftRegs 8 0 0, stftRegs 2 6 6, stftRegs 2 6 2].map
      (fun r => statusAfter (flying r 3)) =
    [0x00030306#32, 0x00030406#32, 0x00030106#32, 0x00030306#32, 0x00030306#32, 0x00030406#32] := by
  decide +kernel

/-- V-QE1 without its repeated elements: the bytes. -/
theorem test_qenc :
    (after (flyingOn [0x4018000000000000#64, 0x402C000000000000#64, 0x4036000000000000#64, 0x4006A09E667F3BCD#64,
      0x4000000000000000#64] (matrixRegs 1 5) 4)).bytesAt 0x200 5 = [117, 207, 255, 37, 0] := by decide +kernel

/-- V-QE4 to V-QE10. -/
theorem test_qenc_errors :
    [flying (matrixRegs 0 7) 4, flyingOn [0x4000000000000000#64, 0x4000000000000000#64] (matrixRegs 1 2) 4,
      flyingOn [ONE] (matrixRegs 1 1) 4, flyingOn [ONE, f64NaN] (matrixRegs 1 2) 4,
      flyingOn [ONE, 0xBFF0000000000000#64] (matrixRegs 1 2) 4, flyingOn [ONE, f64Inf false] (matrixRegs 1 2) 4,
      flyingOn [f64NaN, f64NaN] (matrixRegs 1 2) 4].map statusAfter =
    [0x00040506#32, 0x00040506#32, 0x00040506#32, 0x00040B06#32, 0x00040B06#32, 0x00040B06#32, 0x00040B06#32] := by
  decide +kernel

/-- All five metadata scalars present. -/
def allPresent : MetaValid := { vWsize := true, vOverlap := true, vSrate := true, vMin := true, vMax := true }

/-- QDEC in flight on bytes at 0, with QMIN and QMAX. -/
def decoding (bytes : List Byte) (mn mx : F64) (m : MetaValid) : State :=
  ({ State.reset with
      regs := { matrixRegs 1 bytes.length with
        qminLo := mn.extractLsb' 0 32, qminHi := mn.extractLsb' 32 32
        qmaxLo := mx.extractLsb' 0 32, qmaxHi := mx.extractLsb' 32 32 }
      metaValid := m }.placeCommand 5).writeU8s 0 bytes

/-- V-QD2 and V-QD4. -/
theorem test_qdec :
    reals (decoding [0, 255] 0xC04E000000000000#64 0x3ED23732FC1E8FFE#64 allPresent) 0x200 2 =
      [0, 0x3FEFFFFFFFFFFFFB#64] ∧
    reals (decoding [0, 255] 0x4034000000000000#64 0 allPresent) 0x200 2 =
      [0x4058FFFFFBCE4218#64, 0x3FEFFFFDE7210BE9#64] := by decide +kernel

/-- V-QD5, V-QD6 and V-QD7: an empty matrix succeeds; a missing scalar is MissingMetadata. -/
theorem test_qdec_presence :
    [decoding [] 0 0 allPresent, decoding [0] 0 0 { allPresent with vSrate := false },
      decoding [0] 0 0 MetaValid.reset].map statusAfter =
    [0x00050002#32, 0x00050606#32, 0x00050606#32] := by decide +kernel

/-- V-IS1: the signal. -/
theorem test_istft :
    reals (flyingOn matrixST1 (regs 0 0x100 0x200 0 1 0 4 2 3 3) 6) 0x100 10 =
      [0, ONE, 0x3FE2BEC333018866#64, 0x4008000000000000#64, 0x4004AFB0CCC0621A#64, 0x4014000000000000#64,
        0x401257D86660310D#64, 0, 0, 0] := by decide +kernel

/-- V-IE1 to V-IE6, and V-IS7: no frame succeeds. -/
theorem test_istft_errors :
    [regs 0 0x400 0x500 0 1 0 4 0 2 3, regs 0 0x400 0x500 0 1 0 1 0 1 1, regs 0 0x400 0x500 0 1 0 1 1 1 1,
      regs 0 0x400 0x500 0 1 0 3 0 2 1, regs 0 0x400 0x420 0 1 0 4 2 3 3, regs 0 0x400 0x500 0 1 0 4 2 3 0x0FFFFFFF,
      regs 0 0x400 0x500 0 1 0 4 2 3 0].map (fun r => statusAfter (flying r 6)) =
    [0x00060706#32, 0x00060306#32, 0x00060306#32, 0x00060106#32, 0x00060A06#32, 0x00060206#32, 0x00060002#32] := by
  decide +kernel

/-- V-ZP1: bins 2 (retained) and 3 (mirrored, −0.0). -/
theorem test_zphase :
    reals (flyingOn [ONE, 0x4000000000000000#64, 0x4008000000000000#64] (regs 0 0x100 0 0 1 0 4 0 0 0) 7) 0x100 8 =
    [ONE, 0, 0x4000000000000000#64, 0, 0x4008000000000000#64, 0, 0x4000000000000000#64, 0x8000000000000000#64] := by
  decide +kernel

/-- V-ZE1 and V-ZE2. -/
theorem test_zphase_errors :
    [regs 0 0x100 0 0 1 0 3 0 0 0, regs 0 0x10 0 0 1 0 4 0 0 0].map (fun r => statusAfter (flying r 7)) =
    [0x00070106#32, 0x00070A06#32] := by decide +kernel

/-- V-HN3. -/
theorem test_hann :
    reals (flying (regs 0 0x100 0 0 1 0 8 0 0 0) 8) 0x100 8 =
    [0, 0x3FC818BE3AE8245E#64, 0x3FE38F721C6048B0#64, 0x3FEE6A5E54E5AE38#64, 0x3FEE6A5E54E5AE38#64,
      0x3FE38F721C6048B0#64, 0x3FC818BE3AE8245E#64, 0] := by decide +kernel

/-- V-HE1 to V-HE3. -/
theorem test_hann_errors :
    [1, 0, 3].map (fun w => statusAfter (flying (regs 0 0x100 0 0 1 0 w 0 0 0) 8)) =
    [0x00080306#32, 0x00080106#32, 0x00080106#32] := by decide +kernel

/-! ### The HOST's ports -/

/-- The state after some steps. -/
def run : Nat → State → State
  | 0, s => s
  | k + 1, s => run k (after s)

/-- V-C1: CAP with the reference parameters. -/
theorem test_cap : State.reset.readReg .CAP = 0x00001810#32 := by decide

/-- Writes and reads at the offsets of `10_state.md` R34 by number: SCR, WSIZE, SRATE and QMAX_HI, and the META_VALID
word that reads after each (R41). -/
theorem test_offsets :
    [0x028#12, 0x038#12, 0x040#12, 0x05C#12].map (fun off =>
      let s := run 3 { State.reset with script := [.regWrite off 4 7, .regRead off 4, .regRead 0x018 4] }
      ((run 2 { State.reset with script := [.regWrite off 4 7, .regRead off 4] }).rdata, s.rdata,
        [s.regs.scr, s.regs.wsize, s.srate, s.regs.qmaxHi])) =
    [(7, 0, [7, 0, 0, 0]), (7, 1, [0, 7, 0, 0]), (7, 4, [0, 0, 7, 0]), (7, 16, [0, 0, 0, 7])] := by decide

/-- V-C7 to V-C10: presence bits. -/
theorem test_presence :
    ((after (State.reset.withProgram [.wr .SRATE 44100])).readReg .META_VALID,
      (run 2 (State.reset.withProgram [.wr .SRATE 44100, .wr .META_VALID 4])).readReg .META_VALID,
      (after (State.reset.withProgram [.wr .QMIN_LO 1])).readReg .META_VALID,
      (after (State.reset.withProgram [.wr .QMIN_HI 0])).readReg .META_VALID) = (4, 0, 0, 8) := by decide

/-- V-C12 and V-C13: SRST takes no enable along; a NOP with IE_DONE raises IRQ. -/
theorem test_interrupt :
    ((after (State.reset.withProgram [.wr .CTRL 0x80000003#32])).readReg .CTRL,
      (run 4 (State.reset.withProgram [.wr .CTRL 1, .nop, .wait])).irq,
      (run 5 (State.reset.withProgram [.wr .CTRL 1, .nop, .wait, .wr .STATUS 2])).irq) = (0, true, false) := by decide

/-- `wait` (`30_encoding.md` R121): a poll before the completion reads BUSY = 1 and stays at the label, one after it reads
BUSY = 0 and goes on. -/
theorem test_wait :
    let s := { flying ParamRegs.reset 0 with script := [.waitLoop], turns := [.host, .host, .core, .host] }
    [0, 1, 2, 3, 4].map (fun k => ((run k s).script, (run k s).rdata)) =
      [([.waitLoop], 0), ([.waitLoop], 1), ([.waitLoop], 1), ([.waitLoop], 1), ([], 2)] := by decide

/-- P4: the HOST's second WSIZE write before the completion (b) is ignored and sets BUSYWR; after it (a) it counts. -/
theorem test_busy_write :
    let s := State.reset.withProgram [.wr .DST 0, .wr .WSIZE 4, .wr .CMD 8, .wr .WSIZE 8]
    let b := run 4 { s with turns := [.host, .host, .host, .host] }
    let a := run 4 { s with script := s.script.drop 1, turns := [.host, .host, .core, .host] }
    (b.readReg .WSIZE, b.readReg .STATUS, a.readReg .WSIZE, a.status.busyWr) = (4, 0x00080009#32, 8, false) := by
  decide +kernel

/-- The last eight bytes of DMEM take an access; one that only partly fits is beyond (`20_memory.md` R91). -/
theorem test_dmem_edge :
    (run 2 (State.reset.withProgram [.st64 0xFFFFF8 0x1122334455667788#64, .ld32 0xFFFFFC])).rdata = 0x11223344#64 ∧
    (after (State.reset.withProgram [.st64 0x1000000 1])).dmem = [] := by decide

/-! ### Witnesses: the hypotheses of each statement hold together -/

theorem wit_idle : State.reset.busy = false ∧ State.reset.resetLevel = false := by decide

theorem wit_latched : ∃ (s : State) (l : Latched), s.inFlight = some l ∧ l.op = .command .fft ∧
    s.resetLevel = false ∧ s.turns = [] :=
  ⟨flying ParamRegs.reset 1, _, rfl, by decide, rfl, rfl⟩

theorem wit_latched_turn : ∃ (s : State) (l : Latched), s.inFlight = some l ∧ l.op = .command .hann ∧
    s.resetLevel = false ∧ s.turns = .core :: [.host] :=
  ⟨{ flying ParamRegs.reset 8 with turns := [.core, .host] }, _, rfl, by decide, rfl, rfl⟩

/-- The HOST has the turn while a command is in flight, and with the turns used up at idle. -/
theorem wit_host_turn : ∃ s t : State, s.script = [.regRead 0x010 4] ∧ s.turns.head? = some .host ∧
    s.inFlight.isSome = true ∧ t.script = [.waitLoop] ∧ t.turns = [] ∧ t.inFlight = none :=
  ⟨{ flying ParamRegs.reset 8 with script := [.regRead 0x010 4], turns := [.host] },
    { State.reset with script := [.waitLoop] }, rfl, rfl, rfl, rfl, rfl, rfl⟩

/-- HANN in flight, the turns used up and the HOST in its `wait` loop. -/
theorem wit_wait_loop : ∃ s : State, s.resetLevel = false ∧ s.busy = true ∧ s.turns = [] ∧
    s.script = .waitLoop :: [.regRead 0x010 4] :=
  ⟨{ flying ParamRegs.reset 8 with script := [.waitLoop, .regRead 0x010 4] }, rfl, rfl, rfl, rfl⟩

theorem wit_turn_without_command : State.reset.inFlight = none ∧ State.reset.runOver ∧
    { State.reset with resetLevel := true }.resetLevel = true := by decide

theorem wit_illegal : State.reset.resetLevel = false ∧ (0x00000100#32).extractLsb' 8 24 ≠ 0 ∧
    0x09 ≤ ((0x00000009#32).extractLsb' 0 8).toNat := by decide

/-- FFT and IFFT at their least size, on footprints that touch, the upper one ending at DMEM_SIZE. -/
theorem wit_fft : ∃ (s : State) (l : Latched) (j : Nat), s.inFlight = some l ∧ l.snap.size = 2 ^ j ∧
    l.snap.size ≤ s.params.nmax ∧
    l.snap.src % 8 = 0 ∧ l.snap.dst % 8 = 0 ∧
    fits s.params.dmemSize l.snap.src (hullLen l.snap.size l.snap.stride) ∧
    fits s.params.dmemSize l.snap.dst (16 * l.snap.size) ∧
    apart l.snap.src (hullLen l.snap.size l.snap.stride) l.snap.dst (16 * l.snap.size) :=
  ⟨flying (fftRegs 0xFFFFE0 0xFFFFF0 1 0) 1, _, 0, rfl, by decide +kernel⟩

/-- STFT on the shape of V-ST1 and on L = W = 1. -/
theorem wit_stft : ∀ q ∈ [(8, 4, 2, 2, 3, 3), (1, 1, 0, 0, 1, 1)], ∃ (s : State) (l : Latched), s.inFlight = some l ∧
    l.snap.sigLen = q.1 ∧ l.snap.overlap + (q.2.1 - q.2.2.1) = l.snap.wsize ∧ 0 < q.2.1 - q.2.2.1 ∧
    l.snap.wsize ≤ l.snap.sigLen ∧ q.2.2.2.2.2 = (l.snap.sigLen - l.snap.wsize) / (q.2.1 - q.2.2.1) + 1 ∧
    q.2.2.2.2.1 = l.snap.wsize / 2 + 1 ∧ l.snap.wsize = 2 ^ q.2.2.2.1 ∧ l.snap.wsize ≤ s.params.nmax ∧
    l.snap.src % 8 = 0 ∧ l.snap.dst % 8 = 0 ∧ fits s.params.dmemSize l.snap.src (8 * l.snap.sigLen) ∧
    fits s.params.dmemSize l.snap.dst (8 * (q.2.2.2.2.1 * q.2.2.2.2.2)) ∧
    apart l.snap.src (8 * l.snap.sigLen) l.snap.dst (8 * (q.2.2.2.2.1 * q.2.2.2.2.2)) := by
  intro q hq
  refine ⟨flying (stftRegs q.1 q.2.1 q.2.2.1) 3, _, rfl, ?_⟩
  revert q hq
  decide +kernel

/-- The two log values of V-QE2's matrix, [0, 1]. -/
def logsQE2 : List F64 := [0xC04E000000000000#64, 0x3ED23732FC1E8FFE#64]

/-- QENC on V-QE2. -/
def encodingQE2 : State := flyingOn [0, ONE] (matrixRegs 1 2) 4

theorem wit_qenc_logs : logsQE2 =
    (List.range 2).map (fun j => fmul TEN (log10R (fadd (encodingQE2.readF64 (0 + 8 * j)) EPS))) := by
  have h0 : fmul TEN (log10R (fadd (encodingQE2.readF64 (0 + 8 * 0)) EPS)) = 0xC04E000000000000#64 := by
    decide +kernel
  have h1 : fmul TEN (log10R (fadd (encodingQE2.readF64 (0 + 8 * 1)) EPS)) = 0x3ED23732FC1E8FFE#64 := by
    decide +kernel
  simp only [logsQE2, List.range_succ, List.range_zero, List.nil_append, List.cons_append, List.map_cons, List.map_nil,
    h0, h1]

theorem wit_qenc : ∃ (s : State) (l : Latched), s = encodingQE2 ∧ s.inFlight = some l ∧ l.snap.src = 0 ∧
    2 = l.snap.nbins * l.snap.nframes ∧ fits s.params.dmemSize l.snap.src (8 * 2) ∧
    fits s.params.dmemSize l.snap.dst 2 ∧ apart l.snap.src (8 * 2) l.snap.dst 2 ∧
    (∀ v ∈ logsQE2, isFin v = true) ∧ feq (fmaxList logsQE2) (fminList logsQE2) = false :=
  ⟨encodingQE2, _, rfl, rfl, by decide +kernel, by decide +kernel, by decide +kernel, by decide +kernel,
    by decide +kernel, List.all_eq_true.mp (by decide +kernel), by decide +kernel⟩

/-- QDEC on one element and on none. -/
theorem wit_qdec : ∀ n ∈ [0, 1], ∃ (s : State) (l : Latched), s.inFlight = some l ∧
    l.snap.metaValid = { vWsize := true, vOverlap := true, vSrate := true, vMin := true, vMax := true } ∧
    n = l.snap.nbins * l.snap.nframes ∧ l.snap.dst % 8 = 0 ∧ fits s.params.dmemSize l.snap.src n ∧
    fits s.params.dmemSize l.snap.dst (8 * n) ∧ apart l.snap.src n l.snap.dst (8 * n) := by
  intro n hn
  refine ⟨decoding (List.replicate n 0) 0 0 allPresent, _, rfl, ?_⟩
  revert n hn
  decide +kernel

/-- ISTFT on V-IS6's shape, the least window, and with no frame. -/
theorem wit_istft : ∀ n ∈ [0, 2], ∃ (s : State) (l : Latched), s.inFlight = some l ∧ s.params.legal ∧
    l.snap.overlap + 2 = l.snap.wsize ∧
    l.snap.wsize = 2 ^ 1 ∧ l.snap.wsize ≤ s.params.nmax ∧ 2 ≤ l.snap.wsize ∧ l.snap.nbins = l.snap.wsize / 2 + 1 ∧
    l.snap.nframes = n ∧ l.snap.src % 8 = 0 ∧ l.snap.dst % 8 = 0 ∧ l.snap.scr % 8 = 0 ∧
    fits s.params.dmemSize l.snap.src (8 * (l.snap.nbins * n)) ∧ fits s.params.dmemSize l.snap.dst (8 * (n * 2 + 2)) ∧
    fits s.params.dmemSize l.snap.scr (8 * (n * 2 + 2)) ∧
    apart l.snap.src (8 * (l.snap.nbins * n)) l.snap.dst (8 * (n * 2 + 2)) ∧
    apart l.snap.src (8 * (l.snap.nbins * n)) l.snap.scr (8 * (n * 2 + 2)) ∧
    apart l.snap.dst (8 * (n * 2 + 2)) l.snap.scr (8 * (n * 2 + 2)) := by
  intro n hn
  refine ⟨flying (regs 0 0x100 0x200 0 1 0 2 0 2 n) 6, _, rfl, ?_⟩
  revert n hn
  decide +kernel

/-- ZPHASE at W = 1 and W = 4 (a mirrored bin). -/
theorem wit_zphase : ∀ j ∈ [0, 2], ∃ (s : State) (l : Latched), s.inFlight = some l ∧ l.snap.wsize = 2 ^ j ∧
    l.snap.wsize ≤ s.params.nmax ∧ l.snap.src % 8 = 0 ∧ l.snap.dst % 8 = 0 ∧
    fits s.params.dmemSize l.snap.src (8 * (l.snap.wsize / 2 + 1)) ∧
    fits s.params.dmemSize l.snap.dst (16 * l.snap.wsize) ∧
    apart l.snap.src (8 * (l.snap.wsize / 2 + 1)) l.snap.dst (16 * l.snap.wsize) := by
  intro j hj
  refine ⟨flying (regs 0 0x100 0 0 1 0 (2 ^ j) 0 0 0) 7, _, rfl, ?_⟩
  revert j hj
  decide +kernel

/-- HANN at W = 2 and at W = NMAX. -/
theorem wit_hann : ∀ j ∈ [1, 16], ∃ (s : State) (l : Latched), s.inFlight = some l ∧ l.snap.wsize = 2 ^ j ∧
    l.snap.wsize ≤ s.params.nmax ∧ 2 ≤ l.snap.wsize ∧ l.snap.dst % 8 = 0 ∧
    fits s.params.dmemSize l.snap.dst (8 * l.snap.wsize) := by
  intro j hj
  refine ⟨flying (regs 0 0x100 0 0 1 0 (2 ^ j) 0 0 0) 8, _, rfl, ?_⟩
  revert j hj
  decide +kernel

/-- Two states that differ in a byte that no read footprint of FFT holds. -/
theorem wit_pure : ∃ s₁ s₂ : State, s₁ ≠ s₂ ∧ s₁.params = s₂.params ∧ s₁.operands = s₂.operands ∧
    ∀ f ∈ readFootprints .fft s₁.operands, ∀ a, f.base ≤ a → a < f.base + f.len → s₁.byteAt a = s₂.byteAt a := by
  refine ⟨flying (fftRegs 0 0x100 1 1) 1, (flying (fftRegs 0 0x100 1 1) 1).writeU8s 0x800 [1], by decide, rfl, rfl, ?_⟩
  intro f hf a h1 h2
  have : f = ⟨0, 16⟩ := by
    revert hf
    simp only [readFootprints, List.mem_singleton]
    rintro rfl
    decide
  subst this
  simp only [State.byteAt, State.writeU8s, State.storeBytes, State.unwrittenByte, Memory.store, flying,
    State.placeCommand, State.accept, State.reset, List.filter_nil, List.nil_append, List.append_nil, cellsFrom,
    Memory.get?]
  have : 0x800 ≠ a := by simp at h2; omega
  simp [this]

theorem wit_fft_recursion : ∃ (m : Nat) (xs es os : List Cplx), (∃ j, m = 2 ^ j) ∧ xs.length = 2 * m ∧ 0 < m ∧
    es.length = m ∧ (∀ n < m, es[n]? = xs[2 * n]?) ∧ os.length = m ∧ ∀ n < m, os[n]? = xs[2 * n + 1]? :=
  ⟨1, [⟨ONE, 0⟩, ⟨TEN, 0⟩], [⟨ONE, 0⟩], [⟨TEN, 0⟩], ⟨0, rfl⟩, by decide⟩

theorem wit_inverse : (FFTL ([⟨ONE, 0⟩].map conj))[0]? = some ⟨ONE, 0x8000000000000000#64⟩ := by decide

/-- A retained and a mirrored bin of ZP for W = 4, and W = 1. -/
theorem wit_zero_phase : ([0, 0, 0] : List F64).length = 4 / 2 + 1 ∧ 2 < 4 / 2 + 1 ∧ 4 / 2 + 1 ≤ 3 ∧ 3 < 4 ∧
    4 = 2 ^ 2 ∧
    ([0] : List F64).length = 1 / 2 + 1 ∧ 0 < 1 / 2 + 1 ∧ 1 = 2 ^ 0 := by decide

theorem wit_frames : 0 < (Snapshot.mk (stftRegs 8 4 3) allPresent).step ∧
    (Snapshot.mk (stftRegs 8 4 3) allPresent).wsize ≤ (Snapshot.mk (stftRegs 8 4 3) allPresent).sigLen ∧
    (Snapshot.mk (stftRegs 3 4 3) allPresent).sigLen < (Snapshot.mk (stftRegs 3 4 3) allPresent).wsize := by decide

/-- LOGMAG: ±0 and the values at which it stops being finite. -/
theorem wit_log_magnitude : isFin (0 : F64) = true ∧ flt 0 0 = false ∧ flt (f64Zero true) 0 = false ∧
    isNaN f64NaN = true ∧ flt (fneg EPS) (fneg EPS) = false := by decide +kernel

/-- The operands of ISTFT with W = 4 and two frames. -/
def twoFrames (ov : Nat) : Snapshot := ⟨regs 0 0 0 0 1 0 4 ov 3 2, allPresent⟩

/-- Every energy for each of the three overlaps, two frames of W = 4: the first sample, the inner zeros, the positive
samples, the sample where the tail starts and the last one (`44_reconstruction.md` R230). -/
theorem wit_zero_energy :
    energyAcc (twoFrames 2) = [0, 0x3FE8000000000000#64, 0x3FE8000000000000#64, 0x3FE8000000000000#64,
      0x3FE8000000000000#64, 0, 0, 0] ∧
    energyAcc (twoFrames 1) = [0, 0x3FE8000000000000#64, 0x3FE8000000000000#64, 0, 0x3FE8000000000000#64,
      0x3FE8000000000000#64, 0, 0, 0, 0] ∧
    energyAcc (twoFrames 0) = [0, 0x3FE8000000000000#64, 0x3FE8000000000000#64, 0, 0, 0x3FE8000000000000#64,
      0x3FE8000000000000#64, 0, 0, 0, 0, 0] ∧
    flt EPS 0x3FE8000000000000#64 = true := by decide +kernel

/-- The other hypotheses of the zero-energy set, for the three overlaps. -/
theorem wit_zero_energy_shape : ∀ ov ∈ [0, 1, 2], (twoFrames ov).wsize = 4 ∧ 4 = 2 ^ 2 ∧ (twoFrames ov).overlap = ov ∧
    (twoFrames ov).overlap + (4 - ov) = 4 ∧ 0 < 4 - ov ∧ (twoFrames ov).nframes = 2 := by decide

/-- Finite operands whose sum, difference, product and quotient are not zero; operands whose sum or product is. -/
theorem wit_arithmetic : isFin TEN = true ∧ isFin ONE = true ∧ f64Units TEN + f64Units ONE ≠ 0 ∧
    f64Units TEN - f64Units ONE ≠ 0 ∧ f64Units TEN ≠ 0 ∧ f64Units ONE ≠ 0 ∧
    f64Units TEN + f64Units (fneg TEN) = 0 ∧ f64Units 0 = 0 ∧ isNaN f64NaN = true := by decide +kernel

/-- Zero quotients, infinities on the left, and f64(2^53) (IEEE 754; `40_numerics.md` R149). -/
theorem test_arithmetic_specials : fdiv (f64Zero true) TEN = f64Zero true ∧ fdiv 0 (fneg TEN) = f64Zero true ∧
    fsub (f64Inf false) TEN = f64Inf false ∧ fsub TEN (f64Inf false) = f64Inf true ∧
    fdiv (f64Inf true) TEN = f64Inf true ∧ isNaN (fdiv (f64Inf true) (f64Inf false)) = true ∧
    isNaN (fmul (f64Zero true) (f64Inf false)) = true ∧ f64OfNat (2 ^ 53) = 0x4340000000000000#64 := by decide +kernel

theorem wit_reset_asserted : ∃ s t : State, s.resetLevel = true ∧ s.onEvent .waitLoop = .next t :=
  ⟨{ State.reset with resetLevel := true }, _, rfl, rfl⟩

theorem wit_busy : (flying ParamRegs.reset 8).busy = true ∧ (flying ParamRegs.reset 8).resetLevel = false ∧
    (0x00000001#32).getLsbD 31 = false ∧ (0x80000000#32).getLsbD 31 = true ∧ (0x00000006#32).getLsbD 1 = true ∧
    (0x00000006#32).getLsbD 2 = true := by decide

theorem wit_presence : ∃ t, State.reset.onRegWrite (regOffset .SRATE) 4 0 = .next t ∧ t.metaValid.vSrate = false :=
  ⟨_, rfl, rfl⟩

/-- The first and last reserved offsets. -/
theorem wit_reserved : (0x060#12).toNat % 4 = 0 ∧ 0x060 ≤ (0x060#12).toNat ∧ (0xFFC#12).toNat % 4 = 0 ∧
    0x060 ≤ (0xFFC#12).toNat := by decide

/-- The DMEM port: the last access that fits, and the first that does not. -/
theorem wit_dmem_port : 0xFFFFF8 % 8 = 0 ∧ 0xFFFFF8 + 8 ≤ State.reset.params.dmemSize ∧
    State.reset.params.dmemSize < 0x1000000 + 8 ∧ 0x1000000 % 8 = 0 ∧
    ∀ i < 8, anyHas State.reset.liveWrites (0xFFFFF8 + i) = false := by decide +kernel

/-- HANN in flight with a racing write: a byte inside its write footprint and one outside. -/
theorem wit_race : ∃ (s : State) (l : Latched), s.inFlight = some l ∧ l.op = .command .hann ∧
    s.resetLevel = false ∧ l.raced = true ∧
    anyHas (writeFootprints .hann l.snap) 0x100 = true ∧ anyHas (writeFootprints .hann l.snap) 0x120 = false :=
  ⟨after { flying (regs 0 0x100 0 0 1 0 4 0 0 0) 8 with script := [.memWrite 0x11F 1 0], turns := [.host] },
    { op := .command .hann, snap := ⟨regs 0 0x100 0 0 1 0 4 0 0 0, MetaValid.reset⟩, raced := true }, by
    decide +kernel⟩

/-- A four-byte read that lies half inside QENC's write footprint, and a write of each other width that meets one. -/
theorem wit_race_wide : ∃ (s : State) (l : Latched), s.inFlight = some l ∧ l.op = .command .qenc ∧
    s.resetLevel = false ∧ 0x200 % 4 = 0 ∧ 0x200 + 4 ≤ s.params.dmemSize ∧
    (List.range 4).map (fun k => anyHas (writeFootprints .qenc l.snap) (0x200 + k)) = [true, true, false, false] ∧
    anyHas (readFootprints .qenc l.snap) (8 + 7) = true ∧ anyHas (readFootprints .qenc l.snap) 0x10 = false :=
  ⟨encodingQE2, _, rfl, by decide +kernel⟩

/-- A racing write of eight bytes marks the command; one just past its footprints does not. -/
theorem test_race_mark :
    [8, 0x10].map (fun a =>
      (after { encodingQE2 with script := [.memWrite a 8 0], turns := [.host] }).inFlight.map (·.raced)) =
      [some true, some false] := by decide +kernel

/-- CTRL at idle and ignored writes to CAP and OUTLEN (`10_state.md` R37, R38, R53). -/
theorem test_ctrl_and_read_only :
    (after (State.reset.withProgram [.wr .CTRL 0x7FFFFFFD#32])).ctrl = { ieDone := true, ieErr := false } ∧
    after (State.reset.withProgram [.wr .CAP 1]) = State.reset ∧
    after (State.reset.withProgram [.wr .OUTLEN 1]) = State.reset := by decide

/-- Asserting RESET changes its level alone; releasing a released line changes nothing (log entry 11). -/
theorem test_reset_level :
    after { State.reset with script := [.resetPin true] } = { State.reset with resetLevel := true } ∧
    after { State.reset with script := [.resetPin false] } = State.reset := by decide

/-- What a soft reset abandons: a command and an illegal word. -/
theorem wit_abandoned : (flying ParamRegs.reset 8).inFlight.map (·.op) = some (.command .hann) ∧
    (flying ParamRegs.reset 9).inFlight.map (·.op) = some (.illegal .reservedOpcode) := by decide

/-- The invariant is met by a state with HANN in flight, whose step answers a next state. -/
theorem wit_invariant : ∃ s t : State, s.Inv ∧ s.inFlight.isSome = true ∧ step s = .next t :=
  ⟨flying ParamRegs.reset 8, _,
    ⟨by decide, by decide, by decide, by decide, by decide, by decide, by decide, by
      intro l hl
      obtain rfl : _ = l := Option.some.inj hl
      decide, by decide⟩, rfl, rfl⟩

/-- The arguments of the window and of the two cosines, at both ends of their ranges. -/
theorem wit_window : 2 ≤ 2 ∧ 0 < 2 ∧ 2 ^ 20 - 1 < 2 ^ 20 ∧ 2 ≤ 2 ^ 20 ∧ 0 < 1 := by decide

/-- Finite, infinite and NaN operands of the comparisons, and a list of finite values with equal least ones. -/
theorem wit_comparisons : isFin (f64Zero true) = true ∧ isFin ONE = true ∧ isNaN f64NaN = true ∧
    isNaN (f64Inf false) = false ∧ ([0, f64Zero true, ONE].all isFin) = true := by decide +kernel

/-- Arguments for each case of MAG, LOG10R and EXP10R, two of them in order. -/
theorem wit_elementary : isInf (f64Inf true) = true ∧ isNaN f64NaN = true ∧ isInf f64NaN = false ∧ isFin TEN = true ∧
    flt (fneg ONE) 0 = true ∧ 0 < f64Rat ONE ∧ f64Rat ONE = 10 ^ 0 ∧ f64Rat ONE ≤ f64Rat ONE := by
  have h : f64Rat ONE = 1 := by
    have hu : f64Units ONE = (unitsOne : Int) := by decide +kernel
    rw [f64Rat, hu, unitsOne, Int.cast_natCast, Nat.cast_pow, Nat.cast_ofNat]
    exact div_self (pow_ne_zero _ two_ne_zero)
  refine ⟨by decide +kernel, by decide +kernel, by decide +kernel, by decide +kernel, by decide +kernel, ?_, ?_, le_rfl⟩
  · rw [h]; exact zero_lt_one
  · rw [h, pow_zero]

theorem wit_parameters_legal : State.reset.params.legal := by decide

end Sys2Proof.Tests
end

section
/-! The step lemma of the machine's invariant (O59): each event of the HOST and each turn keeps `State.Inv`, by the
operation lemmas `Inv_…` and the case lemma `onEvent_cases`. -/
namespace Sys2Proof.Machine

variable {s t : State}

/-! ### The fields the invariant does not speak of -/

theorem Inv_setScript (h : s.Inv) (script : List HostEvent) : State.Inv { s with script := script } :=
  Inv_of_outer h rfl rfl rfl rfl rfl rfl rfl rfl rfl le_rfl

theorem Inv_setRdata (h : s.Inv) (v : BitVec 64) : State.Inv { s with rdata := v } :=
  Inv_of_outer h rfl rfl rfl rfl rfl rfl rfl rfl rfl le_rfl

theorem Inv_passTurn (h : s.Inv) : s.passTurn.Inv :=
  Inv_of_outer h rfl rfl rfl rfl rfl rfl rfl rfl rfl le_rfl

/-! ### The HOST's turn -/

/-- A REG read changes `rdata` and, under RESET, the draw counter alone, so it keeps the invariant. -/
theorem Inv_onRegRead (h : s.Inv) {off : BitVec 12} {w : Nat} (ht : s.onRegRead off w = .next t) : t.Inv := by
  unfold State.onRegRead at ht
  split at ht
  · cases ht
  · split at ht
    · cases ht
    · split at ht
      · exact Host.Outcome.next.inj ht ▸ Inv_readInReset h
      · exact Host.Outcome.next.inj ht ▸ Inv_setRdata h _

/-- Every event of the script keeps the invariant. -/
theorem Inv_onEvent (h : s.Inv) {e : HostEvent} (ht : s.onEvent e = .next t) : t.Inv := by
  rcases onEvent_cases ht with ⟨off, v, -, rfl⟩ | ⟨off, rfl, -⟩ | ⟨a, w, v, -, rfl⟩ | ⟨a, w, -, rfl⟩ |
    ⟨level, -, rfl⟩ | ⟨-, u, hu, rfl⟩
  · split
    · exact h
    · exact Inv_writeOffset h off v
  · exact Inv_onRegRead h ht
  · split
    · exact h
    · exact Inv_memPortWrite h a w v
  · split
    · exact Inv_readInReset h
    · exact Inv_memPortRead h a w
  · exact Inv_driveReset h level
  · have hu' : u.Inv := Inv_onRegRead h hu
    split
    · exact Inv_setScript hu' _
    · exact hu'

/-- The HOST's turn keeps the invariant. -/
theorem Inv_hostTurn (h : s.Inv) (ht : s.hostTurn = .next t) : t.Inv := by
  cases hs : s.script with
  | nil =>
    rw [hostTurn_nil hs] at ht
    cases ht
    exact h
  | cons e rest =>
    rw [hostTurn_cons hs] at ht
    exact Inv_onEvent (Inv_setScript h rest) ht

/-! ### The step -/

/-- Settles O59: the step is one turn of the sequencer or of the HOST, and each of the two keeps the invariant. -/
theorem invariantKeptByEveryStep : Obligations.InvariantKeptByEveryStep := by
  intro s t h ht
  cases hm : s.coreMoves with
  | true => exact Inv_coreTurn (Inv_passTurn h) (step_of_coreMoves hm ▸ ht)
  | false => exact Inv_hostTurn (Inv_passTurn h) (step_of_hostMoves hm ▸ ht)

end Sys2Proof.Machine
end

section
/-! The statements of `10_state.md`: register writes and the presence bits, the read-only and reserved parts of the map,
the interrupt line, the accesses without a step, and the state right after reset. -/
namespace Sys2Proof.Machine

variable {s t : State}

/-! ### What a register write does, register by register -/

theorem writeReg_CTRL (s : State) (v : Word) : s.writeReg .CTRL v = s.ctrlWrite v := rfl

theorem writeReg_STATUS (s : State) (v : Word) : s.writeReg .STATUS v = s.statusWrite v := rfl

/-- At idle the write to a register that the busy-write rule guards is accepted (`45_control.md` R255). -/
theorem writeReg_accepted (hb : s.busy = false) {n : RegName} (hg : busyGuarded n = true) (v : Word) :
    s.writeReg n v = s.writeIdle n v := by
  unfold State.writeReg
  rw [hb, Bool.and_false, if_neg Bool.false_ne_true]
  cases n with
  | CTRL | STATUS => cases hg
  | _ => rfl

/-- A write to a read-only register is ignored at any time (`45_control.md` R255). -/
theorem writeReg_readOnly (s : State) {n : RegName} (hn : n ∈ [RegName.ID, .VERSION, .CAP, .OUTLEN]) (v : Word) :
    s.writeReg n v = s := by
  fin_cases hn <;> rfl

/-- An accepted write other than to CMD touches the parameter registers, SRATE and META_VALID alone. -/
theorem writeIdle_frame (s : State) {n : RegName} (hn : n ≠ .CMD) (v : Word) :
    s.writeIdle n v = { s with
      regs := (s.writeIdle n v).regs, srate := (s.writeIdle n v).srate
      metaValid := (s.writeIdle n v).metaValid } := by
  cases n with
  | CMD => exact absurd rfl hn
  | _ => rfl

/-- The parameter registers: those that a HOST write at idle stores into. -/
def parameterRegs : List RegName :=
  [.SRC, .DST, .SCR, .SIZE, .STRIDE, .SIG_LEN, .WSIZE, .OVERLAP, .SRATE, .NBINS, .NFRAMES, .QMIN_LO, .QMIN_HI,
    .QMAX_LO, .QMAX_HI]

theorem parameterRegs_accepted :
    ∀ n ∈ parameterRegs, busyGuarded n = true ∧ n ≠ .CMD ∧ n ≠ .META_VALID := by decide

/-- An accepted write to a parameter register updates the register file at that register alone; META_VALID, whose
presence bits follow the write, is stated apart. -/
theorem readReg_writeIdle_parameter (s : State) {n m : RegName} (hn : n ∈ parameterRegs) (v : Word)
    (hm : m ≠ .META_VALID) : (s.writeIdle n v).readReg m = if m = n then v else s.readReg m := by
  cases m with
  | META_VALID => exact absurd rfl hm
  | _ => fin_cases hn <;> rfl

/-! ### The fields of the register words (`10_state.md` R37 to R39, R41) -/

theorem ctrlWord_reserved (s : State) : s.ctrlWord.extractLsb' 2 30 = 0 := by
  rw [State.ctrlWord]
  iterate 2 rw [BitVec.extractLsb'_append_eq_of_le (by omega)]
  rfl

/-- Above the four flags stand four reserved bits, and above ERRCODE and LASTOP eight. -/
theorem statusWord_reserved (s : State) :
    s.statusWord.extractLsb' 4 4 = 0 ∧ s.statusWord.extractLsb' 24 8 = 0 := by
  rw [State.statusWord]
  constructor
  · iterate 4 rw [BitVec.extractLsb'_append_eq_of_le (by omega)]
    rw [BitVec.extractLsb'_append_eq_of_add_le (by omega)]
    rfl
  · iterate 7 rw [BitVec.extractLsb'_append_eq_of_le (by omega)]
    rfl

/-- Reserved bits stand between LOG2_NMAX and LOG2_DMEM, and above LOG2_DMEM. -/
theorem capWord_reserved (s : State) : s.capWord.extractLsb' 5 3 = 0 ∧ s.capWord.extractLsb' 14 18 = 0 := by
  rw [State.capWord]
  constructor
  · rw [BitVec.extractLsb'_append_eq_of_le (by omega), BitVec.extractLsb'_append_eq_of_add_le (by omega)]
    rfl
  · iterate 3 rw [BitVec.extractLsb'_append_eq_of_le (by omega)]
    rfl

theorem metaWord_reserved (m : MetaValid) : (metaWord m).extractLsb' 5 27 = 0 := by
  rw [metaWord]
  iterate 5 rw [BitVec.extractLsb'_append_eq_of_le (by omega)]
  rfl

/-- The presence bits, in the order of R41. -/
theorem metaWord_bits (m : MetaValid) :
    (metaWord m).getLsbD 0 = m.vWsize ∧ (metaWord m).getLsbD 1 = m.vOverlap ∧ (metaWord m).getLsbD 2 = m.vSrate ∧
      (metaWord m).getLsbD 3 = m.vMin ∧ (metaWord m).getLsbD 4 = m.vMax := by
  obtain ⟨w, o, r, mn, mx⟩ := m
  revert w o r mn mx
  decide

/-- A write to META_VALID clears the presence bits it names, and sets none. -/
theorem metaWord_clearBits (m : MetaValid) (v : Word) {i : Nat} (hi : i < 5) :
    (metaWord (m.clearBits v)).getLsbD i = ((metaWord m).getLsbD i && !v.getLsbD i) := by
  interval_cases i <;> simp only [metaWord_bits] <;> rfl

/-! ### The register port at a reserved offset (`10_state.md` R56) -/

theorem onRegWrite_reserved (hr : s.resetLevel = false) {off : BitVec 12} (ha : off.toNat % 4 = 0)
    (hn : regAt off = none) (v : Word) : s.onRegWrite off 4 v = .next s := by
  simp [State.onRegWrite, regWidthOk, regOffsetOk, State.writeOffset, hr, ha, hn]

theorem onRegRead_reserved (hr : s.resetLevel = false) {off : BitVec 12} (ha : off.toNat % 4 = 0)
    (hn : regAt off = none) : s.onRegRead off 4 = .next { s with rdata := 0 } := by
  simp [State.onRegRead, regWidthOk, regOffsetOk, State.readOffset, hr, ha, hn]

/-! ### Which events have a step (`45_control.md` R263) -/

section
variable {widthOk alignOk inReset : Bool} {r₁ r₂ : Refusal} {x y : State}

/-- Each access of a port has this shape; one that keeps both duties answers, under RESET or not. -/
theorem guarded_answers (h : (widthOk && alignOk) = true) :
    ∃ t, (if !widthOk then Host.Outcome.refused r₁ else if !alignOk then .refused r₂
      else if inReset then .next x else .next y : Host.Outcome State Fault Refusal) = .next t := by
  obtain ⟨rfl, rfl⟩ := Bool.and_eq_true_iff.mp h
  cases inReset
  · exact ⟨y, rfl⟩
  · exact ⟨x, rfl⟩

/-- An access that breaks a duty is refused: for its width first, then for its alignment. -/
theorem guarded_refuses (h : (widthOk && alignOk) = false) :
    ∃ r, (if !widthOk then Host.Outcome.refused r₁ else if !alignOk then .refused r₂
      else if inReset then .next x else .next y : Host.Outcome State Fault Refusal) = .refused r := by
  cases widthOk with
  | false => exact ⟨r₁, rfl⟩
  | true =>
    obtain rfl : alignOk = false := h
    exact ⟨r₂, rfl⟩

end

/-- An event that keeps the HOST's duties answers a next state. -/
theorem onEvent_answers (s : State) {e : HostEvent} (h : HostEventOk e = true) : ∃ t, s.onEvent e = .next t := by
  cases e with
  | regWrite | regRead | memWrite | memRead => exact guarded_answers h
  | resetPin => exact ⟨_, rfl⟩
  | waitLoop =>
    obtain ⟨u, hu⟩ : ∃ u, s.onRegRead (regOffset .STATUS) 4 = .next u := guarded_answers rfl
    exact ⟨_, by rw [State.onEvent, State.waitPass, hu]⟩

/-- An event that breaks one is an access, and is refused by name (log entry 16). -/
theorem onEvent_refuses (s : State) {e : HostEvent} (h : HostEventOk e = false) : ∃ r, s.onEvent e = .refused r := by
  cases e with
  | regWrite | regRead | memWrite | memRead => exact guarded_refuses h
  | resetPin | waitLoop => cases h

theorem onEvent_answers_iff (s : State) (e : HostEvent) : (∃ t, s.onEvent e = .next t) ↔ HostEventOk e = true := by
  refine ⟨fun ⟨t, ht⟩ => ?_, onEvent_answers s⟩
  by_contra h
  obtain ⟨r, hr⟩ := onEvent_refuses s (Bool.eq_false_of_not_eq_true h)
  cases ht.symm.trans hr

/-- The HOST's turn is refused only for its next event. -/
theorem hostTurn_answers_iff (s : State) :
    (∃ t, s.hostTurn = .next t) ↔ ∀ e rest, s.script = e :: rest → HostEventOk e = true := by
  cases hs : s.script with
  | nil => simp [hostTurn_nil hs]
  | cons e rest => rw [hostTurn_cons hs, onEvent_answers_iff]; simp

theorem exec_answers (i : Instr) (s : State) : ∃ t, exec i s = .next t := by
  rcases exec_cases i s with ⟨e, -, h⟩ | ⟨-, h⟩
  · exact ⟨_, h⟩
  · exact ⟨_, h⟩

theorem complete_answers (s : State) (l : Latched) : ∃ t, s.complete l = .next t := by
  unfold State.complete
  cases l.op with
  | illegal => exact ⟨_, rfl⟩
  | command i =>
    obtain ⟨t, ht⟩ := exec_answers i s
    exact ⟨t.settleRace l, by simp only [ht]⟩

/-- Every turn of the sequencer answers: idle, under RESET, or with a completion. -/
theorem coreTurn_answers (s : State) : ∃ t, s.coreTurn = .next t := by
  unfold State.coreTurn
  split
  · exact ⟨s, rfl⟩
  · split
    · next l _ => exact complete_answers s l
    · exact ⟨s, rfl⟩

/-! ### The interrupt line (`10_state.md` R61, `60_exceptions.md` R282) -/

/-- Every completion sets DONE and leaves the enables, on success and on error. -/
theorem exec_done {i : Instr} (h : exec i s = .next t) : t.status.done = true ∧ t.ctrl = s.ctrl := by
  rcases exec_cases i s with ⟨e, -, hx⟩ | ⟨-, hx⟩ <;> cases hx.symm.trans h
  · exact ⟨rfl, rfl⟩
  · obtain ⟨-, hctrl, -⟩ := commandEffects_frame i s
    exact ⟨rfl, hctrl⟩

theorem irq_of_done (h : s.status.done = true) : s.irq = (s.ctrl.ieDone || (s.status.err && s.ctrl.ieErr)) := by
  rw [State.irq, h, Bool.true_and]

/-- Without SRST a CTRL write stores the two enables and keeps what is pending. -/
theorem ctrlWrite_enables (s : State) {v : Word} (h : v.getLsbD 31 = false) :
    s.ctrlWrite v = { s with ctrl := { ieDone := v.getLsbD 0, ieErr := v.getLsbD 1 } } := by
  simp only [State.ctrlWrite, h, Bool.false_eq_true, if_false]

/-- An acknowledgement of both pending sources takes the line low, whatever the enables. -/
theorem irq_statusWrite (s : State) {v : Word} (h1 : v.getLsbD 1 = true) (h2 : v.getLsbD 2 = true) :
    (s.statusWrite v).irq = false := by
  simp [State.irq, h1, h2]

/-! ### The statements -/

/-- Settles O50: the accepted write is `writeIdle`, an update of the register file at the register written. -/
theorem parameterWrites : Obligations.ParameterWrites := by
  intro s v n hb hr hn
  obtain ⟨hguarded, hcmd, hmeta⟩ := parameterRegs_accepted n hn
  refine ⟨s.writeIdle n v, ?_, ?_, ?_, writeIdle_frame s hcmd v⟩
  · rw [onRegWrite_regOffset hr, writeReg_accepted hb hguarded]
  · rw [readReg_writeIdle_parameter s hn v hmeta, if_pos rfl]
  · intro m hm hm'
    rw [readReg_writeIdle_parameter s hn v hm', if_neg hm]

/-- Settles O51: the accepted write is `writeIdle`, which says which bit of META_VALID follows the write. -/
theorem presenceBits : Obligations.PresenceBits := by
  intro s t v n hb hr ht
  have accepted : ∀ {m : RegName}, n = m → busyGuarded m = true → t = s.writeIdle m v := by
    rintro _ rfl hg
    rw [onRegWrite_regOffset hr, writeReg_accepted hb hg] at ht
    exact (Host.Outcome.next.inj ht).symm
  refine ⟨fun h => congrArg State.metaValid (accepted h rfl), fun h => congrArg State.metaValid (accepted h rfl),
    fun h => ?_, fun h => congrArg State.metaValid (accepted h rfl),
    fun h => congrArg State.metaValid (accepted h rfl), fun h => ?_, fun h => ?_⟩
  · rw [accepted h rfl]
    simp only [ne_eq, decide_not]
    rfl
  · fin_cases h <;> rw [accepted rfl rfl] <;> rfl
  · rw [accepted h rfl]
    exact ⟨rfl, fun i hi => metaWord_clearBits s.metaValid v hi⟩

/-- Settles O52: by the register or the reserved offset, and by the fields of each word. -/
theorem readOnlyAndReserved : Obligations.ReadOnlyAndReserved := by
  refine ⟨fun s => ⟨rfl, rfl⟩, fun s v hr => ?_, fun s off v hr ha hoff => ?_, fun s => ?_⟩
  · have ignored : ∀ n ∈ [RegName.ID, .VERSION, .CAP, .OUTLEN], s.onRegWrite (regOffset n) 4 v = .next s :=
      fun n hn => by rw [onRegWrite_regOffset hr, writeReg_readOnly s hn]
    exact ⟨ignored .ID (by decide), ignored .VERSION (by decide), ignored .CAP (by decide),
      ignored .OUTLEN (by decide)⟩
  · have hn := regAt_reserved off hoff
    exact ⟨onRegRead_reserved hr ha hn, onRegWrite_reserved hr ha hn v⟩
  · obtain ⟨hstatus, hstatus'⟩ := statusWord_reserved s
    exact ⟨ctrlWord_reserved s, hstatus, hstatus', metaWord_reserved s.metaValid, capWord_reserved s⟩

/-- Settles O56: a completion sets DONE and keeps CTRL, a CTRL write keeps STATUS, and an acknowledgement clears both
pending bits. -/
theorem interruptLine : Obligations.InterruptLine := by
  refine ⟨fun s => ?_, fun i s t h => ?_, fun s t v hr hv h => ?_, fun s t v hr h1 h2 h => ?_⟩
  · simp [State.irq]
  · obtain ⟨hdone, hctrl⟩ := exec_done h
    rw [irq_of_done hdone, hctrl]
  · obtain rfl := Host.Outcome.next.inj ((onRegWrite_regOffset hr .CTRL v).symm.trans h)
    rw [writeReg_CTRL, ctrlWrite_enables s hv]
    exact ⟨rfl, rfl⟩
  · obtain rfl := Host.Outcome.next.inj ((onRegWrite_regOffset hr .STATUS v).symm.trans h)
    rw [writeReg_STATUS, irq_statusWrite s h1 h2]

/-- Settles O57: a step is one turn of the sequencer, which always answers, or of the HOST, which answers unless its next
event breaks a duty. -/
theorem stepAnswersUnlessDutyBroken : Obligations.StepAnswersUnlessDutyBroken := by
  refine ⟨fun s => ?_, fun s off w v h => ?_, fun s a w v h => ?_⟩
  · cases hm : s.coreMoves with
    | true =>
      rw [State.stepsOn, step_of_coreMoves hm]
      exact iff_of_true (coreTurn_answers _) (.inl rfl)
    | false =>
      rw [State.stepsOn, step_of_hostMoves hm, hostTurn_answers_iff]
      simp [State.passTurn]
  · have hbroken : (regWidthOk w && regOffsetOk off) = false := by
      simpa [regWidthOk, regOffsetOk, imp_iff_not_or] using h
    exact ⟨guarded_refuses hbroken, guarded_refuses hbroken⟩
  · have hbroken : (memWidthOk w && memAlignOk a w) = false := by
      simpa [memWidthOk, memAlignOk, imp_iff_not_or, and_assoc] using h
    exact ⟨guarded_refuses hbroken, guarded_refuses hbroken⟩

/-- Settles O49: each register has its reset value, and no byte of DMEM is written. -/
theorem resetValues : Obligations.ResetValues :=
  ⟨by decide, rfl, rfl, rfl, fun _ => rfl⟩

/-- Settles O58: nothing is in flight, no bit of META_VALID or STATUS is set, and DMEM lists no byte. -/
theorem invariantAtReset : Obligations.InvariantAtReset where
  params := by decide
  canonical := rfl
  inside := fun c hc => absurd hc List.not_mem_nil
  codes := by decide
  errHasCode := fun h => absurd h (by decide)
  lastOp := by decide
  srate := fun h => absurd h (by decide)
  flight := fun l hl => by cases hl
  drawn := by decide

end Sys2Proof.Machine
end

section
/-! The statements of `20_memory.md`: elements in DMEM, the DMEM port, and the race of a HOST access with the command
in flight. -/
namespace Sys2Proof.Machine

/-! ### Elements -/

/-- Byte k of the word that at most eight bytes compose to. -/
theorem extract_ofNat_leNat {bs : List Byte} {k : Nat} {b : Byte} (hlen : bs.length ≤ 8) (h : bs[k]? = some b) :
    (BitVec.ofNat 64 (leNat bs)).extractLsb' (8 * k) 8 = b := by
  have hlt : leNat bs < 2 ^ 64 :=
    (leNat_lt bs).trans_le (Nat.pow_le_pow_right (n := 256) (by omega) hlen)
  apply BitVec.eq_of_toNat_eq
  rw [extract_byte, BitVec.toNat_ofNat, BitVec.toNat_ofNat, Nat.mod_eq_of_lt hlt]
  exact leNat_div_mod bs k b h

/-- `ReadF64` is little-endian (`20_memory.md` R81, R82). -/
theorem extract_readF64 (s : State) (a : Nat) {i : Nat} (hi : i < 8) :
    (s.readF64 a).extractLsb' (8 * i) 8 = s.byteAt (a + i) :=
  extract_ofNat_leNat (by simp [State.bytesAt]) (by simp [State.bytesAt, hi])

theorem cellsFrom_append (base : Nat) (bs cs : List Byte) :
    cellsFrom base (bs ++ cs) = cellsFrom base bs ++ cellsFrom (base + bs.length) cs := by
  induction bs generalizing base with
  | nil => rfl
  | cons b bs ih => simp [cellsFrom, ih, Nat.add_assoc, Nat.add_comm 1]

/-- The cells listed below `n` after a block that ends at `n` is stored: those below the block, and the block. -/
theorem Memory.filter_store_below (m : Memory) (base : Nat) (bs : List Byte) :
    (m.store base bs).filter (fun c => decide (c.1 < base + bs.length)) =
      m.filter (fun c => decide (c.1 < base)) ++ cellsFrom base bs := by
  have hblock : (cellsFrom base bs).filter (fun c => decide (c.1 < base + bs.length)) = cellsFrom base bs :=
    List.filter_eq_self.mpr fun c hc => decide_eq_true (mem_cellsFrom hc).2
  simp only [Memory.store, List.filter_append, List.filter_filter, hblock, ← Bool.decide_and]
  have hlow : ∀ c : Host.Cell, (c.1 < base + bs.length ∧ c.1 < base) = (c.1 < base) := by
    intro c; simp only [eq_iff_iff]; omega
  have hhigh : ∀ c : Host.Cell, (c.1 < base + bs.length ∧ base + bs.length ≤ c.1) = False := by
    intro c; simp only [eq_iff_iff, iff_false]; omega
  simp [hlow, hhigh]

/-- The cells listed from `n` on, past the end of a stored block, are those of the old memory. -/
theorem Memory.filter_store_above (m : Memory) {base n : Nat} {bs : List Byte} (hn : base + bs.length ≤ n) :
    (m.store base bs).filter (fun c => decide (n ≤ c.1)) = m.filter (fun c => decide (n ≤ c.1)) := by
  have hblock : (cellsFrom base bs).filter (fun c => decide (n ≤ c.1)) = [] :=
    List.filter_eq_nil_iff.mpr fun c hc => by have := mem_cellsFrom hc; simp; omega
  simp only [Memory.store, List.filter_append, List.filter_filter, hblock, ← Bool.decide_and]
  have hlow : ∀ c : Host.Cell, (n ≤ c.1 ∧ c.1 < base) = False := by
    intro c; simp only [eq_iff_iff, iff_false]; omega
  have hhigh : ∀ c : Host.Cell, (n ≤ c.1 ∧ base + bs.length ≤ c.1) = (n ≤ c.1) := by
    intro c; simp only [eq_iff_iff]; omega
  simp [hlow, hhigh]

/-- Two adjacent blocks stored at once or one after the other leave the same memory. -/
theorem Memory.store_append (m : Memory) (base : Nat) (bs cs : List Byte) :
    m.store base (bs ++ cs) = (m.store base bs).store (base + bs.length) cs := by
  conv_rhs =>
    rw [Memory.store, Memory.filter_store_below, Memory.filter_store_above m (Nat.le_add_right _ _)]
  rw [Memory.store, cellsFrom_append, List.length_append, Nat.add_assoc]
  simp only [List.append_assoc]

theorem storeBytes_append (s : State) (base : Nat) (bs cs : List Byte) :
    s.storeBytes base (bs ++ cs) = (s.storeBytes base bs).storeBytes (base + bs.length) cs := by
  simp only [State.storeBytes, Memory.store_append]

/-- `WriteC` is `WriteF64` of the real part, then of the imaginary part (`20_memory.md` R83). -/
theorem writeCs_singleton (s : State) (a : Nat) (z : Cplx) :
    s.writeCs a [z] = (s.writeF64s a [z.re]).writeF64s (a + 8) [z.im] := by
  simp only [State.writeCs, State.writeF64s, List.flatMap_singleton, cplxBytes, storeBytes_append, length_f64Bytes]

/-! ### The DMEM port, for an access that fits -/

variable {s : State} {a w : Nat}

/-- An access the port accepts is at most eight bytes wide. -/
theorem width_le (hw : w ∈ [1, 2, 4, 8]) : w ≤ 8 := by fin_cases hw <;> decide

theorem liveWrites_of_inFlight {l : Latched} (hl : s.inFlight = some l) : s.liveWrites = l.writes := by
  rw [State.liveWrites, hl]

theorem hostByte_of_not_live {b : Nat} (h : anyHas s.liveWrites b = false) : s.hostByte b = s.byteAt b := by
  rw [State.hostByte, h, if_neg Bool.false_ne_true]

/-- A DMEM read changes the read data and the draw counter alone. -/
theorem memPortRead_frame (s : State) (a w : Nat) :
    s.memPortRead a w = { s with rdata := (s.memPortRead a w).rdata, draws := (s.memPortRead a w).draws } := by
  unfold State.memPortRead
  split <;> rfl

/-- A DMEM read takes a draw occasion when one of its bytes lies in a live write footprint. -/
theorem draws_memPortRead (hf : a + w ≤ s.params.dmemSize) :
    (s.memPortRead a w).draws = if touches s.liveWrites a w = true then s.draws + 1 else s.draws := by
  rw [State.memPortRead, if_pos hf]

theorem byteAt_markRace (s : State) (a w b : Nat) : (s.markRace a w).byteAt b = s.byteAt b := by
  unfold State.markRace
  split <;> rfl

/-- What a DMEM write leaves of every byte. -/
theorem byteAt_memPortWrite (hf : a + w ≤ s.params.dmemSize) (v : BitVec 64) (b : Nat) :
    (s.memPortWrite a w v).byteAt b = if a ≤ b ∧ b < a + w then v.extractLsb' (8 * (b - a)) 8 else s.byteAt b := by
  rw [State.memPortWrite, if_pos hf, byteAt_markRace, byteAt_memWrite]

theorem byteAt_memPortWrite_inside (hf : a + w ≤ s.params.dmemSize) (v : BitVec 64) {i : Nat} (hi : i < w) :
    (s.memPortWrite a w v).byteAt (a + i) = v.extractLsb' (8 * i) 8 := by
  rw [byteAt_memPortWrite hf, if_pos (by omega), Nat.add_sub_cancel_left]

theorem byteAt_memPortWrite_outside (hf : a + w ≤ s.params.dmemSize) (v : BitVec 64) {b : Nat}
    (hb : b < a ∨ a + w ≤ b) : (s.memPortWrite a w v).byteAt b = s.byteAt b := by
  rw [byteAt_memPortWrite hf, if_neg (by omega)]

theorem memPortWrite_dmem (hf : a + w ≤ s.params.dmemSize) (v : BitVec 64) :
    (s.memPortWrite a w v).dmem = (s.memWrite a w v.toNat).dmem := by
  rw [memPortWrite_frame s hf]

/-- A DMEM write changes DMEM and the command in flight alone. -/
theorem memPortWrite_eq (hf : a + w ≤ s.params.dmemSize) (v : BitVec 64) :
    s.memPortWrite a w v =
      { s with dmem := (s.memPortWrite a w v).dmem, inFlight := (s.memPortWrite a w v).inFlight } := by
  rw [memPortWrite_dmem hf]
  exact memPortWrite_frame s hf v

/-- The race mark after a DMEM write: set before, or a byte of the access lies in a footprint (`20_memory.md` R97). -/
theorem memPortWrite_raced (hf : a + w ≤ s.params.dmemSize) (v : BitVec 64) {l : Latched} (hl : s.inFlight = some l) :
    ∃ m : Bool, (s.memPortWrite a w v).inFlight = some { l with raced := m } ∧
      (m = true ↔ l.raced = true ∨ ∃ i < w, anyHas (l.reads ++ l.writes) (a + i) = true) := by
  refine ⟨l.raced || touches (l.reads ++ l.writes) a w, ?_, ?_⟩
  · rw [memPortWrite_inFlight s hf, hl, Option.map_some]
  · rw [Bool.or_eq_true, touches_iff]

/-! ### The completion of a command -/

theorem exec_params_draws {i : Instr} {u : State} (h : exec i s = .next u) :
    u.params = s.params ∧ u.draws = s.draws := by
  rcases exec_cases i s with ⟨e, -, hx⟩ | ⟨-, hx⟩ <;> cases hx.symm.trans h
  · exact ⟨rfl, rfl⟩
  · obtain ⟨hparams, -, -, -, -, -, -, -, hdraws, -⟩ := commandEffects_frame i s
    exact ⟨hparams, hdraws⟩

/-- With a command latched and RESET released, the sequencer's turn is `exec` and then the race. -/
theorem coreTurn_command {l : Latched} {i : Instr} {u : State} (hr : s.resetLevel = false) (hl : s.inFlight = some l)
    (hop : l.op = .command i) (hu : exec i s = .next u) : s.coreTurn = .next (u.settleRace l) := by
  simp [State.coreTurn, State.complete, hr, hl, hop, hu]

theorem settleRace_raced {l : Latched} (h : l.raced = true) : s.settleRace l = s.drawFootprints l.writes := by
  rw [State.settleRace, if_pos h]

/-! ### The statements -/

/-- Settles O44: a word gives back the bytes it is composed of, a stored element reads back canonical, and two adjacent
stores are one. -/
theorem elementsInMemory : Obligations.ElementsInMemory := by
  refine ⟨fun s a i hi => extract_readF64 s a hi, fun s a => rfl, fun v => rfl, fun s a v => ⟨?_, fun b hb => ?_⟩,
    writeCs_singleton⟩
  · exact readF64_writeF64s s a [v] 0 Nat.zero_lt_one
  · exact byteAt_writeF64s_outside s hb

/-- Settles O54: the accepted access is `memPortWrite` or `memPortRead`, which do nothing to DMEM beyond its end. -/
theorem dmemPort : Obligations.DmemPort := by
  intro s a w v hr hw ha
  rw [onMemWrite_ok hr hw ha, onMemRead_ok hr hw ha]
  refine ⟨fun hf => ?_, fun hf hlive => ?_, fun hbeyond => ?_⟩
  · refine ⟨_, rfl, fun i hi => byteAt_memPortWrite_inside hf v hi, fun b hb => byteAt_memPortWrite_outside hf v hb,
      memPortWrite_eq hf v, fun hn => ?_, fun l hl => memPortWrite_raced hf v hl⟩
    rw [memPortWrite_inFlight s hf, hn, Option.map_none]
  · have hdraws : (s.memPortRead a w).draws = s.draws := by
      rw [draws_memPortRead hf, touches_eq_false.mpr hlive, if_neg Bool.false_ne_true]
    refine ⟨_, rfl, fun i hi => ?_, rdata_memPortRead_lt s (width_le hw) hf, ?_⟩
    · rw [rdata_memPortRead s (width_le hw) hf hi, hostByte_of_not_live (hlive i hi)]
    · conv_lhs => rw [memPortRead_frame, hdraws]
  · rw [State.memPortWrite, State.memPortRead, if_neg (by omega), if_neg (by omega)]
    exact ⟨rfl, rfl⟩

/-- Settles O55: a read byte is `hostByte`, a write marks the race, and a marked completion is `exec` followed by the
draws of the write footprints. -/
theorem footprintRace : Obligations.FootprintRace := by
  intro s l i hl hop hr
  have hreads : l.reads = readFootprints i l.snap := by rw [Latched.reads, hop]
  have hwrites : l.writes = writeFootprints i l.snap := by rw [Latched.writes, hop]
  have hlive : s.liveWrites = l.writes := liveWrites_of_inFlight hl
  rw [← hreads, ← hwrites]
  refine ⟨fun a w v hw ha hf => ⟨?_, ?_⟩, fun hraced => ?_⟩
  · refine ⟨_, onMemRead_ok hr hw ha, fun k hk => ?_, rdata_memPortRead_lt s (width_le hw) hf,
      memPortRead_frame s a w, fun htouch => ?_, fun hmiss => ?_⟩
    · rw [rdata_memPortRead s (width_le hw) hf hk, State.hostByte, hlive]
    · rw [draws_memPortRead hf, hlive, touches_iff.mpr htouch, if_pos rfl]
    · rw [draws_memPortRead hf, hlive, touches_eq_false.mpr hmiss, if_neg Bool.false_ne_true]
  · exact ⟨_, onMemWrite_ok hr hw ha v, fun k hk => byteAt_memPortWrite_inside hf v hk,
      fun b hb => byteAt_memPortWrite_outside hf v hb, memPortWrite_eq hf v, memPortWrite_raced hf v hl⟩
  · obtain ⟨u, hu⟩ := exec_answers i s
    obtain ⟨hparams, hdraws⟩ := exec_params_draws hu
    refine ⟨u, u.drawFootprints l.writes, hu, ?_, fun a => ?_, rfl⟩
    · rw [coreTurn_command hr hl hop hu, settleRace_raced hraced]
    · rw [byteAt_drawFootprints, hparams, hdraws]
      exact if_congr And.comm rfl rfl

end Sys2Proof.Machine
end

section
/-! The statements of `30_encoding.md`: the opcode map read in both directions, and the completion of an illegal word. -/
namespace Sys2Proof

/-! ### Encode, then decode -/

/-- The family Encoding holds of every command. -/
theorem encoding_statement : ∀ i : Instr, Laws.Encoding.Statement i
  | .nop => Laws.Encoding.nop
  | .fft => Laws.Encoding.fft
  | .ifft => Laws.Encoding.ifft
  | .stft => Laws.Encoding.stft
  | .qenc => Laws.Encoding.qenc
  | .qdec => Laws.Encoding.qdec
  | .istft => Laws.Encoding.istft
  | .zphase => Laws.Encoding.zphase
  | .hann => Laws.Encoding.hann

@[simp] theorem decode_encode (i : Instr) : decode (encode i) = .command i := by
  obtain ⟨-, -, -, hdecode⟩ := encoding_statement i
  exact hdecode

/-! ### The fields of a command word (`30_encoding.md` R110) -/

theorem rsvdField_append_opField (c : Word) : rsvdField c ++ opField c = c := by
  rw [rsvdField, opField, BitVec.extractLsb'_append_extractLsb'_eq_extractLsb' (by omega)]
  exact BitVec.extractLsb'_eq_self

theorem toNat_opField (c : Word) : (opField c).toNat = c.toNat % 256 := by
  rw [opField, BitVec.extractLsb'_toNat, Nat.shiftRight_zero]

theorem toNat_rsvdField (c : Word) : (rsvdField c).toNat = c.toNat / 256 := by
  rw [rsvdField, BitVec.extractLsb'_toNat, Nat.shiftRight_eq_div_pow]
  exact Nat.mod_eq_of_lt (Nat.div_lt_of_lt_mul c.isLt)

theorem rsvdField_eq_zero_iff (c : Word) : rsvdField c = 0 ↔ c.toNat < 256 := by
  rw [← BitVec.toNat_inj, toNat_rsvdField]
  exact Nat.div_eq_zero_iff_lt (by decide)

/-! ### The opcode map (`30_encoding.md` R112, R114) -/

theorem eq_opcode_of_decodeOp {op : BitVec 8} {i : Instr} (h : decodeOp op = .command i) : op = opcode i := by
  unfold decodeOp at h
  split at h <;> cases h <;> exact BitVec.eq_of_toNat_eq ‹_›

theorem decodeOp_reserved {op : BitVec 8} (h : 9 ≤ op.toNat) : decodeOp op = .illegal .reservedOpcode := by
  unfold decodeOp
  obtain ⟨k, hk⟩ := Nat.exists_eq_add_of_le' h
  rw [hk]
  rfl

theorem decodeOp_mapped {op : BitVec 8} (h : op.toNat < 9) : ∃ i, decodeOp op = .command i := by
  unfold decodeOp
  interval_cases op.toNat <;> exact ⟨_, rfl⟩

theorem decodeOp_illegal_iff (op : BitVec 8) : (∃ why, decodeOp op = .illegal why) ↔ 9 ≤ op.toNat := by
  refine ⟨fun ⟨why, h⟩ => ?_, fun h => ⟨_, decodeOp_reserved h⟩⟩
  by_contra hlt
  obtain ⟨i, hi⟩ := decodeOp_mapped (not_le.mp hlt)
  cases hi.symm.trans h

/-! ### Decode (`30_encoding.md` R111, R113) -/

theorem decode_of_rsvd_zero {c : Word} (h : rsvdField c = 0) : decode c = decodeOp (opField c) := if_pos h

theorem decode_of_rsvd_set {c : Word} (h : rsvdField c ≠ 0) : decode c = .illegal .rsvdSet := if_neg h

theorem fields_of_decode {c : Word} {i : Instr} (h : decode c = .command i) :
    rsvdField c = 0 ∧ opField c = opcode i := by
  by_cases hr : rsvdField c = 0
  · rw [decode_of_rsvd_zero hr] at h
    exact ⟨hr, eq_opcode_of_decodeOp h⟩
  · cases (decode_of_rsvd_set hr).symm.trans h

theorem decode_eq_command_iff (c : Word) (i : Instr) : decode c = .command i ↔ c = encode i := by
  constructor
  · intro h
    obtain ⟨hrsvd, hop⟩ := fields_of_decode h
    calc c = rsvdField c ++ opField c := (rsvdField_append_opField c).symm
      _ = encode i := by rw [hrsvd, hop]; rfl
  · rintro rfl
    exact decode_encode i

theorem decode_illegal_iff (c : Word) :
    (∃ why, decode c = .illegal why) ↔ rsvdField c ≠ 0 ∨ 9 ≤ (opField c).toNat := by
  by_cases hr : rsvdField c = 0
  · rw [decode_of_rsvd_zero hr, decodeOp_illegal_iff, or_iff_right (not_not_intro hr)]
  · exact iff_of_true ⟨_, decode_of_rsvd_set hr⟩ (.inl hr)

/-! ### The statements on decode and encode -/

/-- The opcode map as the spec prints it: each command with its match value (`30_encoding.md` R112). -/
def opcodeMap : List (Instr × Word) :=
  [(.nop, 0x00000000#32), (.fft, 0x00000001#32), (.ifft, 0x00000002#32), (.stft, 0x00000003#32),
    (.qenc, 0x00000004#32), (.qdec, 0x00000005#32), (.istft, 0x00000006#32), (.zphase, 0x00000007#32),
    (.hann, 0x00000008#32)]

theorem encode_of_mem_opcodeMap : ∀ p ∈ opcodeMap, encode p.1 = p.2 := by decide

/-- Settles O2: the two fields make up the word, so a decoded command fixes the word, and each field decides its own
reason for an illegal one. -/
theorem decodeAgreesWithEncode : Obligations.DecodeAgreesWithEncode := by
  refine ⟨decode_eq_command_iff, fun c p hp => ?_, fun c => ?_⟩
  · rw [decode_eq_command_iff, encode_of_mem_opcodeMap p hp]
  · rw [decode_illegal_iff, ne_eq, rsvdField_eq_zero_iff, not_lt, toNat_opField]

/-- Settles O1: the nine words are those of the encoder, and each illegal word has a field that is out of the map. -/
theorem opcodeMapWords : Obligations.OpcodeMapWords :=
  ⟨decode_encode .nop, decode_encode .fft, decode_encode .ifft, decode_encode .stft, decode_encode .qenc,
    decode_encode .qdec, decode_encode .istft, decode_encode .zphase, decode_encode .hann,
    (decode_of_rsvd_zero rfl).trans (decodeOp_reserved (by decide)), decode_of_rsvd_set (by decide), decode_of_rsvd_set (by decide),
    decode_of_rsvd_set (by decide)⟩

end Sys2Proof

namespace Sys2Proof.Machine

variable {s : State} {l : Latched}

/-! ### The completion of an illegal word (`45_control.md` R257) -/

/-- With an illegal word latched and RESET released, the sequencer's turn is the error completion and then the race. -/
theorem coreTurn_illegal {why : IllegalWord} (hr : s.resetLevel = false) (hl : s.inFlight = some l)
    (hop : l.op = .illegal why) : s.coreTurn = .next ((s.errorComplete .IllegalCommand).settleRace l) := by
  simp [State.coreTurn, State.complete, hr, hl, hop]

theorem settleRace_not_raced (h : l.raced = false) : s.settleRace l = s := by
  rw [State.settleRace, h, if_neg Bool.false_ne_true]

/-- Settles O6: the word latches as illegal, and no race is marked at acceptance, so the turn is the error completion
alone. -/
theorem illegalWordCompletes : Obligations.IllegalWordCompletes := by
  intro s c hr hillegal
  obtain ⟨why, hop⟩ := (decode_illegal_iff c).mpr hillegal
  rw [coreTurn_illegal (s := s.accept c) hr (accept_inFlight s c) hop, settleRace_not_raced rfl]
  rfl

end Sys2Proof.Machine
end

section
/-! Patterns of `40_numerics.md` R140 by their two parts, the sign bit and the low 63 bits: the class of a pattern, its
value, and what flipping its sign does (R142). -/
namespace Sys2Proof.Machine

variable {v w : F64}

/-! ### The two parts of a pattern -/

theorem lowBits_lt (v : F64) : v.toNat % 2 ^ 63 < 2 ^ 63 := Nat.mod_lt _ (by positivity)

theorem mkF64_self (v : F64) : mkF64 (f64Sign v) (v.toNat % 2 ^ 63) = v := by
  have hv := v.isLt
  apply BitVec.eq_of_toNat_eq
  rw [toNat_mkF64 _ (lowBits_lt v)]
  simp only [f64Sign_iff]
  split <;> omega

/-- A pattern is determined by its two parts. -/
theorem f64_ext (hsign : f64Sign v = f64Sign w) (hlow : v.toNat % 2 ^ 63 = w.toNat % 2 ^ 63) : v = w := by
  rw [← mkF64_self v, ← mkF64_self w, hsign, hlow]

theorem getLsbD_fneg (v : F64) (i : Nat) : (fneg v).getLsbD i = if i = 63 then !v.getLsbD 63 else v.getLsbD i := by
  rw [fneg, BitVec.getLsbD_xor, show 0x8000000000000000#64 = BitVec.twoPow 64 63 from rfl, BitVec.getLsbD_twoPow]
  by_cases hi : i = 63
  · simp [hi]
  · simp [hi, Ne.symm hi]

@[simp] theorem f64Sign_fneg (v : F64) : f64Sign (fneg v) = !f64Sign v := (getLsbD_fneg v 63).trans (if_pos rfl)

@[simp] theorem lowBits_fneg (v : F64) : (fneg v).toNat % 2 ^ 63 = v.toNat % 2 ^ 63 := by
  apply Nat.eq_of_testBit_eq
  intro i
  rw [Nat.testBit_mod_two_pow, Nat.testBit_mod_two_pow]
  by_cases hi : i < 63
  · have := getLsbD_fneg v i
    rw [if_neg hi.ne] at this
    rw [show (fneg v).toNat.testBit i = v.toNat.testBit i from this]
  · simp [hi]

/-! ### Classes (`40_numerics.md` R140) -/

theorem isNaN_iff (v : F64) : isNaN v = true ↔ infBits < v.toNat % 2 ^ 63 := by
  rw [isNaN, Bool.and_eq_true, beq_iff_eq, bne_iff_ne, infBits, f64Exp, f64Frac]; omega

theorem isZero_iff (v : F64) : isZero v = true ↔ v.toNat % 2 ^ 63 = 0 := by rw [isZero, beq_iff_eq]

theorem isNaN_eq_false_of_isFin (h : isFin v = true) : isNaN v = false := by
  rw [Bool.eq_false_iff, ne_eq, isNaN_iff]
  exact ((isFin_iff v).mp h).not_gt

theorem isInf_eq_false_of_isFin (h : isFin v = true) : isInf v = false := by
  rw [Bool.eq_false_iff, ne_eq, isInf_iff]
  exact ((isFin_iff v).mp h).ne

@[simp] theorem isNaN_f64NaN : isNaN f64NaN = true := by decide

section
variable (n : Bool)

@[simp] theorem f64Sign_f64Inf : f64Sign (f64Inf n) = n := f64Sign_mkF64 n (by decide)
@[simp] theorem lowBits_f64Inf : (f64Inf n).toNat % 2 ^ 63 = infBits := toNat_mod_mkF64 n (by decide)
@[simp] theorem isNaN_f64Inf : isNaN (f64Inf n) = false := by cases n <;> decide
@[simp] theorem isInf_f64Inf : isInf (f64Inf n) = true := by cases n <;> decide
@[simp] theorem isZero_f64Inf : isZero (f64Inf n) = false := by cases n <;> decide

@[simp] theorem f64Sign_f64Zero : f64Sign (f64Zero n) = n := f64Sign_mkF64 n (by decide)
@[simp] theorem lowBits_f64Zero : (f64Zero n).toNat % 2 ^ 63 = 0 := toNat_mod_mkF64 n (by decide)
@[simp] theorem isFin_f64Zero : isFin (f64Zero n) = true := by cases n <;> decide
@[simp] theorem isZero_f64Zero : isZero (f64Zero n) = true := by cases n <;> decide

@[simp] theorem fneg_f64Inf : fneg (f64Inf n) = f64Inf (!n) := by cases n <;> decide
@[simp] theorem fneg_f64Zero : fneg (f64Zero n) = f64Zero (!n) := by cases n <;> decide

end

@[simp] theorem isNaN_fneg (v : F64) : isNaN (fneg v) = isNaN v := by
  rw [Bool.eq_iff_iff, isNaN_iff, isNaN_iff, lowBits_fneg]

@[simp] theorem isFin_fneg (v : F64) : isFin (fneg v) = isFin v := by
  rw [Bool.eq_iff_iff, isFin_iff, isFin_iff, lowBits_fneg]

theorem eq_f64Zero_of_isZero (h : isZero v = true) : v = f64Zero (f64Sign v) :=
  f64_ext (f64Sign_f64Zero _).symm (((isZero_iff v).mp h).trans (lowBits_f64Zero _).symm)

/-! ### Values (`40_numerics.md` R140) -/

@[simp] theorem f64Mag_fneg (v : F64) : f64Mag (fneg v) = f64Mag v := by rw [f64Mag_eq, lowBits_fneg, ← f64Mag_eq]

@[simp] theorem f64Units_fneg (v : F64) : f64Units (fneg v) = -f64Units v := by
  rw [f64Units, f64Units, f64Sign_fneg, f64Mag_fneg]
  cases f64Sign v <;> simp

@[simp] theorem f64Rat_fneg (v : F64) : f64Rat (fneg v) = -f64Rat v := by
  rw [f64Rat, f64Rat, f64Units_fneg, Int.cast_neg, neg_div]

theorem natAbs_f64Units (v : F64) : (f64Units v).natAbs = f64Mag v := by
  rw [f64Units]
  split <;> simp

theorem f64Mag_eq_zero_iff (v : F64) : f64Mag v = 0 ↔ isZero v = true := by
  rw [f64Mag_eq, isZero_iff]
  exact bitsMag_strictMono.injective.eq_iff' bitsMag_zero

theorem f64Units_eq_zero_iff (v : F64) : f64Units v = 0 ↔ isZero v = true := by
  rw [← Int.natAbs_eq_zero, natAbs_f64Units, f64Mag_eq_zero_iff]

theorem f64Rat_eq_zero_iff (v : F64) : f64Rat v = 0 ↔ isZero v = true := by
  rw [f64Rat, div_eq_zero_iff, or_iff_left (by positivity), Int.cast_eq_zero, f64Units_eq_zero_iff]

@[simp] theorem f64Rat_f64Zero (n : Bool) : f64Rat (f64Zero n) = 0 := (f64Rat_eq_zero_iff _).mpr (isZero_f64Zero n)

theorem f64Rat_lt_iff (v w : F64) : f64Rat v < f64Rat w ↔ f64Units v < f64Units w := by
  rw [f64Rat, f64Rat, div_lt_div_iff_of_pos_right (by positivity), Int.cast_lt]

theorem f64Rat_eq_iff (v w : F64) : f64Rat v = f64Rat w ↔ f64Units v = f64Units w := by
  rw [f64Rat, f64Rat, div_left_inj' (by positivity), Int.cast_inj]

/-- The value is the magnitude with the sign of the pattern, in units of 2^-1074. -/
theorem f64Rat_cast (v : F64) : (f64Rat v : ℝ) = (if f64Sign v then -1 else 1) * (f64Mag v : ℝ) / 2 ^ 1074 := by
  rw [f64Rat, f64Units, Rat.cast_div, Rat.cast_pow, Rat.cast_ofNat, Rat.cast_intCast]
  congr 1
  split <;> simp

theorem abs_f64Rat_cast (v : F64) : |(f64Rat v : ℝ)| = (f64Mag v : ℝ) / 2 ^ 1074 := by
  rw [f64Rat_cast, abs_div, abs_of_pos (by positivity : (0 : ℝ) < 2 ^ 1074), abs_mul, Nat.abs_cast]
  split <;> simp

/-- The value of a normal pattern with sign `neg`, exponent `e` and fraction `f`: 53 significant bits, scaled. -/
theorem f64Rat_normal {neg : Bool} {e f : Nat} (h : f64Sign v = neg ∧ f64Exp v = e ∧ f64Frac v = f ∧ e ≠ 0) :
    f64Rat v = (if neg then -1 else 1) * (2 ^ 52 + (f : ℚ)) * 2 ^ ((e : ℤ) - 1075) := by
  obtain ⟨rfl, rfl, rfl, h0⟩ := h
  have hmag : (f64Mag v : ℚ) / 2 ^ 1074 = (2 ^ 52 + (f64Frac v : ℚ)) * 2 ^ ((f64Exp v : ℤ) - 1075) := by
    have hexp : (f64Exp v : ℤ) - 1075 = ((f64Exp v - 1 : Nat) : ℤ) - (1074 : Nat) := by omega
    rw [f64Mag, if_neg (by simpa using h0), hexp, zpow_sub₀ two_ne_zero, zpow_natCast, zpow_natCast, ← mul_div_assoc]
    norm_cast
  rw [mul_assoc, ← hmag, f64Rat, f64Units]
  split
  · rw [Int.cast_neg, neg_div, neg_one_mul, Int.cast_natCast]
  · rw [one_mul, Int.cast_natCast]

theorem f64Rat_neg_iff (v : F64) : f64Rat v < 0 ↔ f64Sign v = true ∧ f64Rat v ≠ 0 := by
  have hU : (0 : ℚ) < 2 ^ 1074 := by positivity
  rw [ne_eq, f64Rat_eq_zero_iff, ← f64Mag_eq_zero_iff, f64Rat, div_lt_iff₀ hU, zero_mul, Int.cast_lt_zero, f64Units]
  cases f64Sign v
  · simp
  · simp [Nat.pos_iff_ne_zero]

theorem sign_of_pos (h : 0 < f64Rat v) : f64Sign v = false ∧ isZero v = false := by
  rw [Bool.eq_false_iff, Bool.eq_false_iff, ne_eq (isZero v), ← f64Rat_eq_zero_iff]
  exact ⟨fun hs => h.not_gt ((f64Rat_neg_iff v).mpr ⟨hs, h.ne'⟩), h.ne'⟩

end Sys2Proof.Machine
end

section
/-! The statement of `40_numerics.md` R141 and R149 on finite operands: each operation is one correct rounding of the exact
result, and f64(n) is exact up to 2^53. -/
namespace Sys2Proof.Machine

variable {a b v : F64}

/-! ### One correct rounding (`40_numerics.md` R149) -/

/-- A finite value with the sign of its pattern is its own rounding. -/
theorem isRne_f64Rat (hfin : isFin v = true) (hzero : v ≠ f64Zero true) : IsRne (f64Rat v : ℝ) v := by
  have h := isRne_of_nearest (x := f64Rat v) (b := v.toNat % 2 ^ 63) (neg := f64Sign v) ?_ ?_
  · rwa [mkF64_self] at h
  · rw [abs_f64Rat_cast, div_mul_cancel₀ _ (by positivity), f64Mag_eq]
    exact nearest_bitsMag ((isFin_iff v).mp hfin)
  · rw [Rat.cast_lt_zero, f64Rat_neg_iff, ne_eq, f64Rat_eq_zero_iff]
    exact ⟨fun hs => ⟨hs, fun hz => hzero (hs ▸ eq_f64Zero_of_isZero hz)⟩, And.left⟩

theorem rneBits_zero (d : Nat) : rneBits 0 d = 0 := by simp [rneBits, divRne]

/-- The rounding of a zero fraction is a zero. -/
theorem rne_zero (neg : Bool) (d : Nat) : rne neg 0 d = f64Zero neg := by rw [rne, rneBits_zero, f64Zero]

/-- A value that a pattern has rounds to that pattern. -/
theorem rneBits_bitsMag {p : Nat} (hp : p < infBits) : rneBits (bitsMag p) 1 = p := by
  have h := rneBits_nearest (bitsMag p) one_pos
  rw [Nat.cast_one, div_one] at h
  exact h.unique (nearest_bitsMag hp)

/-- Every natural number is rounded correctly, and `f64OfNat_exact` says where that is exact. -/
theorem isRne_f64OfNat (n : Nat) : IsRne (n : ℝ) (f64OfNat n) := by
  have h := isRne_rne (neg := false) (n := n * unitsOne) one_pos (by simp)
  rwa [if_neg Bool.false_ne_true, one_mul, Nat.cast_one, div_one, Nat.cast_mul, unitsOne_cast,
    mul_div_cancel_right₀ _ (by positivity)] at h

/-- A natural number up to 2^53 is the value of a pattern: shift its leading bit to bit 52. -/
theorem exists_bitsMag_eq {n : Nat} (hn : n ≤ 2 ^ 53) : ∃ b < infBits, bitsMag b = n * unitsOne := by
  rcases Nat.eq_zero_or_pos n with rfl | hpos
  · exact ⟨0, by decide, by rw [bitsMag_zero, Nat.zero_mul]⟩
  · have hle := Nat.log2_self_le hpos.ne'
    have hlt : n < 2 ^ (Nat.log2 n + 1) := Nat.lt_log2_self
    generalize Nat.log2 n = l at hle hlt
    have hm : n * 2 ^ (52 - l) ≤ 2 ^ 53 := by
      rcases Nat.le_total l 52 with hl | hl
      · calc n * 2 ^ (52 - l) ≤ 2 ^ (l + 1) * 2 ^ (52 - l) := Nat.mul_le_mul_right _ hlt.le
          _ = 2 ^ 53 := by rw [← pow_add]; congr 1; omega
      · rwa [Nat.sub_eq_zero_of_le hl, pow_zero, Nat.mul_one]
    have hm' : 2 ^ 52 ≤ n * 2 ^ (52 - l) := by
      calc 2 ^ 52 ≤ 2 ^ l * 2 ^ (52 - l) := by rw [← pow_add]; exact Nat.pow_le_pow_right Nat.two_pos (by omega)
        _ ≤ n * 2 ^ (52 - l) := Nat.mul_le_mul_right _ hle
    refine ⟨(1074 - (52 - l)) * 2 ^ 52 + n * 2 ^ (52 - l), by rw [infBits]; omega, ?_⟩
    rw [bitsMag_norm hm (.inr hm'), Nat.mul_assoc, ← pow_add, unitsOne,
      show 52 - l + (1074 - (52 - l)) = 1074 by omega]

theorem f64OfNat_exact {n : Nat} (hn : n ≤ 2 ^ 53) :
    isFin (f64OfNat n) = true ∧ f64Sign (f64OfNat n) = false ∧ f64Rat (f64OfNat n) = n := by
  obtain ⟨b, hb, hmag⟩ := exists_bitsMag_eq hn
  have hb63 : b < 2 ^ 63 := hb.trans (by decide)
  have hv : f64OfNat n = mkF64 false b := by rw [f64OfNat, rne, ← hmag, rneBits_bitsMag hb]
  rw [hv]
  refine ⟨(isFin_iff _).mpr (by rwa [toNat_mod_mkF64 _ hb63]), f64Sign_mkF64 _ hb63, ?_⟩
  rw [f64Rat, f64Units, f64Sign_mkF64 _ hb63, if_neg Bool.false_ne_true, f64Mag_mkF64 _ hb63, hmag, unitsOne,
    Int.cast_natCast, Nat.cast_mul, Nat.cast_pow, Nat.cast_ofNat]
  exact mul_div_cancel_right₀ _ (by positivity)

/-! ### The sign rule -/

theorem sign_xor_mul (p q : Bool) :
    (if (p != q) = true then -1 else 1 : ℝ) = (if p = true then -1 else 1) * if q = true then -1 else 1 := by
  cases p <;> cases q <;> norm_num

theorem sign_xor_div (p q : Bool) :
    (if (p != q) = true then -1 else 1 : ℝ) = (if p = true then -1 else 1) / if q = true then -1 else 1 := by
  cases p <;> cases q <;> norm_num

/-! ### Finite operands (`40_numerics.md` R141) -/

section
variable (ha : isFin a = true) (hb : isFin b = true)
include ha hb

theorem fadd_of_isFin :
    fadd a b = if f64Units a + f64Units b = 0 then f64Zero (f64Sign a && f64Sign b)
      else rne (decide (f64Units a + f64Units b < 0)) (f64Units a + f64Units b).natAbs 1 := by
  simp [fadd, isNaN_eq_false_of_isFin, isInf_eq_false_of_isFin, ha, hb]

theorem fmul_of_isFin : fmul a b = rne (f64Sign a != f64Sign b) (f64Mag a * f64Mag b) unitsOne := by
  simp [fmul, isNaN_eq_false_of_isFin, isInf_eq_false_of_isFin, ha, hb]

theorem fdiv_of_isFin :
    fdiv a b = if isZero b then (if isZero a then f64NaN else f64Inf (f64Sign a != f64Sign b))
      else rne (f64Sign a != f64Sign b) (f64Mag a * unitsOne) (f64Mag b) := by
  simp [fdiv, isNaN_eq_false_of_isFin, isInf_eq_false_of_isFin, ha, hb]

theorem isRne_fadd (h : f64Rat a + f64Rat b ≠ 0) : IsRne ((f64Rat a + f64Rat b : ℚ) : ℝ) (fadd a b) := by
  have hsum : f64Rat a + f64Rat b = ((f64Units a + f64Units b : ℤ) : ℚ) / 2 ^ 1074 := by
    rw [f64Rat, f64Rat, ← add_div, Int.cast_add]
  rw [fadd_of_isFin ha hb]
  generalize f64Units a + f64Units b = z at hsum
  have hz : z ≠ 0 := by rintro rfl; simp [hsum] at h
  have hr := isRne_rne (neg := decide (z < 0)) (n := z.natAbs) one_pos (fun _ => Int.natAbs_pos.mpr hz)
  have hval : (if decide (z < 0) then -1 else 1) * ((z.natAbs : ℝ) / (1 : Nat)) = (z : ℝ) := by
    rw [Nat.cast_one, div_one, Nat.cast_natAbs]
    rcases lt_or_ge z 0 with hneg | hpos
    · rw [if_pos (decide_eq_true hneg), abs_of_neg hneg, Int.cast_neg, neg_mul_neg, one_mul]
    · rw [if_neg (by simpa using hpos), abs_of_nonneg hpos, one_mul]
  rw [hval] at hr
  rw [if_neg hz, hsum, Rat.cast_div, Rat.cast_intCast, Rat.cast_pow, Rat.cast_ofNat]
  exact hr

theorem isRne_fmul (h : f64Rat a * f64Rat b ≠ 0) : IsRne ((f64Rat a * f64Rat b : ℚ) : ℝ) (fmul a b) := by
  obtain ⟨h0a, h0b⟩ := mul_ne_zero_iff.mp h
  rw [ne_eq, f64Rat_eq_zero_iff, ← f64Mag_eq_zero_iff] at h0a h0b
  have hr := isRne_rne (neg := f64Sign a != f64Sign b) unitsOne_pos
    (fun _ => Nat.mul_pos (Nat.pos_of_ne_zero h0a) (Nat.pos_of_ne_zero h0b))
  rw [fmul_of_isFin ha hb]
  convert hr using 1
  rw [Rat.cast_mul, f64Rat_cast, f64Rat_cast, unitsOne_cast, sign_xor_mul, Nat.cast_mul]
  generalize (2 : ℝ) ^ 1074 = U
  ring

theorem isRne_fdiv (h0a : f64Rat a ≠ 0) (h0b : f64Rat b ≠ 0) : IsRne ((f64Rat a / f64Rat b : ℚ) : ℝ) (fdiv a b) := by
  rw [ne_eq, f64Rat_eq_zero_iff] at h0a h0b
  rw [fdiv_of_isFin ha hb, if_neg h0b]
  rw [← f64Mag_eq_zero_iff] at h0a h0b
  have hr := isRne_rne (neg := f64Sign a != f64Sign b) (Nat.pos_of_ne_zero h0b)
    (fun _ => Nat.mul_pos (Nat.pos_of_ne_zero h0a) unitsOne_pos)
  convert hr using 1
  have hU : (2 : ℝ) ^ 1074 ≠ 0 := by positivity
  rw [Rat.cast_div, f64Rat_cast, f64Rat_cast, Nat.cast_mul, unitsOne_cast, sign_xor_div, div_div_div_cancel_right₀ hU,
    mul_div_mul_comm, mul_div_right_comm (f64Mag a : ℝ), ← mul_assoc, mul_div_cancel_right₀ _ hU]

end

/-- Settles O33: each operation rounds the exact result once, and a difference is the sum with the negated operand. -/
theorem arithmeticRounds : Obligations.ArithmeticRounds := by
  refine ⟨fun n hn => f64OfNat_exact hn, fun a b ha hb =>
    ⟨isRne_fadd ha hb, fun h => ?_, isRne_fmul ha hb, isRne_fdiv ha hb⟩⟩
  rw [sub_eq_add_neg, ← f64Rat_fneg] at h ⊢
  exact isRne_fadd ha ((isFin_fneg b).trans hb) h

end Sys2Proof.Machine
end

section
/-! The statements of `40_numerics.md` R141 about zeros, infinities and NaN, one lemma per class of operands, and of R142
and R146 to R148 about the complex operations. -/
namespace Sys2Proof.Machine

variable {a b x y : F64}

/-! ### NaN operands -/

theorem fadd_of_isNaN (h : isNaN a = true ∨ isNaN b = true) : fadd a b = f64NaN := if_pos (Bool.or_eq_true_iff.mpr h)

theorem fsub_of_isNaN (h : isNaN a = true ∨ isNaN b = true) : fsub a b = f64NaN :=
  fadd_of_isNaN (h.imp_right (isNaN_fneg b).trans)

theorem fmul_of_isNaN (h : isNaN a = true ∨ isNaN b = true) : fmul a b = f64NaN := if_pos (Bool.or_eq_true_iff.mpr h)

theorem fdiv_of_isNaN (h : isNaN a = true ∨ isNaN b = true) : fdiv a b = f64NaN := if_pos (Bool.or_eq_true_iff.mpr h)

/-! ### Infinite operands (IEEE 754, log entry 15) -/

section
variable (hx : isFin x = true) (n : Bool)
include hx

theorem fadd_f64Inf_right : fadd x (f64Inf n) = f64Inf n := by
  simp [fadd, isNaN_eq_false_of_isFin hx, isInf_eq_false_of_isFin hx]

theorem fadd_f64Inf_left : fadd (f64Inf n) x = f64Inf n := by
  simp [fadd, isNaN_eq_false_of_isFin hx, isInf_eq_false_of_isFin hx]

theorem fdiv_f64Inf_right : fdiv x (f64Inf n) = f64Zero (f64Sign x != n) := by
  simp [fdiv, isNaN_eq_false_of_isFin hx, isInf_eq_false_of_isFin hx]

theorem fdiv_f64Inf_left : fdiv (f64Inf n) x = f64Inf (f64Sign x != n) := by
  simp [fdiv, isNaN_eq_false_of_isFin hx, isInf_eq_false_of_isFin hx, bne_comm (a := n)]

end

theorem fadd_f64Inf_f64Inf (m n : Bool) : fadd (f64Inf m) (f64Inf n) = if m = n then f64Inf m else f64NaN := by
  simp [fadd]

theorem fmul_f64Inf_right (hx : isNaN x = false) (n : Bool) :
    fmul x (f64Inf n) = if isZero x then f64NaN else f64Inf (f64Sign x != n) := by
  simp [fmul, hx]

theorem fmul_comm (a b : F64) : fmul a b = fmul b a := by
  rw [fmul, fmul, Bool.or_comm (isNaN a), Bool.or_comm (isInf a), Bool.or_comm (isZero a), bne_comm, Nat.mul_comm]

theorem fdiv_f64Inf_f64Inf (m n : Bool) : fdiv (f64Inf m) (f64Inf n) = f64NaN := by simp [fdiv]

/-! ### Exact zeros (`40_numerics.md` R141, IEEE 754, log entry 15) -/

theorem fadd_eq_zero (hx : isFin x = true) (hy : isFin y = true) (h : f64Rat x + f64Rat y = 0) :
    fadd x y = f64Zero (f64Sign x && f64Sign y) := by
  rw [← eq_neg_iff_add_eq_zero, ← f64Rat_fneg, f64Rat_eq_iff, f64Units_fneg, eq_neg_iff_add_eq_zero] at h
  rw [fadd_of_isFin hx hy, if_pos h]

theorem fsub_eq_zero (hx : isFin x = true) (hy : isFin y = true) (h : f64Rat x - f64Rat y = 0) :
    fsub x y = f64Zero (f64Sign x && !f64Sign y) := by
  rw [← f64Sign_fneg]
  exact fadd_eq_zero hx ((isFin_fneg y).trans hy) (by rw [f64Rat_fneg, ← sub_eq_add_neg, h])

theorem fmul_eq_zero (hx : isFin x = true) (hy : isFin y = true) (h : f64Rat x * f64Rat y = 0) :
    fmul x y = f64Zero (f64Sign x != f64Sign y) := by
  rw [mul_eq_zero, f64Rat_eq_zero_iff, f64Rat_eq_zero_iff, ← f64Mag_eq_zero_iff, ← f64Mag_eq_zero_iff,
    ← Nat.mul_eq_zero] at h
  rw [fmul_of_isFin hx hy, h, rne_zero]

theorem fdiv_f64Zero_left (m : Bool) (hy : isFin y = true) :
    fdiv (f64Zero m) y = if isZero y then f64NaN else f64Zero (m != f64Sign y) := by
  have hmag : f64Mag (f64Zero m) = 0 := (f64Mag_eq_zero_iff _).mpr (isZero_f64Zero m)
  rw [fdiv_of_isFin (isFin_f64Zero m) hy, isZero_f64Zero, if_pos rfl, f64Sign_f64Zero, hmag, Nat.zero_mul, rne_zero]

theorem fdiv_f64Zero_right (hx : isFin x = true) (n : Bool) :
    fdiv x (f64Zero n) = if isZero x then f64NaN else f64Inf (f64Sign x != n) := by
  rw [fdiv_of_isFin hx (isFin_f64Zero n), isZero_f64Zero, if_pos rfl, f64Sign_f64Zero]

/-! ### The statements -/

/-- Settles O34: each clause is the lemma above for its class of operands. -/
theorem arithmeticSpecials : Obligations.ArithmeticSpecials := by
  have hnz : ∀ {v : F64}, f64Rat v ≠ 0 → ¬isZero v = true := fun h hz => h ((f64Rat_eq_zero_iff _).mpr hz)
  have hz : ∀ n, isNaN (f64Zero n) = false := fun n => isNaN_eq_false_of_isFin (isFin_f64Zero n)
  refine ⟨?_, ?_, fun x y hx hy => fadd_eq_zero hx hy, fun x y hx hy => fsub_eq_zero hx hy,
    fun x y hx hy => fmul_eq_zero hx hy, ?_, ?_, ?_, ?_, ?_, ?_, ?_, ?_, ?_, ?_⟩
  · exact fadd_eq_zero (x := f64Zero false) (y := f64Zero true) (isFin_f64Zero _) (isFin_f64Zero _) (by simp)
  · intro x hx
    rw [fsub_eq_zero hx hx (sub_self _), Bool.and_not_self]; rfl
  · intro m y hy h
    rw [fdiv_f64Zero_left m hy, if_neg (hnz h)]
  · intro x n hx h
    rw [fdiv_f64Zero_right hx, if_neg (hnz h)]
  · intro m n
    rw [fdiv_f64Zero_left m (isFin_f64Zero n), if_pos (isZero_f64Zero n), isNaN_f64NaN]
  · intro x n hx
    refine ⟨fadd_f64Inf_right hx n, fadd_f64Inf_left hx n, ?_, fadd_f64Inf_left ((isFin_fneg x).trans hx) n⟩
    rw [fsub, fneg_f64Inf, fadd_f64Inf_right hx]
  · intro n
    simp [fsub, fadd_f64Inf_f64Inf]
  · intro m n
    simp [fmul_comm (f64Inf n), fmul_f64Inf_right (hz m)]
  · intro x n hx h
    simp [fmul_comm (f64Inf n), fmul_f64Inf_right (isNaN_eq_false_of_isFin hx), hnz h]
  · intro m n
    simp [fmul_f64Inf_right, fdiv_f64Inf_f64Inf]
  · exact fun x n hx => ⟨fdiv_f64Inf_right hx n, fdiv_f64Inf_left hx n⟩
  · intro x y h
    rw [fadd_of_isNaN h, fsub_of_isNaN h, fmul_of_isNaN h, fdiv_of_isNaN h]
    simp

/-- Settles O35: the operations are componentwise by definition, and in R147's example the product +Inf·(+0) is NaN. -/
theorem complexOperations : Obligations.ComplexOperations := by
  refine ⟨getLsbD_fneg, isNaN_fneg, fun _ _ _ _ => ⟨rfl, rfl, rfl, rfl⟩, fun x => ?_, ?_, ?_⟩
  · exact congrArg (Cplx.mk x) (fneg_f64Zero false)
  · have hre : fmul (f64Inf false) ONE = f64Inf false := by
      rw [fmul_comm, fmul_f64Inf_right (by decide)]; decide
    have him : fmul 0 0 = f64Zero false := fmul_eq_zero (x := f64Zero false) (y := f64Zero false) rfl rfl (by simp)
    rw [cmul, hre, him, fsub, fadd_f64Inf_left (by decide)]
  · have hprod : fmul (f64Inf false) 0 = f64NaN := by
      rw [fmul_comm]; exact fmul_f64Inf_right (x := 0) (by decide) false
    rw [cmul, fadd_of_isNaN (.inl (by rw [hprod, isNaN_f64NaN])), isNaN_f64NaN]

end Sys2Proof.Machine
end

section
/-! The statements of `40_numerics.md` R143 and R155: comparisons and extrema by the order of the values, and ROUNDI. -/
namespace Sys2Proof.Machine

variable {a b : F64}

/-! ### The order of the keys is the order of the values -/

theorem f64Units_lt_iff (v w : F64) : f64Units v < f64Units w ↔ f64Key v < f64Key w := by
  have hlt : ∀ p q, bitsMag p < bitsMag q ↔ p < q := fun _ _ => bitsMag_strictMono.lt_iff_lt
  rw [f64Units, f64Units, f64Key, f64Key, f64Mag_eq, f64Mag_eq]
  generalize v.toNat % 2 ^ 63 = p
  generalize w.toNat % 2 ^ 63 = q
  have hpq := hlt p q
  have hqp := hlt q p
  have hp := hlt 0 p
  have hq := hlt 0 q
  rw [bitsMag_zero] at hp hq
  cases f64Sign v <;> cases f64Sign w <;> simp only [Bool.false_eq_true, if_false, if_true] <;> omega

theorem f64Units_eq_iff (v w : F64) : f64Units v = f64Units w ↔ f64Key v = f64Key w := by
  simp only [le_antisymm_iff, ← not_lt, f64Units_lt_iff]

theorem f64Key_lt_of_flt (h : flt a b = true) : f64Key a < f64Key b := by
  rw [flt, Bool.and_eq_true, decide_eq_true_iff] at h
  exact h.2

theorem flt_iff_key (ha : isNaN a = false) (hb : isNaN b = false) : flt a b = true ↔ f64Key a < f64Key b := by
  simp [flt, ha, hb]

theorem feq_iff_key (ha : isNaN a = false) (hb : isNaN b = false) : feq a b = true ↔ f64Key a = f64Key b := by
  simp [feq, ha, hb]

theorem flt_iff (ha : isFin a = true) (hb : isFin b = true) : flt a b = true ↔ f64Rat a < f64Rat b := by
  rw [flt_iff_key (isNaN_eq_false_of_isFin ha) (isNaN_eq_false_of_isFin hb), f64Rat_lt_iff, f64Units_lt_iff]

theorem feq_iff (ha : isFin a = true) (hb : isFin b = true) : feq a b = true ↔ f64Rat a = f64Rat b := by
  rw [feq_iff_key (isNaN_eq_false_of_isFin ha) (isNaN_eq_false_of_isFin hb), f64Rat_eq_iff, f64Units_eq_iff]

/-! ### NaN and the infinities -/

theorem flt_of_isNaN (h : isNaN a = true ∨ isNaN b = true) : flt a b = false := by
  rcases h with h | h <;> simp [flt, h]

theorem feq_of_isNaN (h : isNaN a = true ∨ isNaN b = true) : feq a b = false := by
  rcases h with h | h <;> simp [feq, h]

theorem f64Key_f64Inf (n : Bool) : f64Key (f64Inf n) = if n then -(infBits : Int) else infBits := by
  rw [f64Key, f64Sign_f64Inf, lowBits_f64Inf]

/-- The keys of the infinities bound those of all values. -/
theorem f64Key_bounds (h : isNaN a = false) :
    f64Key (f64Inf true) ≤ f64Key a ∧ f64Key a ≤ f64Key (f64Inf false) := by
  rw [Bool.eq_false_iff, ne_eq, isNaN_iff] at h
  rw [f64Key_f64Inf, f64Key_f64Inf, if_pos rfl, if_neg Bool.false_ne_true, f64Key]
  split <;> omega

theorem eq_f64Inf_iff_key (a : F64) (n : Bool) : a = f64Inf n ↔ f64Key a = f64Key (f64Inf n) := by
  refine ⟨congrArg f64Key, fun h => ?_⟩
  have hpos : 0 < infBits := by decide
  rw [f64Key_f64Inf, f64Key] at h
  have hparts : f64Sign a = n ∧ a.toNat % 2 ^ 63 = infBits := by
    cases hs : f64Sign a <;> cases n <;> simp [hs] at h ⊢ <;> omega
  exact f64_ext (hparts.1.trans (f64Sign_f64Inf n).symm) (hparts.2.trans (lowBits_f64Inf n).symm)

theorem not_flt_posInf (a : F64) : flt (f64Inf false) a = false := by
  cases ha : isNaN a
  · rw [Bool.eq_false_iff, ne_eq, flt_iff_key (isNaN_f64Inf _) ha]
    exact (f64Key_bounds ha).2.not_gt
  · exact flt_of_isNaN (.inr ha)

theorem not_flt_negInf (a : F64) : flt a (f64Inf true) = false := by
  cases ha : isNaN a
  · rw [Bool.eq_false_iff, ne_eq, flt_iff_key ha (isNaN_f64Inf _)]
    exact (f64Key_bounds ha).1.not_gt
  · exact flt_of_isNaN (.inl ha)

theorem flt_posInf_iff (ha : isNaN a = false) : flt a (f64Inf false) = true ↔ a ≠ f64Inf false := by
  rw [flt_iff_key ha (isNaN_f64Inf _), ne_eq, eq_f64Inf_iff_key]
  exact (f64Key_bounds ha).2.lt_iff_ne

theorem negInf_flt_iff (ha : isNaN a = false) : flt (f64Inf true) a = true ↔ a ≠ f64Inf true := by
  rw [flt_iff_key (isNaN_f64Inf _) ha, ne_eq, eq_f64Inf_iff_key, eq_comm]
  exact (f64Key_bounds ha).1.lt_iff_ne

/-! ### The first least element of a list -/

/-- `v` stands in the list, its rank `r` is least there, and no element before it has that rank. -/
def IsFirstLeast (r : F64 → ℚ) (l : List F64) (v : F64) : Prop :=
  ∃ n : Nat, l[n]? = some v ∧ ∀ (m : Nat) (w : F64), l[m]? = some w → r v ≤ r w ∧ (r w = r v → n ≤ m)

theorem isFirstLeast_singleton (r : F64 → ℚ) (x : F64) : IsFirstLeast r [x] x := by
  refine ⟨0, rfl, fun m w hw => ?_⟩
  obtain ⟨rfl, rfl⟩ : m = 0 ∧ x = w := by simpa [List.getElem?_singleton] using hw
  exact ⟨le_rfl, fun _ => le_rfl⟩

/-- A new last element is the first least one exactly when its rank is below that of the first least one so far. -/
theorem IsFirstLeast.concat {r : F64 → ℚ} {l : List F64} {v y : F64} (h : IsFirstLeast r l v) :
    IsFirstLeast r (l ++ [y]) (if r y < r v then y else v) := by
  obtain ⟨n, hn, hleast⟩ := h
  have hlen : n < l.length := (List.getElem?_eq_some_iff.mp hn).1
  have hold : ∀ {m w}, (l ++ [y])[m]? = some w → m < l.length ∧ l[m]? = some w ∨ m = l.length ∧ w = y := by
    intro m w hw
    rcases Nat.lt_or_ge m l.length with hm | hm
    · exact .inl ⟨hm, by rwa [List.getElem?_append_left hm] at hw⟩
    · rw [List.getElem?_append_right hm, List.getElem?_singleton] at hw
      split at hw
      · exact .inr ⟨by omega, (Option.some.inj hw).symm⟩
      · cases hw
  split
  · next hlt =>
    refine ⟨l.length, List.getElem?_concat_length, fun m w hw => ?_⟩
    rcases hold hw with ⟨-, hw⟩ | ⟨rfl, rfl⟩
    · have hle := (hleast m w hw).1
      exact ⟨(hlt.trans_le hle).le, fun he => absurd he (hlt.trans_le hle).ne'⟩
    · exact ⟨le_rfl, fun _ => le_rfl⟩
  · next hge =>
    refine ⟨n, by rwa [List.getElem?_append_left hlen], fun m w hw => ?_⟩
    rcases hold hw with ⟨-, hw⟩ | ⟨rfl, rfl⟩
    · exact hleast m w hw
    · exact ⟨not_lt.mp hge, fun _ => hlen.le⟩

/-- Folding a list by a comparison that follows the ranks keeps the first least element. -/
theorem isFirstLeast_foldl {r : F64 → ℚ} {less : F64 → F64 → Bool} (x : F64) (xs : List F64)
    (hless : ∀ y ∈ x :: xs, ∀ m ∈ x :: xs, (less y m = true ↔ r y < r m)) :
    IsFirstLeast r (x :: xs) (xs.foldl (fun m y => if less y m then y else m) x) := by
  induction xs using List.reverseRecOn with
  | nil => exact isFirstLeast_singleton r x
  | append_singleton xs y ih =>
    have hxs : ∀ {z}, z ∈ x :: xs → z ∈ x :: (xs ++ [y]) := fun hz => by
      rw [← List.cons_append]; exact List.mem_append_left _ hz
    have hprev := ih fun z hz m hm => hless z (hxs hz) m (hxs hm)
    have hmem : xs.foldl (fun m y => if less y m then y else m) x ∈ x :: xs := by
      obtain ⟨n, hn, -⟩ := hprev
      exact List.mem_of_getElem? hn
    have hy : y ∈ x :: (xs ++ [y]) := by simp
    rw [List.foldl_append, List.foldl_cons, List.foldl_nil, ← List.cons_append]
    simp only [hless y hy _ (hxs hmem)]
    exact hprev.concat

theorem isFirstLeast_fminList {x : F64} {xs : List F64} (h : ∀ v ∈ x :: xs, isFin v = true) :
    IsFirstLeast f64Rat (x :: xs) (fminList (x :: xs)) :=
  isFirstLeast_foldl x xs fun y hy m hm => flt_iff (h y hy) (h m hm)

theorem isFirstLeast_fmaxList {x : F64} {xs : List F64} (h : ∀ v ∈ x :: xs, isFin v = true) :
    IsFirstLeast (fun v => -f64Rat v) (x :: xs) (fmaxList (x :: xs)) :=
  isFirstLeast_foldl (less := fun y m => flt m y) x xs fun y hy m hm =>
    (flt_iff (h m hm) (h y hy)).trans neg_lt_neg_iff.symm

/-- Settles O36: keys order the values as their numbers do, and a greatest element is one of least negated value. -/
theorem comparisonsAndExtrema : Obligations.ComparisonsAndExtrema := by
  refine ⟨fun a b ha hb => ⟨flt_iff ha hb, feq_iff ha hb⟩, fun a b h => ⟨flt_of_isNaN h, feq_of_isNaN h⟩,
    fun a => ⟨not_flt_posInf a, not_flt_negInf a⟩, fun a ha => ⟨flt_posInf_iff ha, negInf_flt_iff ha, fun n => ?_⟩,
    fun x xs h => ⟨isFirstLeast_fminList h, ?_⟩⟩
  · rw [feq_iff_key ha (isNaN_f64Inf n), eq_f64Inf_iff_key]
  · simpa only [IsFirstLeast, neg_le_neg_iff, neg_inj] using isFirstLeast_fmaxList h

/-! ### ROUNDI (`40_numerics.md` R155) -/

/-- The rounded quotient is within 1/2 of the quotient, and even when it is 1/2 away. -/
theorem abs_sub_divRne (n : Nat) {d : Nat} (hd : 0 < d) :
    |(n : ℚ) / d - divRne n d| ≤ 1 / 2 ∧ (|(n : ℚ) / d - divRne n d| = 1 / 2 → divRne n d % 2 = 0) := by
  obtain ⟨hlo, hhi, hloTie, hhiTie⟩ := divRne_spec n hd
  generalize divRne n d = q at *
  have hdQ : (0 : ℚ) < d := by exact_mod_cast hd
  have hdist : |(n : ℚ) / d - q| = |(n : ℚ) - q * d| / d := by
    rw [div_sub' hdQ.ne', abs_div, abs_of_pos hdQ, mul_comm (d : ℚ)]
  have hloQ : 2 * ((q : ℚ) * d) ≤ 2 * n + d := by exact_mod_cast hlo
  have hhiQ : 2 * (n : ℚ) ≤ 2 * (q * d) + d := by exact_mod_cast hhi
  rw [hdist, div_le_iff₀ hdQ, div_eq_iff hdQ.ne']
  refine ⟨abs_le.mpr ⟨by linarith, by linarith⟩, fun he => ?_⟩
  rcases abs_cases ((n : ℚ) - q * d) with ⟨h, -⟩ | ⟨h, -⟩ <;> rw [h] at he
  · exact hhiTie (by have : 2 * (n : ℚ) = 2 * (q * d) + d := by linarith
                     exact_mod_cast this)
  · exact hloTie (by have : 2 * ((q : ℚ) * d) = 2 * n + d := by linarith
                     exact_mod_cast this)

theorem roundi_near (t : F64) :
    |f64Rat t - (roundi t : ℚ)| ≤ 1 / 2 ∧ (|f64Rat t - (roundi t : ℚ)| = 1 / 2 → roundi t % 2 = 0) := by
  obtain ⟨hnear, htie⟩ := abs_sub_divRne (f64Mag t) unitsOne_pos
  have hunits : ((unitsOne : ℕ) : ℚ) = 2 ^ 1074 := by rw [unitsOne, Nat.cast_pow, Nat.cast_ofNat]
  have hdist : |f64Rat t - (roundi t : ℚ)| = |(f64Mag t : ℚ) / unitsOne - divRne (f64Mag t) unitsOne| := by
    rw [f64Rat, f64Units, roundi, hunits]
    split
    · rw [Int.cast_neg, Int.cast_neg, neg_div, neg_sub_neg, abs_sub_comm, Int.cast_natCast, Int.cast_natCast]
    · rw [Int.cast_natCast, Int.cast_natCast]
  have hparity : roundi t % 2 = 0 ↔ divRne (f64Mag t) unitsOne % 2 = 0 := by
    rw [roundi]
    split <;> omega
  rw [hdist, hparity]
  exact ⟨hnear, htie⟩

/-- An even integer at most 1/2 away is the rounded one: another would be a tie, and odd. -/
theorem roundi_eq_of_even {t : F64} {z : ℤ} (hz : z % 2 = 0) (h : |f64Rat t - z| ≤ 1 / 2) : roundi t = z := by
  obtain ⟨hnear, htie⟩ := roundi_near t
  generalize roundi t = r at hnear htie ⊢
  obtain ⟨h1, h2⟩ := abs_le.mp h
  obtain ⟨h3, h4⟩ := abs_le.mp hnear
  have hle : r ≤ z + 1 := by exact_mod_cast (by linarith : (r : ℚ) ≤ z + 1)
  have hge : z - 1 ≤ r := by exact_mod_cast (by linarith : (z : ℚ) - 1 ≤ r)
  by_contra hne
  have hr : r = z + 1 ∨ r = z - 1 := by omega
  have hhalf : |f64Rat t - (r : ℚ)| = 1 / 2 := by
    refine le_antisymm hnear (le_abs.mpr ?_)
    rcases hr with rfl | rfl
    · right; push_cast; linarith
    · left; push_cast; linarith
  have := htie hhalf
  omega

/-- Settles O37: the three examples are even integers within 1/2. -/
theorem roundToInteger : Obligations.RoundToInteger := by
  refine ⟨fun t _ => roundi_near t, roundi_eq_of_even rfl ?_, roundi_eq_of_even rfl ?_, roundi_eq_of_even rfl ?_⟩
  · rw [f64Rat_normal (neg := false) (e := 1029) (f := 0xD200000000000) (by decide)]
    norm_num [abs_le]
  · rw [f64Rat_normal (neg := false) (e := 1029) (f := 0xD600000000000) (by decide)]
    norm_num [abs_le]
  · rw [f64Rat_normal (neg := true) (e := 1021) (f := 0x999999999999A) (by decide)]
    norm_num [abs_le]

end Sys2Proof.Machine
end

section
/-! The statements of `40_numerics.md` R150 to R153: each reference function is RNE of its real function, and a value the
rules derive is the one rounding of its exact result. -/
namespace Sys2Proof.Machine

variable {v w : F64} {x y : ℝ}

/-! ### Roundings of known numbers -/

theorem isRne_zero : IsRne 0 (f64Zero false) := by
  simpa using isRne_f64Rat (isFin_f64Zero false) (by decide)

theorem f64Rat_ONE : f64Rat ONE = 1 := by
  rw [f64Rat_normal (neg := false) (e := 1023) (f := 0) (by decide)]
  norm_num

theorem f64Rat_HALF : f64Rat HALF = 1 / 2 := by
  rw [f64Rat_normal (neg := false) (e := 1022) (f := 0) (by decide)]
  norm_num

theorem isRne_one : IsRne 1 ONE := by
  simpa [f64Rat_ONE] using isRne_f64Rat (v := ONE) (by decide) (by decide)

theorem isRne_half : IsRne (1 / 2) HALF := by
  simpa [f64Rat_HALF] using isRne_f64Rat (v := HALF) (by decide) (by decide)

/-- Rounding to nearest is symmetric; a zero keeps sign 0 and is left out. -/
theorem IsRne.neg (h : IsRne x v) (hx : x ≠ 0) : IsRne (-x) (fneg v) := by
  have hn := isRne_of_nearest (x := -x) (b := v.toNat % 2 ^ 63) (neg := !f64Sign v) ?_ ?_
  · rwa [← f64Sign_fneg, ← lowBits_fneg, mkF64_self] at hn
  · rw [abs_neg]
    exact h.nearestBits
  · rw [Bool.not_eq_true', Bool.eq_false_iff, ne_eq, h.sign, not_lt, neg_lt_zero, lt_iff_le_and_ne,
      and_iff_left hx.symm]

/-- A real strictly between the half-way points around 53 significant bits `m`, scaled by 2^k units. -/
theorem nearestBits_normal {k m : Nat} {r : ℝ} (hk : k * 2 ^ 52 + m < infBits) (hm : 2 ^ 52 < m) (hm' : m < 2 ^ 53)
    (hlo : (2 * m - 1 : ℝ) < 2 * r) (hhi : 2 * r < 2 * m + 1) : NearestBits (r * 2 ^ k) (k * 2 ^ 52 + m) := by
  have hP : (0 : ℝ) < 2 ^ k := by positivity
  have hmag : bitsMag (k * 2 ^ 52 + m) = m * 2 ^ k := bitsMag_norm hm'.le (.inr hm.le)
  have hprev : bitsMag (k * 2 ^ 52 + m - 1) = (m - 1) * 2 ^ k := by
    rw [Nat.add_sub_assoc (by omega)]; exact bitsMag_norm (by omega) (.inr (by omega))
  have hnext : bitsMag (k * 2 ^ 52 + m + 1) = (m + 1) * 2 ^ k := by
    rw [Nat.add_assoc]; exact bitsMag_norm hm' (.inr (by omega))
  have hlow : ((bitsMag (k * 2 ^ 52 + m - 1) + bitsMag (k * 2 ^ 52 + m) : Nat) : ℝ) < 2 * (r * 2 ^ k) := by
    rw [hmag, hprev]
    have := mul_lt_mul_of_pos_right hlo hP
    push_cast [Nat.cast_sub (by omega : 1 ≤ m)]
    linarith
  have hhigh : 2 * (r * 2 ^ k) < midUnits (k * 2 ^ 52 + m) := by
    rw [midUnits, hmag, hnext]
    have := mul_lt_mul_of_pos_right hhi hP
    push_cast
    linarith
  exact ⟨hk.le, fun _ => hlow.le, fun _ he => absurd he hlow.ne, fun _ => hhigh.le, fun _ he => absurd he hhigh.ne⟩

/-- √2/2 lies between half-way points of 2^-53: in integers, (2m − 1)² < 2^107 < (2m + 1)². -/
theorem isRne_sqrt_two_div_two : IsRne (√2 / 2) 0x3FE6A09E667F3BCD#64 := by
  have hlo : (2 * (0x16A09E667F3BCD : Nat) - 1 : ℝ) / 2 ^ 53 < √2 := Real.lt_sqrt_of_sq_lt (by norm_num)
  have hhi : √2 < (2 * (0x16A09E667F3BCD : Nat) + 1 : ℝ) / 2 ^ 53 := (Real.sqrt_lt' (by norm_num)).mpr (by norm_num)
  rw [div_lt_iff₀ (by positivity)] at hlo
  rw [lt_div_iff₀ (by positivity)] at hhi
  refine isRne_of_nearest (b := 1021 * 2 ^ 52 + 0x16A09E667F3BCD) (neg := false) ?_
    (by simpa using (by positivity : (0 : ℝ) ≤ √2 / 2))
  have hy : |√2 / 2| * 2 ^ 1074 = √2 * 2 ^ 52 * 2 ^ 1021 := by
    rw [abs_of_nonneg (by positivity), mul_assoc, ← pow_add,
      show (2 : ℝ) ^ 1074 = 2 * 2 ^ (52 + 1021) from pow_succ' 2 1073, ← mul_assoc, div_mul_cancel₀ _ two_ne_zero]
  rw [hy]
  refine nearestBits_normal (by decide) (by decide) (by decide) ?_ ?_ <;> linarith

/-! ### Cosines (`40_numerics.md` R150, R151) -/

/-- Minus the sine is the cosine a quarter turn later. -/
theorem twiddle_isRne (k : Nat) {m : Nat} (hm : 0 < m) :
    IsRne (Real.cos (2 * Real.pi * (k / m))) (twiddle k m).re ∧
      IsRne (-Real.sin (2 * Real.pi * (k / m))) (twiddle k m).im := by
  refine ⟨cosTurns_isRne k hm, ?_⟩
  have h := cosTurns_isRne (4 * k + m) (d := 4 * m) (by omega)
  have hmR : (m : ℝ) ≠ 0 := by exact_mod_cast hm.ne'
  have hangle : 2 * Real.pi * (((4 * k + m : Nat) : ℝ) / (4 * m : Nat)) = 2 * Real.pi * (k / m) + Real.pi / 2 := by
    push_cast; field_simp; ring
  rwa [hangle, Real.cos_add_pi_div_two] at h

/-- A twiddle factor is known where both its roundings are. -/
theorem twiddle_eq {k m : Nat} (hm : 0 < m) (hre : IsRne (Real.cos (2 * Real.pi * (k / m))) v)
    (him : IsRne (-Real.sin (2 * Real.pi * (k / m))) w) : twiddle k m = ⟨v, w⟩ :=
  congrArg₂ Cplx.mk ((twiddle_isRne k hm).1.unique hre) ((twiddle_isRne k hm).2.unique him)

/-- Settles O38: cosine and sine are known at 0, at a quarter and at an eighth of a turn. -/
theorem twiddleFactors : Obligations.TwiddleFactors := by
  refine ⟨fun k m hm => twiddle_isRne k hm, fun m hm => ?_, fun q hq => ?_, ?_⟩
  · refine twiddle_eq (w := f64Zero false) hm ?_ ?_ <;> rw [Nat.cast_zero, zero_div, mul_zero]
    · rw [Real.cos_zero]; exact isRne_one
    · rw [Real.sin_zero, neg_zero]; exact isRne_zero
  · have hqR : (q : ℝ) ≠ 0 := by exact_mod_cast hq.ne'
    have hangle : 2 * Real.pi * ((q : ℝ) / (4 * q : Nat)) = Real.pi / 2 := by push_cast; field_simp; norm_num
    refine twiddle_eq (v := f64Zero false) (w := fneg ONE) (by omega) ?_ ?_ <;> rw [hangle]
    · rw [Real.cos_pi_div_two]; exact isRne_zero
    · rw [Real.sin_pi_div_two]; exact isRne_one.neg one_ne_zero
  · have hangle : 2 * Real.pi * (((1 : Nat) : ℝ) / (8 : Nat)) = Real.pi / 4 := by push_cast; ring
    refine twiddle_eq (w := fneg 0x3FE6A09E667F3BCD#64) (by decide) ?_ ?_ <;> rw [hangle]
    · rw [Real.cos_pi_div_four]; exact isRne_sqrt_two_div_two
    · rw [Real.sin_pi_div_four]; exact isRne_sqrt_two_div_two.neg (by positivity)

theorem hannCos_isRne (n : Nat) {W : Nat} (hW : 2 ≤ W) :
    IsRne (Real.cos (2 * Real.pi * (n / (W - 1)))) (hannCos n W) := by
  have h := cosTurns_isRne n (d := W - 1) (by omega)
  rwa [Nat.cast_sub (by omega), Nat.cast_one] at h

theorem cos_third_turn : Real.cos (2 * Real.pi / 3) = -(1 / 2) := by
  rw [show 2 * Real.pi / 3 = Real.pi - Real.pi / 3 by ring, Real.cos_pi_sub, Real.cos_pi_div_three]

/-- Settles O39: the cosine is 1 at both ends of the window, and -1/2 at one and two thirds of it. -/
theorem hannCosine : Obligations.HannCosine := by
  refine ⟨fun n W hW _ => hannCos_isRne n hW, fun W hW => ⟨?_, ?_⟩, ?_, ?_⟩
  · have h := hannCos_isRne 0 hW
    rw [Nat.cast_zero, zero_div, mul_zero, Real.cos_zero] at h
    exact h.unique isRne_one
  · have h := hannCos_isRne (W - 1) hW
    have hWR : (W : ℝ) - 1 ≠ 0 := by
      rw [sub_ne_zero]; exact_mod_cast (by omega : W ≠ 1)
    rw [Nat.cast_sub (by omega), Nat.cast_one, div_self hWR, mul_one, Real.cos_two_pi] at h
    exact h.unique isRne_one
  · have h := hannCos_isRne 1 (W := 4) (by decide)
    rw [show 2 * Real.pi * (((1 : Nat) : ℝ) / ((4 : Nat) - 1)) = 2 * Real.pi / 3 by push_cast; ring,
      cos_third_turn] at h
    exact h.unique (isRne_half.neg (by norm_num))
  · have h := hannCos_isRne 2 (W := 4) (by decide)
    rw [show 2 * Real.pi * (((2 : Nat) : ℝ) / ((4 : Nat) - 1)) = 2 * Real.pi - 2 * Real.pi / 3 by push_cast; ring,
      Real.cos_two_pi_sub, cos_third_turn] at h
    exact h.unique (isRne_half.neg (by norm_num))

/-! ### Magnitude (`40_numerics.md` R152) -/

theorem mag_of_isInf {z : Cplx} (h : isInf z.re = true ∨ isInf z.im = true) : mag z = f64Inf false :=
  if_pos (Bool.or_eq_true_iff.mpr h)

theorem mag_of_isNaN {z : Cplx} (hre : isInf z.re = false) (him : isInf z.im = false)
    (h : isNaN z.re = true ∨ isNaN z.im = true) : mag z = f64NaN := by
  rw [mag, hre, him, if_neg (by decide), if_pos (Bool.or_eq_true_iff.mpr h)]

theorem mag_isRne {z : Cplx} (hre : isFin z.re = true) (him : isFin z.im = true) :
    IsRne (Real.sqrt ((f64Rat z.re : ℝ) ^ 2 + (f64Rat z.im : ℝ) ^ 2)) (mag z) := by
  have hmag : mag z = mkF64 false (rneSqrtBits (f64Mag z.re * f64Mag z.re + f64Mag z.im * f64Mag z.im)) := by
    simp [mag, isInf_eq_false_of_isFin, isNaN_eq_false_of_isFin, hre, him]
  rw [hmag]
  refine isRne_of_nearest ?_ (by simp [Real.sqrt_nonneg])
  have hU : (0 : ℝ) < 2 ^ 1074 := by positivity
  have hroot : |Real.sqrt ((f64Rat z.re : ℝ) ^ 2 + (f64Rat z.im : ℝ) ^ 2)| * 2 ^ 1074 =
      Real.sqrt ((f64Mag z.re * f64Mag z.re + f64Mag z.im * f64Mag z.im : Nat) : ℝ) := by
    rw [abs_of_nonneg (Real.sqrt_nonneg _), f64Rat_sq, f64Rat_sq, ← add_div, Real.sqrt_div' _ (by positivity),
      Real.sqrt_sq hU.le, div_mul_cancel₀ _ hU.ne', Nat.cast_add, Nat.cast_mul, Nat.cast_mul, pow_two, pow_two]
  rw [hroot]
  exact rneSqrtBits_nearest _

/-- Clearing the sign bit keeps the low 63 bits. -/
theorem clearSign_eq (v : F64) : v &&& 0x7FFFFFFFFFFFFFFF#64 = mkF64 false (v.toNat % 2 ^ 63) := by
  apply BitVec.eq_of_toNat_eq
  rw [BitVec.toNat_and, toNat_mkF64 _ (lowBits_lt v)]
  exact Nat.and_two_pow_sub_one_eq_mod v.toNat 63

theorem isRne_abs (hv : isFin v = true) : IsRne |(f64Rat v : ℝ)| (v &&& 0x7FFFFFFFFFFFFFFF#64) := by
  rw [clearSign_eq]
  refine isRne_of_nearest ?_ (by simp)
  rw [abs_abs, abs_f64Rat_cast, div_mul_cancel₀ _ (by positivity), f64Mag_eq]
  exact nearest_bitsMag ((isFin_iff v).mp hv)

theorem mag_f64Zero_right (hv : isFin v = true) (n : Bool) : mag ⟨v, f64Zero n⟩ = v &&& 0x7FFFFFFFFFFFFFFF#64 := by
  have h := mag_isRne (z := ⟨v, f64Zero n⟩) hv (isFin_f64Zero n)
  rw [f64Rat_f64Zero, Rat.cast_zero, zero_pow two_ne_zero, add_zero, Real.sqrt_sq_eq_abs] at h
  exact h.unique (isRne_abs hv)

theorem mag_three_four : mag ⟨0x4008000000000000#64, 0x4010000000000000#64⟩ = 0x4014000000000000#64 := by
  have h3 : f64Rat 0x4008000000000000#64 = 3 := by
    rw [f64Rat_normal (neg := false) (e := 1024) (f := 2 ^ 51) (by decide)]; norm_num
  have h4 : f64Rat 0x4010000000000000#64 = 4 := by
    rw [f64Rat_normal (neg := false) (e := 1025) (f := 0) (by decide)]; norm_num
  have h5 : f64Rat 0x4014000000000000#64 = 5 := by
    rw [f64Rat_normal (neg := false) (e := 1025) (f := 2 ^ 50) (by decide)]; norm_num
  have h := mag_isRne (z := ⟨0x4008000000000000#64, 0x4010000000000000#64⟩) (by decide) (by decide)
  have hroot : √(((3 : ℚ) : ℝ) ^ 2 + ((4 : ℚ) : ℝ) ^ 2) = ((5 : ℚ) : ℝ) := by
    rw [Real.sqrt_eq_iff_mul_self_eq (by positivity) (by positivity)]; norm_num
  rw [h3, h4, hroot, ← h5] at h
  exact h.unique (isRne_f64Rat (by decide) (by decide))

/-- Settles O40: beside a zero the root is that of one square, and 3, 4 and 5 are exact. -/
theorem magnitude : Obligations.Magnitude := by
  refine ⟨fun z => mag_of_isInf, fun z hre him h => ?_, fun z => mag_isRne, fun x n hx => mag_f64Zero_right hx n,
    mag_three_four, fun m n => ?_⟩
  · rw [mag_of_isNaN hre him h, isNaN_f64NaN]
  · rw [mag_f64Zero_right (isFin_f64Zero m)]
    cases m <;> rfl

/-! ### Base-10 logarithm (`40_numerics.md` R153) -/

theorem log10R_of_isNaN (h : isNaN v = true) : log10R v = f64NaN := if_pos h

theorem log10R_f64Zero (n : Bool) : log10R (f64Zero n) = f64Inf true := by
  rw [log10R, isNaN_eq_false_of_isFin (isFin_f64Zero n), isZero_f64Zero]; rfl

/-- What compares below zero is negative and no zero, -Inf included. -/
theorem neg_of_flt_zero (h : flt v 0 = true) : f64Sign v = true ∧ isZero v = false := by
  have hkey : f64Key v < 0 := f64Key_lt_of_flt h
  rw [f64Key] at hkey
  rw [Bool.eq_false_iff, ne_eq, isZero_iff]
  split at hkey
  · exact ⟨‹_›, by omega⟩
  · omega

theorem log10R_of_neg (hsign : f64Sign v = true) (hzero : isZero v = false) : log10R v = f64NaN := by
  simp [log10R, hsign, hzero]

theorem log10R_of_pos (hfin : isFin v = true) (hpos : 0 < f64Rat v) :
    log10R v = if f64Mag v = unitsOne then f64Zero false
      else mkF64 (decide (f64Mag v < unitsOne))
        (refRound (log10At (f64Mag v) (decide (unitsOne < f64Mag v)))
          (log10Above (f64Mag v) (decide (unitsOne < f64Mag v)))) := by
  obtain ⟨hsign, hzero⟩ := sign_of_pos hpos
  simp [log10R, isNaN_eq_false_of_isFin hfin, isInf_eq_false_of_isFin hfin, hsign, hzero]

/-! The sign of the logarithm of M units, and its size with the sign the model tests. -/

section
variable {M : Nat} (hM : 0 < M)
include hM

theorem logb_units_neg_iff : Real.logb 10 ((M : ℝ) / 2 ^ 1074) < 0 ↔ M < unitsOne := by
  have hMR : (0 : ℝ) < M := by exact_mod_cast hM
  rw [Real.logb_neg_iff (by norm_num) (by positivity), div_lt_one (by positivity), ← unitsOne_cast, Nat.cast_lt]

theorem abs_logb_units :
    |Real.logb 10 ((M : ℝ) / 2 ^ 1074)| =
      (if decide (unitsOne < M) then 1 else -1) * Real.logb 10 ((M : ℝ) / 2 ^ 1074) := by
  have hneg := logb_units_neg_iff hM
  by_cases h : unitsOne < M
  · rw [if_pos (decide_eq_true h), one_mul, abs_of_nonneg (not_lt.mp (mt hneg.mp h.le.not_gt))]
  · have hle : Real.logb 10 ((M : ℝ) / 2 ^ 1074) ≤ 0 := by
      rcases (not_lt.mp h).lt_or_eq with hlt | heq
      · exact (hneg.mpr hlt).le
      · exact le_of_eq (by rw [heq, unitsOne_cast, div_self (by positivity), Real.logb_one])
    rw [if_neg (by simpa using h), neg_one_mul, abs_of_nonpos hle]

end

theorem log10R_isRne (hfin : isFin v = true) (hpos : 0 < f64Rat v) : IsRne (Real.logb 10 (f64Rat v)) (log10R v) := by
  have hval : (f64Rat v : ℝ) = (f64Mag v : ℝ) / 2 ^ 1074 := by
    rw [← abs_f64Rat_cast, abs_of_pos (by exact_mod_cast hpos)]
  have hmag : 0 < f64Mag v :=
    Nat.pos_of_ne_zero fun h => hpos.ne' ((f64Rat_eq_zero_iff v).mpr ((f64Mag_eq_zero_iff v).mp h))
  have hlow : 0 < v.toNat % 2 ^ 63 := by
    rwa [f64Mag_eq, ← bitsMag_zero, bitsMag_strictMono.lt_iff_lt] at hmag
  rw [log10R_of_pos hfin hpos, hval]
  split
  · next hone =>
    rw [hone, unitsOne_cast, div_self (by positivity), Real.logb_one]
    exact isRne_zero
  · refine isRne_of_nearest ?_ (by rw [decide_eq_true_iff, logb_units_neg_iff hmag])
    rw [abs_logb_units hmag]
    refine refRound_nearest (fun p hp b hb => ?_) (log10Above_iff hmag _)
    rw [f64Mag_eq] at hb ⊢
    exact log10At_nearest hlow (precision_ge hp) hb

/-- The logarithm is the integer j, and `f64OfNat` rounds j as well. -/
theorem log10R_pow_ten {j : Nat} (hfin : isFin v = true) (hv : f64Rat v = 10 ^ j) : log10R v = f64OfNat j := by
  have h := log10R_isRne hfin (by rw [hv]; positivity)
  rw [hv, Rat.cast_pow, Rat.cast_ofNat, Real.logb_pow, Real.logb_self_eq_one (by norm_num), mul_one] at h
  exact h.unique (isRne_f64OfNat j)

/-- Settles O41: at a power of ten the logarithm is an integer, and both sides are its rounding. -/
theorem logarithm : Obligations.Logarithm := by
  refine ⟨fun s hs => ?_, log10R_f64Zero, rfl, fun s => log10R_isRne, ?_, fun j s => log10R_pow_ten⟩
  · cases hn : isNaN s
    · obtain ⟨hsign, hzero⟩ := neg_of_flt_zero (hs.resolve_left (by simp [hn]))
      rw [log10R_of_neg hsign hzero, isNaN_f64NaN]
    · rw [log10R_of_isNaN hn, isNaN_f64NaN]
  · have h := log10R_isRne (v := ONE) (by decide) (by rw [f64Rat_ONE]; exact one_pos)
    rw [f64Rat_ONE, Rat.cast_one, Real.logb_one] at h
    exact h.unique isRne_zero

end Sys2Proof.Machine
end

section
/-! The statements of `40_numerics.md` R154 and R158 (P8): the power of ten is correctly rounded over its whole range,
and correct rounding makes the logarithm and the power monotone. -/
namespace Sys2Proof.Machine

variable {v w : F64} {x y : ℝ}

/-! ### The power of ten (`40_numerics.md` R154) -/

theorem nearestBits_zero (h : 2 * y ≤ 1) : NearestBits y 0 where
  le_inf := Nat.zero_le _
  low h0 := absurd h0 (lt_irrefl 0)
  low_tie h0 := absurd h0 (lt_irrefl 0)
  high _ := by rw [show midUnits 0 = 1 by decide, Nat.cast_one]; exact h
  high_tie _ _ := rfl

theorem nearestBits_infBits (h : (midUnits (infBits - 1) : ℝ) ≤ 2 * y) : NearestBits y infBits where
  le_inf := le_rfl
  low _ := by rwa [midUnits, Nat.sub_add_cancel (by decide)] at h
  low_tie _ _ := by decide
  high h0 := absurd h0 (lt_irrefl _)
  high_tie h0 := absurd h0 (lt_irrefl _)

theorem isRne_posInf (h : 2 ^ 1024 ≤ x) : IsRne x (f64Inf false) := by
  have hx : (0 : ℝ) ≤ x := le_trans (by positivity) h
  refine isRne_of_nearest (nearestBits_infBits ((threshold_units |x|).mp ?_)) (by simpa using hx)
  rw [abs_of_nonneg hx]
  refine le_trans (mul_le_of_le_one_right (by positivity) ?_) h
  norm_num

theorem isRne_underflow (h0 : 0 ≤ x) (h : 2 * (x * 2 ^ 1074) ≤ 1) : IsRne x (f64Zero false) :=
  isRne_of_nearest (nearestBits_zero (by rwa [abs_of_nonneg h0])) (by simpa using h0)

/-- Beyond 400 the power is past every finite value; its inverse is below half a unit. -/
theorem two_pow_le_ten_rpow {t : ℝ} (ht : 400 ≤ t) : (2 : ℝ) ^ 1075 ≤ 10 ^ t :=
  calc (2 : ℝ) ^ 1075 ≤ 2 ^ (3 * 400) := pow_le_pow_right₀ one_le_two (by norm_num)
    _ = 8 ^ 400 := by rw [pow_mul]; norm_num
    _ ≤ 10 ^ 400 := pow_le_pow_left₀ (by norm_num) (by norm_num) 400
    _ = 10 ^ (400 : ℝ) := (Real.rpow_ofNat 10 400).symm
    _ ≤ 10 ^ t := Real.rpow_le_rpow_of_exponent_le (by norm_num) ht

/-- 10^j and 10^(-j) are rationals, rounded once. -/
theorem exp10Int_isRne (neg : Bool) (j : Nat) :
    IsRne ((10 : ℝ) ^ ((if neg then -1 else 1) * (j : ℝ))) (exp10Int neg j) := by
  cases neg
  · have h := isRne_f64OfNat (10 ^ j)
    rw [Nat.cast_pow, Nat.cast_ofNat] at h
    rw [if_neg Bool.false_ne_true, one_mul, Real.rpow_natCast]
    exact h
  · have h := isRne_rne (neg := false) (n := unitsOne) (d := 10 ^ j) (by positivity) (by simp)
    rw [if_neg Bool.false_ne_true, one_mul, unitsOne_cast, div_right_comm, div_self (by positivity), one_div,
      Nat.cast_pow, Nat.cast_ofNat] at h
    rw [if_pos rfl, neg_one_mul, Real.rpow_neg (by norm_num), Real.rpow_natCast]
    exact h

theorem exp10R_of_isNaN (h : isNaN v = true) : exp10R v = f64NaN := if_pos h

theorem exp10R_of_isFin (h : isFin v = true) :
    exp10R v = if 400 * unitsOne < f64Mag v then (if f64Sign v then f64Zero false else f64Inf false)
      else if f64Mag v % unitsOne = 0 then exp10Int (f64Sign v) (f64Mag v / unitsOne)
      else mkF64 false (refRound (if f64Sign v then exp10NegAt (f64Mag v) else exp10PosAt (f64Mag v))
        (exp10Above (f64Mag v) (f64Sign v))) := by
  simp [exp10R, isNaN_eq_false_of_isFin h, isInf_eq_false_of_isFin h]

/-- 10^(-t) of units 10^(-t)·2^1074 is at most half a unit from 400 on. -/
theorem isRne_ten_rpow_neg {t : ℝ} (ht : 400 ≤ t) : IsRne ((10 : ℝ) ^ (-t)) (f64Zero false) := by
  refine isRne_underflow (by positivity) ?_
  rw [Real.rpow_neg (by norm_num), mul_left_comm, ← pow_succ', inv_mul_le_iff₀ (by positivity), mul_one]
  exact two_pow_le_ten_rpow ht

/-- The power of a value that is no integer: what settles is nearest, and so is what the exact comparison finds. -/
theorem exp10_refRound_nearest (neg : Bool) (X : Nat) :
    NearestBits (Real.exp ((if neg then -1 else 1) * ((X : ℝ) / 2 ^ 1074 * Real.log 10)) * 2 ^ 1074)
      (refRound (if neg then exp10NegAt X else exp10PosAt X) (exp10Above X neg)) := by
  refine refRound_nearest (fun p hp b hb => ?_) (exp10Above_iff X neg)
  cases neg
  · rw [if_neg Bool.false_ne_true, one_mul]
    exact exp10PosAt_nearest hb
  · rw [if_pos rfl, neg_one_mul]
    exact exp10NegAt_nearest (precision_ge hp) hb

theorem exp10R_isRne (h : isFin v = true) : IsRne ((10 : ℝ) ^ (f64Rat v : ℝ)) (exp10R v) := by
  rw [exp10R_of_isFin h, f64Rat_cast, mul_div_assoc]
  generalize f64Sign v = neg
  generalize f64Mag v = X
  by_cases hbig : 400 * unitsOne < X
  · have hX : 400 ≤ (X : ℝ) / 2 ^ 1074 := by
      have := (Nat.cast_le (α := ℝ)).mpr hbig.le
      rwa [Nat.cast_mul, Nat.cast_ofNat, unitsOne_cast, ← le_div_iff₀ (by positivity)] at this
    rw [if_pos hbig]
    cases neg
    · rw [if_neg Bool.false_ne_true, if_neg Bool.false_ne_true, one_mul]
      exact isRne_posInf (le_trans (pow_le_pow_right₀ one_le_two (by norm_num)) (two_pow_le_ten_rpow hX))
    · rw [if_pos rfl, if_pos rfl, neg_one_mul]
      exact isRne_ten_rpow_neg hX
  · rw [if_neg hbig]
    by_cases hint : X % unitsOne = 0
    · have hj : (X : ℝ) / 2 ^ 1074 = (X / unitsOne : Nat) := by
        rw [Nat.cast_div (Nat.dvd_of_mod_eq_zero hint) (by rw [unitsOne_cast]; positivity), unitsOne_cast]
      rw [if_pos hint, hj]
      exact exp10Int_isRne neg _
    · have hexp : (10 : ℝ) ^ ((if neg then -1 else 1) * ((X : ℝ) / 2 ^ 1074)) =
          Real.exp ((if neg then -1 else 1) * ((X : ℝ) / 2 ^ 1074 * Real.log 10)) := by
        rw [Real.rpow_def_of_pos (by norm_num), mul_comm, mul_assoc]
      rw [if_neg hint, hexp]
      refine isRne_of_nearest ?_ (by simpa using (Real.exp_pos _).le)
      rw [abs_of_pos (Real.exp_pos _)]
      exact exp10_refRound_nearest neg X

/-- Settles O42: at a zero the power is 1. -/
theorem powerOfTen : Obligations.PowerOfTen := by
  refine ⟨fun x hx => ?_, rfl, rfl, fun x => exp10R_isRne, fun n => ?_⟩
  · rw [exp10R_of_isNaN hx, isNaN_f64NaN]
  · have h := exp10R_isRne (isFin_f64Zero n)
    rw [f64Rat_f64Zero, Rat.cast_zero, Real.rpow_zero] at h
    exact h.unique isRne_one

/-! ### Monotonicity (`40_numerics.md` R158, P8) -/

/-- Correct rounding keeps the order. -/
theorem IsRne.not_flt (hv : IsRne x v) (hw : IsRne y w) (hxy : x ≤ y) : flt w v = false := by
  rw [Bool.eq_false_iff]
  intro hlt
  have hkey := f64Key_lt_of_flt hlt
  have hU : (0 : ℝ) ≤ 2 ^ 1074 := by positivity
  have hmono : |x| ≤ |y| → v.toNat % 2 ^ 63 ≤ w.toNat % 2 ^ 63 := fun h =>
    hv.nearestBits.mono hw.nearestBits (mul_le_mul_of_nonneg_right h hU)
  have hanti : |y| ≤ |x| → w.toNat % 2 ^ 63 ≤ v.toNat % 2 ^ 63 := fun h =>
    hw.nearestBits.mono hv.nearestBits (mul_le_mul_of_nonneg_right h hU)
  rw [f64Key, f64Key] at hkey
  simp only [hv.sign, hw.sign] at hkey
  rcases lt_or_ge x 0 with hx | hx
  · rcases lt_or_ge y 0 with hy | hy
    · have := hanti (by rw [abs_of_neg hx, abs_of_neg hy]; exact neg_le_neg hxy)
      rw [if_pos hx, if_pos hy] at hkey
      omega
    · rw [if_pos hx, if_neg hy.not_gt] at hkey
      omega
  · have hy := hx.trans hxy
    have := hmono (by rwa [abs_of_nonneg hx, abs_of_nonneg hy])
    rw [if_neg hx.not_gt, if_neg hy.not_gt] at hkey
    omega

theorem log10R_mono (hv : isFin v = true) (hw : isFin w = true) (h : f64Rat v ≤ f64Rat w) :
    flt (log10R w) (log10R v) = false := by
  rcases lt_trichotomy (f64Rat v) 0 with hneg | hzero | hpos
  · obtain ⟨hsign, hne⟩ := (f64Rat_neg_iff v).mp hneg
    rw [ne_eq, f64Rat_eq_zero_iff] at hne
    rw [log10R_of_neg hsign (by simpa using hne)]
    exact flt_of_isNaN (.inr isNaN_f64NaN)
  · rw [f64Rat_eq_zero_iff] at hzero
    rw [eq_f64Zero_of_isZero hzero, log10R_f64Zero]
    exact not_flt_negInf _
  · refine (log10R_isRne hv hpos).not_flt (log10R_isRne hw (hpos.trans_le h)) ?_
    exact Real.logb_le_logb_of_le (by norm_num) (by exact_mod_cast hpos) (by exact_mod_cast h)

theorem exp10R_mono (hv : isFin v = true) (hw : isFin w = true) (h : f64Rat v ≤ f64Rat w) :
    flt (exp10R w) (exp10R v) = false :=
  (exp10R_isRne hv).not_flt (exp10R_isRne hw)
    (Real.rpow_le_rpow_of_exponent_le (by norm_num) (by exact_mod_cast h))

/-- Settles O43: both functions are roundings of monotone ones, and NaN and -Inf are below nothing. -/
theorem monotoneLogAndPower : Obligations.MonotoneLogAndPower :=
  fun _ _ ha hb h => ⟨log10R_mono ha hb h, exp10R_mono ha hb h⟩

end Sys2Proof.Machine
end

section
/-! The statements of `41_fft.md`: the recursion of the transform and its inverse, GATHER and its halves, and the two
commands, which share one list of checks and store one complex array. -/
namespace Sys2Proof.Machine

/-! ### The transform (`41_fft.md` R170) -/

@[simp] theorem FFTL_singleton (x : Cplx) : FFTL [x] = [x] := rfl

section
variable {α : Type} {m : Nat} {xs hs : List α}

/-- A list of m elements that agrees with the even half of 2m elements is that half. -/
theorem eq_evens (hxs : xs.length = 2 * m) (hlen : hs.length = m) (h : ∀ n < m, hs[n]? = xs[2 * n]?) :
    hs = evens xs := by
  refine List.ext_getElem?' fun n hn => ?_
  have hl := length_evens_odds xs
  rw [getElem?_evens, h n (by omega)]

/-- A list of m elements that agrees with the odd half of 2m elements is that half. -/
theorem eq_odds (hxs : xs.length = 2 * m) (hlen : hs.length = m) (h : ∀ n < m, hs[n]? = xs[2 * n + 1]?) :
    hs = odds xs := by
  refine List.ext_getElem?' fun n hn => ?_
  have hl := length_evens_odds xs
  rw [getElem?_odds, h n (by omega)]

end

/-- Settles O25: the two lists are the halves of the recursion, and both have their bin k. -/
theorem fftRecursion : Obligations.FftRecursion := by
  refine ⟨FFTL_singleton, fun m k xs es os ⟨j, hm⟩ hxs hk hes heven hos hodd => ?_⟩
  obtain rfl := eq_evens hxs hes heven
  obtain rfl := eq_odds hxs hos hodd
  subst hm
  have htwice : 2 * 2 ^ j = 2 ^ (j + 1) := (pow_succ' 2 j).symm
  rw [htwice] at hxs ⊢
  have hE := List.getElem?_eq_getElem ((length_fftl j _ hes).symm ▸ hk)
  have hO := List.getElem?_eq_getElem ((length_fftl j _ hos).symm ▸ hk)
  rw [FFTL_eq_fftl hes, FFTL_eq_fftl hos, FFTL_eq_fftl hxs]
  refine ⟨_, _, hE, hO, ?_, ?_⟩
  · rw [fftl_low hxs hk, hE, hO]; rfl
  · rw [fftl_high hxs hk, hE, hO]; rfl

/-! ### The strided sequence (`41_fft.md` R171) -/

theorem getElem?_gather (s : State) (src m stride j : Nat) :
    (s.gather src m stride)[j]? = if j < m then some (s.readC (src + 16 * stride * j)) else none := by
  rw [State.gather, List.getElem?_map]
  split
  · next h => rw [List.getElem?_range h]; rfl
  · next h => rw [List.getElem?_eq_none (by simpa using h)]; rfl

theorem evens_gather (s : State) (src m stride : Nat) :
    evens (s.gather src (2 * m) stride) = s.gather src m (2 * stride) := by
  refine List.ext_getElem? fun n => ?_
  have haddr : src + 16 * stride * (2 * n) = src + 16 * (2 * stride) * n := by ring
  rw [getElem?_evens, getElem?_gather, getElem?_gather, haddr]
  exact if_congr (by omega) rfl rfl

theorem odds_gather (s : State) (src m stride : Nat) :
    odds (s.gather src (2 * m) stride) = s.gather (src + 16 * stride) m (2 * stride) := by
  refine List.ext_getElem? fun n => ?_
  have haddr : src + 16 * stride * (2 * n + 1) = src + 16 * stride + 16 * (2 * stride) * n := by ring
  rw [getElem?_odds, getElem?_gather, getElem?_gather, haddr]
  exact if_congr (by omega) rfl rfl

/-- Settles O26: element by element, the address of element 2n or 2n + 1 is that of element n at twice the stride. -/
theorem gatherHalves : Obligations.GatherHalves := fun s src m stride j =>
  ⟨fun hj => by rw [getElem?_gather, if_pos hj], length_gather s src m stride, evens_gather s src m stride,
    odds_gather s src m stride⟩

/-! ### The inverse transform (`41_fft.md` R173) -/

section
variable (v : F64)

@[simp] theorem isInf_fneg : isInf (fneg v) = isInf v := by
  rw [Bool.eq_iff_iff, isInf_iff, isInf_iff, lowBits_fneg]

@[simp] theorem isZero_fneg : isZero (fneg v) = isZero v := by
  rw [Bool.eq_iff_iff, isZero_iff, isZero_iff, lowBits_fneg]

end

theorem rneBits_lt (n d : Nat) : rneBits n d < 2 ^ 63 := lt_of_le_of_lt (Nat.min_le_right _ _) (by decide)

/-- Rounding does not look at the sign. -/
@[simp] theorem fneg_rne (neg : Bool) (n d : Nat) : fneg (rne neg n d) = rne (!neg) n d := by
  have hb := rneBits_lt n d
  refine f64_ext ?_ ?_
  · rw [f64Sign_fneg, rne, rne, f64Sign_mkF64 _ hb, f64Sign_mkF64 _ hb]
  · rw [lowBits_fneg, rne, rne, toNat_mod_mkF64 _ hb, toNat_mod_mkF64 _ hb]

/-- Negating the dividend negates the quotient in every class of operands, but for a NaN, whose sign is lost when it is
made canonical. -/
theorem canon_fdiv_fneg (a b : F64) : canon (fdiv (fneg a) b) = canon (fneg (fdiv a b)) := by
  have hnan : canon f64NaN = canon (fneg f64NaN) := by decide
  rw [fdiv, fdiv, isNaN_fneg, isInf_fneg, isZero_fneg, f64Sign_fneg, f64Mag_fneg, Bool.not_bne]
  split_ifs
  · exact hnan
  · exact hnan
  · exact congrArg canon (fneg_f64Inf _).symm
  · exact congrArg canon (fneg_f64Zero _).symm
  · exact hnan
  · exact congrArg canon (fneg_f64Inf _).symm
  · exact congrArg canon (fneg_rne _ _ _).symm

theorem getElem?_IFFTL {xs : List Cplx} {k : Nat} {y : Cplx} (h : (FFTL (xs.map conj))[k]? = some y) :
    (IFFTL xs)[k]? = some ⟨fdiv y.re (f64OfNat xs.length), fdiv (fneg y.im) (f64OfNat xs.length)⟩ := by
  rw [IFFTL, List.getElem?_map, h, Option.map_some]

/-- Settles O27: the inverse maps each bin of the transform, and division commutes with negation. -/
theorem inverseTransform : Obligations.InverseTransform :=
  ⟨fun _ _ _ => getElem?_IFFTL, canon_fdiv_fneg⟩

/-! ### The checks of FFT and IFFT (`41_fft.md` R172, R174) -/

variable {s : State} {l : Latched} {i : Instr}

theorem operands_of_inFlight (h : s.inFlight = some l) : s.operands = l.snap := by rw [State.operands, h]

/-- Both commands make the checks of FFT, as their footprints are the same. -/
theorem commandError_transform (hl : s.inFlight = some l) (hi : i = .fft ∨ i = .ifft) :
    commandError i s = firstError (fftChecks s.params l.snap) := by
  rw [← operands_of_inFlight hl]
  rcases hi with rfl | rfl <;> rfl

theorem alignCheck_pair (a b : Nat) : (alignCheck [a, b]).1 = true ↔ a % 8 ≠ 0 ∨ b % 8 ≠ 0 := by
  simp [alignCheck_iff]

theorem fft_writeFootprints (r : Snapshot) : writeFootprints .fft r = [⟨r.dst, 16 * r.size⟩] :=
  congrArg (fun n => [Footprint.mk r.dst n]) (Int.toNat_natCast (16 * r.size))

section
variable {r : Snapshot} (h : 0 < r.size)
include h

theorem fft_readFootprints : readFootprints .fft r = [⟨r.src, hullLen r.size r.stride⟩] :=
  congrArg (fun n => [Footprint.mk r.src n]) (strided_span r h)

theorem fft_boundsCheck_iff (p : Params) :
    (boundsCheck p .fft r).1 = true ↔
      ¬ (fits p.dmemSize r.src (hullLen r.size r.stride) ∧ fits p.dmemSize r.dst (16 * r.size)) := by
  rw [boundsCheck_iff, fft_readFootprints h, fft_writeFootprints, not_and_or]
  simp only [List.cons_append, List.nil_append, List.exists_mem_cons_iff, List.not_mem_nil, false_and, exists_false,
    or_false]

theorem fft_overlapCheck_iff :
    (overlapCheck .fft r).1 = true ↔ ¬ apart r.src (hullLen r.size r.stride) r.dst (16 * r.size) := by
  rw [overlapCheck, fft_readFootprints h, fft_writeFootprints, overlapFails_pair]

end

/-- Settles O18: the checks of both commands decide in their order; behind the first the size is a power of two, so the
source has a first element and its hull is an interval. -/
theorem fftErrorOrder : Obligations.FftErrorOrder := by
  intro s l i hl hi
  refine decides_cons (commandError_transform hl hi) (sizeCheck_iff _ _) fun hsize he => ?_
  obtain ⟨j, hj⟩ := not_not.mp (not_or.mp hsize).1
  have hpos : 0 < l.snap.size := hj ▸ Nat.two_pow_pos j
  exact decides_cons he (alignCheck_pair _ _) fun _ he => decides_cons he (fft_boundsCheck_iff hpos _) fun _ he =>
    decides_cons he (fft_overlapCheck_iff hpos) fun _ he => decides_nil he

/-! ### The completion of FFT and IFFT (`45_control.md` R253) -/

/-- With the four checks passed there is no error. -/
theorem fftChecks_pass {p : Params} {r : Snapshot} {j : Nat} (hj : r.size = 2 ^ j) (hmax : r.size ≤ p.nmax)
    (hsrc : r.src % 8 = 0) (hdst : r.dst % 8 = 0) (hread : fits p.dmemSize r.src (hullLen r.size r.stride))
    (hwrite : fits p.dmemSize r.dst (16 * r.size))
    (hapart : apart r.src (hullLen r.size r.stride) r.dst (16 * r.size)) : firstError (fftChecks p r) = none := by
  have hpos : 0 < r.size := hj ▸ Nat.two_pow_pos j
  have hsize := (sizeCheck_iff p r.size).not.mpr (not_or_intro (not_not_intro ⟨j, hj⟩) hmax.not_gt)
  have halign := (alignCheck_pair r.src r.dst).not.mpr (not_or_intro (not_not_intro hsrc) (not_not_intro hdst))
  have hbounds := (fft_boundsCheck_iff hpos p).not.mpr (not_not_intro ⟨hread, hwrite⟩)
  have hoverlap := (fft_overlapCheck_iff hpos).not.mpr (not_not_intro hapart)
  simp only [firstError_eq_none, fftChecks, List.forall_mem_cons, ← Bool.not_eq_true]
  exact ⟨hsize, halign, hbounds, hoverlap, by simp⟩

/-- A command that passes its checks and whose effect is to store one complex array: the array reads back canonical, and
nothing outside it and the completion changes. -/
theorem exec_writeCs {dst n : Nat} {zs : List Cplx} (he : commandError i s = none)
    (heff : commandEffects i s = s.writeCs dst zs) (hlen : zs.length = n) :
    ∃ t, exec i s = .next t ∧
      (∀ k < n, ∃ z, zs[k]? = some z ∧ t.readC (dst + 16 * k) = ⟨canon z.re, canon z.im⟩) ∧
      (∀ a, a < dst ∨ dst + 16 * n ≤ a → t.byteAt a = s.byteAt a) ∧
      t = { s with dmem := t.dmem, status := { s.status with done := true }, inFlight := none } := by
  subst hlen
  refine ⟨_, exec_success he, ?_, ?_, ?_⟩ <;> rw [heff]
  · exact fun k hk => ⟨zs[k], List.getElem?_eq_getElem hk, readC_writeCs s dst zs k hk⟩
  · exact fun a ha => byteAt_writeCs_outside s ha
  · rfl

/-- Settles O8: the four checks pass, and the transform has as many elements as the source. -/
theorem fftCompletes : Obligations.FftCompletes := by
  intro s l j hl hj hmax hsrc hdst hread hwrite hapart
  refine exec_writeCs ?_ (by rw [commandEffects, operands_of_inFlight hl]) ?_
  · rw [commandError_transform hl (.inl rfl), fftChecks_pass hj hmax hsrc hdst hread hwrite hapart]
  · rw [length_FFTL ⟨j, (length_gather _ _ _ _).trans hj⟩, length_gather]

/-- Settles O9: as for FFT, with the inverse transform. -/
theorem ifftCompletes : Obligations.IfftCompletes := by
  intro s l j hl hj hmax hsrc hdst hread hwrite hapart
  refine exec_writeCs ?_ (by rw [commandEffects, operands_of_inFlight hl]) ?_
  · rw [commandError_transform hl (.inr rfl), fftChecks_pass hj hmax hsrc hdst hread hwrite hapart]
  · rw [length_IFFTL ⟨j, (length_gather _ _ _ _).trans hj⟩, length_gather]

end Sys2Proof.Machine
end

section
/-! The statements of `42_stft.md`: the frame count, the checks of STFT in order, and the bin-major matrix it stores. -/
namespace Sys2Proof.Machine

variable {s : State} {l : Latched} {i : Instr} {r : Snapshot}

/-! ### The frame count (`42_stft.md` R190) -/

theorem frames_of_step_pos (h : 0 < r.step) : r.frames = ((r.sigLen : Int) - (r.wsize : Int)) / r.step + 1 := if_pos h

theorem frames_nonpos_iff (h : 0 < r.step) : r.frames ≤ 0 ↔ r.sigLen < r.wsize := by
  have hneg := Int.ediv_lt_iff_lt_mul (a := (r.sigLen : Int) - (r.wsize : Int)) (b := 0) h
  rw [frames_of_step_pos h]
  omega

/-- Settles O30: the distance to the start of the last frame is L - W rounded down to a multiple of the step. -/
theorem frameCount : Obligations.FrameCount := by
  refine fun r h => ⟨frames_of_step_pos h, frames_nonpos_iff h, fun _ => ?_⟩
  have hlow := Int.ediv_mul_le ((r.sigLen : Int) - (r.wsize : Int)) h.ne'
  have hhigh := Int.lt_ediv_add_one_mul_self ((r.sigLen : Int) - (r.wsize : Int)) h
  rw [add_mul, one_mul] at hhigh
  rw [frames_of_step_pos h, add_sub_cancel_right]
  omega

theorem step_eq_of_add {step : Nat} (h : r.overlap + step = r.wsize) : r.step = step := by
  rw [Snapshot.step]
  omega

/-- With the first two checks of STFT passed, the frame count is one of natural numbers. -/
theorem frames_eq_natCast {step : Nat} (h : r.overlap + step = r.wsize) (hpos : 0 < step)
    (hlen : r.wsize ≤ r.sigLen) : r.frames = ((r.sigLen - r.wsize) / step + 1 : Nat) := by
  have hstep := step_eq_of_add h
  rw [frames_of_step_pos (by omega), hstep, ← Int.ofNat_sub hlen]
  rfl

/-! ### The checks of STFT (`42_stft.md` R191) -/

/-- A check that passes leaves the decision to the rest. -/
theorem firstError_cons_pass {c : Check} {cs : List Check} {p : Prop} (hc : c.1 = true ↔ p) (hp : ¬ p) :
    firstError (c :: cs) = firstError cs :=
  if_neg (hc.not.mpr hp)

section
variable {f g : Footprint} (hread : readFootprints i r = [f]) (hwrite : writeFootprints i r = [g])
include hread hwrite

/-- The bounds check of a command with one read and one write footprint. -/
theorem boundsCheck_pair (p : Params) :
    (boundsCheck p i r).1 = true ↔ ¬ (fits p.dmemSize f.base f.len ∧ fits p.dmemSize g.base g.len) := by
  rw [boundsCheck_iff, hread, hwrite, not_and_or]
  simp only [List.cons_append, List.nil_append, List.exists_mem_cons_iff, List.not_mem_nil, false_and, exists_false,
    or_false]

/-- The overlap check of a command with one read and one write footprint. -/
theorem overlapCheck_pair : (overlapCheck i r).1 = true ↔ ¬ apart f.base f.len g.base g.len := by
  rw [overlapCheck, hread, hwrite, overlapFails_pair]

end

theorem stft_readFootprints (r : Snapshot) : readFootprints .stft r = [⟨r.src, 8 * r.sigLen⟩] :=
  congrArg (fun n => [Footprint.mk r.src n]) (Int.toNat_natCast (8 * r.sigLen))

theorem stft_writeFootprints {nf : Nat} (h : r.frames = nf) :
    writeFootprints .stft r = [⟨r.dst, 8 * (binCount r.wsize * nf)⟩] := by
  rw [writeFootprints, h]
  exact congrArg (fun n => [Footprint.mk r.dst n]) (Int.toNat_natCast (8 * (binCount r.wsize * nf)))

theorem commandError_stft (hl : s.inFlight = some l) : commandError .stft s = firstError (stftChecks s.params l.snap) :=
  congrArg (fun r => firstError (stftChecks s.params r)) (operands_of_inFlight hl)

/-- Settles O19: the checks decide in their order; behind the first two the frame count is positive, so the matrix is an
interval. -/
theorem stftErrorOrder : Obligations.StftErrorOrder := by
  intro s l B nf hl hB hnf
  subst hB hnf
  refine decides_cons (he := rfl) (commandError_stft hl) (stepCheck_iff _) fun hstep he =>
    decides_cons (he := rfl) he decide_eq_true_iff fun hlen he => ?_
  have hlt := not_le.mp hstep
  have hread := stft_readFootprints l.snap
  have hwrite := stft_writeFootprints
    (frames_eq_natCast (Nat.add_sub_cancel' hlt.le) (Nat.sub_pos_of_lt hlt) (not_lt.mp hlen))
  exact decides_cons (he := rfl) he (sizeCheck_iff _ _) fun _ he =>
    decides_cons (he := rfl) he (alignCheck_pair _ _) fun _ he =>
    decides_cons (he := rfl) he (boundsCheck_pair hread hwrite _) fun _ he =>
    decides_cons (he := rfl) he (overlapCheck_pair hread hwrite) fun _ he => decides_nil he

/-! ### The matrix of magnitudes (`42_stft.md` R191) -/

/-- Bin k of frame i is the transform's, and its magnitude is the matrix element [k][i]. -/
theorem getElem?_stftMatrix (s : State) (src step : Nat) {W j nf k n : Nat} (hW : W = 2 ^ j) (hk : k < binCount W)
    (hn : n < nf) : ∃ z, (FFTL (s.frameAt src W (n * step)))[k]? = some z ∧
      (binMajor (binCount W) (s.stftColumns src W step nf))[k * nf + n]? = some (mag z) := by
  have hlen : (FFTL (s.frameAt src W (n * step))).length = W := by
    rw [length_FFTL ⟨j, (length_frameAt _ _ _ _).trans hW⟩, length_frameAt]
  have hkW : k < W := by
    have := Nat.two_pow_pos j
    unfold binCount at hk
    omega
  have hz := List.getElem?_eq_getElem (hlen.symm ▸ hkW)
  refine ⟨_, hz, ?_⟩
  rw [getElem?_binMajor (length_stftColumns _ _ _ _ _) hk hn, State.stftColumns, List.getElem?_map,
    List.getElem?_range hn, Option.map_some, Option.map_some, State.frameMags, List.getD_eq_getElem?_getD,
    List.getElem?_map, hz, Option.map_some, Option.getD_some]

/-- The frame count of a signal, whose length is a 32-bit word, fits NFRAMES. -/
theorem frames_lt (r : Snapshot) (hW : 0 < r.wsize) (step : Nat) : (r.sigLen - r.wsize) / step + 1 < 2 ^ 32 := by
  have hdiv := Nat.div_le_self (r.sigLen - r.wsize) step
  have hlen : r.sigLen < 2 ^ 32 := r.regs.sigLen.isLt
  omega

theorem binCount_wsize_lt (r : Snapshot) : binCount r.wsize < 2 ^ 32 := by
  have hW : r.wsize < 2 ^ 32 := r.regs.wsize.isLt
  unfold binCount
  omega

theorem readF64_writeF64s_of_getElem? (s : State) (base : Nat) {vs : List F64} {j : Nat} {v : F64}
    (h : vs[j]? = some v) : (s.writeF64s base vs).readF64 (base + 8 * j) = canon v := by
  obtain ⟨hj, rfl⟩ := List.getElem?_eq_some_iff.mp h
  exact readF64_writeF64s s base vs j hj

theorem commandEffects_stft {step nf : Nat} (hl : s.inFlight = some l) (hstep : l.snap.step = step)
    (hnf : l.snap.frames = nf) :
    commandEffects .stft s = (s.writeF64s l.snap.dst
      (binMajor (binCount l.snap.wsize) (s.stftColumns l.snap.src l.snap.wsize step nf))).setShape
        (binCount l.snap.wsize) nf := by
  rw [commandEffects, operands_of_inFlight hl, hstep, hnf, Int.toNat_natCast, Int.toNat_natCast]

/-- Settles O10: the six checks pass, the stored matrix reads back element by element, and both counts fit a register. -/
theorem stftCompletes : Obligations.StftCompletes := by
  intro s l j step nf B hl hstep hpos hlen hnf hB hj hmax hsrc hdst hread hwrite hapart
  obtain rfl : B = binCount l.snap.wsize := hB
  have hframes := frames_eq_natCast hstep hpos hlen
  rw [← hnf] at hframes
  have hreads := stft_readFootprints l.snap
  have hwrites := stft_writeFootprints hframes
  have he : commandError .stft s = none := by
    rw [commandError_stft hl, stftChecks, firstError_cons_pass (stepCheck_iff _) (by omega),
      firstError_cons_pass decide_eq_true_iff hlen.not_gt,
      firstError_cons_pass (sizeCheck_iff _ _) (not_or_intro (not_not_intro ⟨j, hj⟩) hmax.not_gt),
      firstError_cons_pass (alignCheck_pair _ _) (not_or_intro (not_not_intro hsrc) (not_not_intro hdst)),
      firstError_cons_pass (boundsCheck_pair hreads hwrites _) (not_not_intro ⟨hread, hwrite⟩),
      firstError_cons_pass (overlapCheck_pair hreads hwrites) (not_not_intro hapart), firstError]
  refine ⟨_, exec_success he, ?_⟩
  rw [commandEffects_stft hl (step_eq_of_add hstep) hframes]
  refine ⟨fun k hk n hn => ?_, ?_, ?_, fun a ha => ?_, rfl⟩
  · obtain ⟨z, hz, hmag⟩ := getElem?_stftMatrix s l.snap.src step hj hk hn
    exact ⟨z, hz, readF64_writeF64s_of_getElem? s _ hmag⟩
  · exact (BitVec.toNat_ofNat _ _).trans (Nat.mod_eq_of_lt (binCount_wsize_lt _))
  · exact (BitVec.toNat_ofNat _ _).trans (Nat.mod_eq_of_lt (hnf ▸ frames_lt _ (hj ▸ Nat.two_pow_pos j) _))
  · rw [byteAt_successComplete, byteAt_setShape]
    refine byteAt_writeF64s_outside s ?_
    rwa [length_binMajor, length_stftColumns]

end Sys2Proof.Machine
end

section
namespace Sys2Proof.Machine

-- Under this option the proofs elaborate one after another instead of in parallel, which keeps the check of the whole
-- text within its memory limit; no lemma below takes a section variable that its statement does not name.
set_option deprecated.oldSectionVars true

section
/-! The statements of `43_quantizer.md` about QENC and QDEC: the checks in order and what each command stores. -/

variable {s : State} {l : Latched}

/-! ### The checks of QENC (`43_quantizer.md` R206) -/

theorem logValues_eq (s : State) (r : Snapshot) : s.logValues r =
    (List.range (r.nbins * r.nframes)).map fun j => fmul TEN (log10R (fadd (s.readF64 (r.src + 8 * j)) EPS)) :=
  List.map_map

theorem qenc_readFootprints (r : Snapshot) : readFootprints .qenc r = [⟨r.src, 8 * (r.nbins * r.nframes)⟩] :=
  congrArg (fun n => [Footprint.mk r.src n]) (Int.toNat_natCast (8 * r.elems))

theorem qenc_writeFootprints (r : Snapshot) : writeFootprints .qenc r = [⟨r.dst, r.nbins * r.nframes⟩] :=
  congrArg (fun n => [Footprint.mk r.dst n]) (Int.toNat_natCast r.elems)

/-- The two data checks follow the four others in one list. -/
theorem commandError_qenc (hl : s.inFlight = some l) :
    commandError .qenc s = firstError (qencChecks s.params l.snap ++ qencDataChecks (s.logValues l.snap)) := by
  rw [firstError_append, commandError, operands_of_inFlight hl]

theorem alignCheck_single (a : Nat) : (alignCheck [a]).1 = true ↔ a % 8 ≠ 0 := by simp [alignCheck_iff]

theorem any_not_isFin_iff (ls : List F64) : (ls.any fun v => !isFin v) = true ↔ ∃ v ∈ ls, isFin v = false := by
  simp only [List.any_eq_true, Bool.not_eq_true']

/-- Settles O20: the six checks decide in their order, the two on the log values last. -/
theorem qencErrorOrder : Obligations.QencErrorOrder := by
  intro s l n ls hl hn hls
  subst hn
  rw [← logValues_eq] at hls
  subst hls
  have hread := qenc_readFootprints l.snap
  have hwrite := qenc_writeFootprints l.snap
  exact decides_cons (he := rfl) (commandError_qenc hl) beq_iff_eq fun _ he =>
    decides_cons (he := rfl) he (alignCheck_single _) fun _ he =>
    decides_cons (he := rfl) he (boundsCheck_pair hread hwrite _) fun _ he =>
    decides_cons (he := rfl) he (overlapCheck_pair hread hwrite) fun _ he =>
    decides_cons (he := rfl) he (any_not_isFin_iff _) fun _ he =>
    decides_cons (he := rfl) he Iff.rfl fun _ he => decides_nil he

/-! ### The completion of QENC (`43_quantizer.md` R206, `45_control.md` R253) -/

/-- A value clamped to 0..255 is the byte it is stored as. -/
theorem toNat_quantize (mn mx v : F64) : ((quantize mn mx v).toNat : Int) =
    min 255 (max 0 (roundi (fdiv (fmul C255 (fsub v mn)) (fsub mx mn)))) := by
  have hlow : ∀ z : Int, 0 ≤ min 255 (max 0 z) := fun z => le_min (by decide) (le_max_left 0 z)
  have hhigh : ∀ z : Int, min 255 (max 0 z) < (2 ^ 8 : Nat) := fun z => (min_le_left 255 _).trans_lt (by decide)
  rw [quantize, BitVec.toNat_ofInt, Int.emod_eq_of_lt (hlow _) (hhigh _), Int.toNat_of_nonneg (hlow _)]

/-- The two halves of a pattern make it up (`10_state.md` R58). -/
theorem halves_append (v : F64) : v.extractLsb' 32 32 ++ v.extractLsb' 0 32 = v := by
  rw [BitVec.extractLsb'_append_extractLsb'_eq_extractLsb' (by omega)]
  exact BitVec.extractLsb'_eq_self

theorem exec_qenc (hl : s.inFlight = some l) (he : commandError .qenc s = none) :
    exec .qenc s = .next ((s.writeU8s l.snap.dst ((s.logValues l.snap).map
      (quantize (fminList (s.logValues l.snap)) (fmaxList (s.logValues l.snap))))).setRange
        (fminList (s.logValues l.snap)) (fmaxList (s.logValues l.snap))).successComplete := by
  rw [exec_success he, commandEffects, operands_of_inFlight hl]

/-- Settles O11: the six checks pass, byte j is that of log value j, and each extremum is its two halves. -/
theorem qencCompletes : Obligations.QencCompletes := by
  intro s l n ls mn mx hl hn hpos hsrc hread hwrite hapart hls hfin hmn hmx hne
  subst hn
  rw [← logValues_eq] at hls
  subst hls hmn hmx
  have hreads := qenc_readFootprints l.snap
  have hwrites := qenc_writeFootprints l.snap
  have he : commandError .qenc s = none := (commandError_qenc hl).trans <|
    (firstError_cons_pass beq_iff_eq hpos.ne').trans <|
    (firstError_cons_pass (alignCheck_single _) (not_not_intro hsrc)).trans <|
    (firstError_cons_pass (boundsCheck_pair hreads hwrites _) (not_not_intro ⟨hread, hwrite⟩)).trans <|
    (firstError_cons_pass (overlapCheck_pair hreads hwrites) (not_not_intro hapart)).trans <|
    (firstError_cons_pass (any_not_isFin_iff _) fun ⟨v, hv, h⟩ => Bool.eq_false_iff.mp h (hfin v hv)).trans <|
    firstError_cons_pass Iff.rfl (Bool.eq_false_iff.mp hne)
  have hlen : (s.logValues l.snap).length = l.snap.nbins * l.snap.nframes := length_logValues s l.snap
  refine ⟨_, exec_qenc hl he, fun j hj => ?_, halves_append _, halves_append _, fun a ha => ?_, rfl⟩
  · have hj' : j < (s.logValues l.snap).length := hlen.symm ▸ hj
    refine ⟨_, List.getElem?_eq_getElem hj', ?_⟩
    rw [byteAt_successComplete, byteAt_setRange, byteAt_writeU8s _ _ _ _ (by rwa [List.length_map]), List.getElem_map,
      toNat_quantize]
  · rw [byteAt_successComplete, byteAt_setRange]
    exact byteAt_writeU8s_outside s (by rwa [List.length_map, hlen])

/-! ### The checks of QDEC (`43_quantizer.md` R207) -/

theorem qdec_readFootprints (r : Snapshot) : readFootprints .qdec r = [⟨r.src, r.nbins * r.nframes⟩] :=
  congrArg (fun n => [Footprint.mk r.src n]) (Int.toNat_natCast r.elems)

theorem qdec_writeFootprints (r : Snapshot) : writeFootprints .qdec r = [⟨r.dst, 8 * (r.nbins * r.nframes)⟩] :=
  congrArg (fun n => [Footprint.mk r.dst n]) (Int.toNat_natCast (8 * r.elems))

theorem commandError_qdec (hl : s.inFlight = some l) : commandError .qdec s = firstError (qdecChecks s.params l.snap) :=
  congrArg (fun r => firstError (qdecChecks s.params r)) (operands_of_inFlight hl)

/-- All five scalars are present exactly when the META_VALID word has its five bits set. -/
theorem allPresent_iff (m : MetaValid) : m.allPresent = true ↔ metaWord m = 0x0000001F#32 := by
  refine ⟨fun h => ?_, fun h => ?_⟩
  · simp only [MetaValid.allPresent, Bool.and_eq_true, and_assoc] at h
    obtain ⟨hw, ho, hr, hmn, hmx⟩ := h
    rw [metaWord, hw, ho, hr, hmn, hmx]
    rfl
  · obtain ⟨hw, ho, hr, hmn, hmx⟩ := metaWord_bits m
    rw [MetaValid.allPresent, ← hw, ← ho, ← hr, ← hmn, ← hmx, h]
    rfl

theorem not_allPresent_iff (m : MetaValid) : (!m.allPresent) = true ↔ metaWord m ≠ 0x0000001F#32 := by
  rw [ne_eq, ← allPresent_iff, Bool.not_eq_true', Bool.not_eq_true]

/-- Settles O21: the four checks decide in their order, presence first. -/
theorem qdecErrorOrder : Obligations.QdecErrorOrder := by
  intro s l n hl hn
  subst hn
  have hread := qdec_readFootprints l.snap
  have hwrite := qdec_writeFootprints l.snap
  exact decides_cons (he := rfl) (commandError_qdec hl) (not_allPresent_iff _) fun _ he =>
    decides_cons (he := rfl) he (alignCheck_single _) fun _ he =>
    decides_cons (he := rfl) he (boundsCheck_pair hread hwrite _) fun _ he =>
    decides_cons (he := rfl) he (overlapCheck_pair hread hwrite) fun _ he => decides_nil he

/-! ### The completion of QDEC (`43_quantizer.md` R207, `45_control.md` R253) -/

theorem exec_qdec (hl : s.inFlight = some l) (he : commandError .qdec s = none) :
    exec .qdec s = .next (s.writeF64s l.snap.dst ((List.range (l.snap.nbins * l.snap.nframes)).map fun j =>
      dequantize l.snap.qmin l.snap.qmax (s.byteAt (l.snap.src + j)).toNat)).successComplete := by
  rw [exec_success he, commandEffects, operands_of_inFlight hl]
  rfl

/-- Settles O12: the four checks pass, and the stored array reads back element by element. -/
theorem qdecCompletes : Obligations.QdecCompletes := by
  intro s l n hl hmeta hn hdst hread hwrite hapart
  subst hn
  have hreads := qdec_readFootprints l.snap
  have hwrites := qdec_writeFootprints l.snap
  have he : commandError .qdec s = none := (commandError_qdec hl).trans <|
    (firstError_cons_pass (not_allPresent_iff _) (not_not_intro (congrArg metaWord hmeta))).trans <|
    (firstError_cons_pass (alignCheck_single _) (not_not_intro hdst)).trans <|
    (firstError_cons_pass (boundsCheck_pair hreads hwrites _) (not_not_intro ⟨hread, hwrite⟩)).trans <|
    firstError_cons_pass (overlapCheck_pair hreads hwrites) (not_not_intro hapart)
  refine ⟨_, exec_qdec hl he, fun j hj => ?_, fun a ha => ?_, rfl⟩
  · exact readF64_writeF64s_of_getElem? s _ (by rw [List.getElem?_map, List.getElem?_range hj]; rfl)
  · rw [byteAt_successComplete]
    exact byteAt_writeF64s_outside s (by rwa [List.length_map, List.length_range])

end

section
/-! The statement of `43_quantizer.md` R205: correct rounding keeps bounds, so the log value of a finite v ≥ 0 lies
between -60 and a finite number; EPS is so near 10^-6 that its logarithm rounds to -6; and a value without a logarithm
gives no finite log value. -/

variable {v lo hi : F64} {x y z : ℝ}

/-! ### Rounding keeps bounds -/

theorem IsRne.abs_lt_of_isFin (h : IsRne x v) (hfin : isFin v = true) : |x| < 2 ^ 1024 * (1 - (1 : ℝ) / 2 ^ 54) := by
  by_contra hge
  have hinf := h.infinite (not_lt.mp hge)
  rw [isInf_eq_false_of_isFin hfin] at hinf
  cases hinf

/-- A real between two reals with finite roundings has a finite rounding between theirs. -/
theorem IsRne.between (hlo : IsRne y lo) (hv : IsRne x v) (hhi : IsRne z hi) (hyx : y ≤ x) (hxz : x ≤ z)
    (hlofin : isFin lo = true) (hhifin : isFin hi = true) :
    isFin v = true ∧ f64Rat lo ≤ f64Rat v ∧ f64Rat v ≤ f64Rat hi := by
  have hfin : isFin v = true := by
    obtain ⟨hy, -⟩ := abs_lt.mp (hlo.abs_lt_of_isFin hlofin)
    obtain ⟨-, hz⟩ := abs_lt.mp (hhi.abs_lt_of_isFin hhifin)
    exact hv.finite (abs_lt.mpr ⟨hy.trans_le hyx, hxz.trans_lt hz⟩)
  refine ⟨hfin, not_lt.mp ?_, not_lt.mp ?_⟩
  · rw [← flt_iff hfin hlofin, hlo.not_flt hv hyx]
    exact Bool.false_ne_true
  · rw [← flt_iff hhifin hfin, hv.not_flt hhi hxz]
    exact Bool.false_ne_true

/-! ### The constants as numbers (`40_numerics.md` R144) -/

theorem isFin_EPS : isFin EPS = true := rfl

theorem isFin_TEN : isFin TEN = true := rfl

theorem f64Rat_EPS : f64Rat EPS = 4722366482869645 / 2 ^ 72 := by
  rw [f64Rat_normal (neg := false) (e := 1003) (f := 0xC6F7A0B5ED8D) (by decide)]
  norm_num

theorem f64Rat_EPS_pos : 0 < f64Rat EPS := by
  rw [← f64Rat_f64Zero false]
  exact (flt_iff (isFin_f64Zero false) isFin_EPS).mp (by decide)

theorem f64Rat_TEN_pos : 0 < f64Rat TEN := by
  rw [← f64Rat_f64Zero false]
  exact (flt_iff (isFin_f64Zero false) isFin_TEN).mp (by decide)

/-- The bounds -6 and 512 of the logarithm, and their products with the factor of the log value. -/
theorem f64Rat_log_bounds :
    f64Rat 0x4080000000000000#64 = 512 ∧ f64Rat TEN * f64Rat 0x4080000000000000#64 = f64Rat 0x40B4000000000000#64 ∧
      f64Rat TEN * f64Rat 0xC018000000000000#64 = f64Rat 0xC04E000000000000#64 := by
  rw [f64Rat_normal (v := TEN) (neg := false) (e := 1026) (f := 0x4000000000000) (by decide),
    f64Rat_normal (v := 0x4080000000000000#64) (neg := false) (e := 1032) (f := 0) (by decide),
    f64Rat_normal (v := 0x40B4000000000000#64) (neg := false) (e := 1035) (f := 0x4000000000000) (by decide),
    f64Rat_normal (v := 0xC018000000000000#64) (neg := true) (e := 1025) (f := 0x8000000000000) (by decide),
    f64Rat_normal (v := 0xC04E000000000000#64) (neg := true) (e := 1028) (f := 0xE000000000000) (by decide)]
  norm_num

/-! ### The logarithm of EPS -/

/-- The logarithm of a number just below 1: log is at least its chord bound 1 - 1/c, and the base 10 is above e. -/
theorem logb_ten_bounds {c : ℝ} (hpos : 0 < c) (hle : c ≤ 1) : 1 - c⁻¹ ≤ Real.logb 10 c ∧ Real.logb 10 c ≤ 0 := by
  have hten : 1 ≤ Real.log 10 := by
    rw [Real.le_log_iff_exp_le (by norm_num)]
    exact (Real.exp_one_lt_d9.trans (by norm_num)).le
  have hten0 : 0 < Real.log 10 := one_pos.trans_le hten
  have hlog := Real.log_nonpos hpos.le hle
  refine ⟨(Real.one_sub_inv_le_log_of_pos hpos).trans ?_, div_nonpos_of_nonpos_of_nonneg hlog hten0.le⟩
  rw [Real.logb, le_div_iff₀ hten0]
  exact mul_le_of_one_le_right hlog hten

/-- EPS is 10^-6 up to a factor just below 1. -/
theorem logb_EPS : Real.logb 10 (f64Rat EPS) = Real.logb 10 (4722366482869645 * 10 ^ 6 / 2 ^ 72) - 6 := by
  have hEPS : (f64Rat EPS : ℝ) = 4722366482869645 * 10 ^ 6 / 2 ^ 72 / 10 ^ 6 := by
    rw [f64Rat_EPS]
    norm_num
  rw [hEPS, Real.logb_div (by norm_num) (by norm_num), Real.logb_pow, Real.logb_self_eq_one Nat.one_lt_ofNat, mul_one,
    Nat.cast_ofNat]

/-- The factor is so close to 1 that its logarithm is less than half a unit in the last place of 6. -/
theorem isRne_logb_EPS : IsRne (Real.logb 10 (f64Rat EPS)) 0xC018000000000000#64 := by
  obtain ⟨hlow, hhigh⟩ := logb_ten_bounds (c := 4722366482869645 * 10 ^ 6 / 2 ^ 72) (by norm_num) (by norm_num)
  rw [← add_le_add_iff_right (-6), ← sub_eq_add_neg, ← sub_eq_add_neg, ← logb_EPS] at hlow hhigh
  have hneg : Real.logb 10 (f64Rat EPS) < 0 := hhigh.trans_lt (by norm_num)
  refine isRne_of_nearest (b := 1024 * 2 ^ 52 + 0x18000000000000) (neg := true) ?_ (iff_of_true rfl hneg)
  rw [abs_of_neg hneg, show 1074 = 50 + 1024 from rfl, pow_add, ← mul_assoc]
  refine nearestBits_normal (by decide) (by decide) (by decide) ?_ ?_ <;> rw [Nat.cast_ofNat]
  · linarith only [hhigh]
  · linarith only [hlow]

theorem log10R_EPS : log10R EPS = 0xC018000000000000#64 :=
  (log10R_isRne isFin_EPS f64Rat_EPS_pos).unique isRne_logb_EPS

/-! ### The three roundings of the log value, from a finite v ≥ 0 -/

/-- A number of units below the half-way point to infinity rounds to a finite value. -/
theorem isFin_rne {neg : Bool} {n : Nat} (h : 2 * n < midUnits (infBits - 1)) : isFin (rne neg n 1) = true := by
  have hn := rneBits_nearest n one_pos
  rw [isFin_iff, rne, toNat_mod_mkF64 _ (rneBits_lt n 1)]
  refine lt_of_le_of_ne hn.le_inf fun he => h.not_ge ?_
  have hlow := hn.low (he ▸ by decide)
  rw [he, Nat.cast_one, div_one] at hlow
  rw [midUnits, Nat.sub_add_cancel (by decide)]
  exact_mod_cast hlow

/-- EPS is less than half a unit in the last place of the greatest finite value. -/
theorem isFin_fadd_EPS (h : isFin v = true) : isFin (fadd v EPS) = true := by
  have hv : f64Mag v ≤ (2 ^ 53 - 1) * 2 ^ 2045 := by
    rw [f64Mag_eq, ← bitsMag_maxBits]
    exact bitsMag_mono (Nat.le_sub_one_of_lt ((isFin_iff v).mp h))
  have hE : f64Mag EPS ≤ 2 ^ 53 * 2 ^ 1002 := by
    rw [f64Mag, if_neg (by decide), show f64Exp EPS - 1 = 1002 by decide]
    exact Nat.mul_le_mul_right _ (by decide)
  have hpow : 2 ^ 54 * 2 ^ 1002 < 2 ^ 2045 := by
    rw [← pow_add]
    exact pow_lt_pow_right₀ one_lt_two (by decide)
  have hsum := Int.natAbs_add_le (f64Units v) (f64Units EPS)
  rw [natAbs_f64Units, natAbs_f64Units] at hsum
  rw [fadd_of_isFin h isFin_EPS]
  split
  · exact isFin_f64Zero _
  · refine isFin_rne ?_
    rw [midUnits_maxBits]
    omega

theorem fadd_EPS_bounds (hfin : isFin v = true) (hpos : 0 ≤ f64Rat v) :
    isFin (fadd v EPS) = true ∧ f64Rat EPS ≤ f64Rat (fadd v EPS) := by
  have hsum := add_pos_of_nonneg_of_pos hpos f64Rat_EPS_pos
  have hrne := isRne_fadd hfin isFin_EPS hsum.ne'
  have hsumFin := isFin_fadd_EPS hfin
  have hlow := (isRne_f64Rat isFin_EPS (by decide)).not_flt hrne
    (Rat.cast_le.mpr (le_add_of_nonneg_left hpos))
  refine ⟨hsumFin, not_lt.mp ?_⟩
  rw [← flt_iff hsumFin isFin_EPS, hlow]
  exact Bool.false_ne_true

/-- A finite value is below 2^1024, and so below 10^512. -/
theorem logb_le_of_isFin (hfin : isFin v = true) (hpos : 0 < f64Rat v) :
    Real.logb 10 (f64Rat v) ≤ f64Rat 0x4080000000000000#64 := by
  obtain ⟨hmax, -, -⟩ := f64Rat_log_bounds
  have hne : v ≠ f64Zero true := fun hz => hpos.ne' (hz ▸ f64Rat_f64Zero true)
  rw [hmax, Rat.cast_ofNat, Real.logb_le_iff_le_rpow Nat.one_lt_ofNat (Rat.cast_pos.mpr hpos), Real.rpow_ofNat]
  calc (f64Rat v : ℝ) ≤ |(f64Rat v : ℝ)| := le_abs_self _
    _ ≤ 2 ^ 1024 * (1 - 1 / 2 ^ 54) := ((isRne_f64Rat hfin hne).abs_lt_of_isFin hfin).le
    _ ≤ 2 ^ 1024 := mul_le_of_le_one_right (by positivity) (by norm_num)
    _ = (2 ^ 2) ^ 512 := pow_mul 2 2 512
    _ ≤ 10 ^ 512 := pow_le_pow_left₀ (by norm_num) (by norm_num) 512

theorem log10R_bounds (hfin : isFin v = true) (hlow : f64Rat EPS ≤ f64Rat v) :
    isFin (log10R v) = true ∧ f64Rat 0xC018000000000000#64 ≤ f64Rat (log10R v) ∧
      f64Rat (log10R v) ≤ f64Rat 0x4080000000000000#64 := by
  have hpos := lt_of_lt_of_le f64Rat_EPS_pos hlow
  have hmono : Real.logb 10 (f64Rat EPS) ≤ Real.logb 10 (f64Rat v) :=
    Real.logb_le_logb_of_le Nat.one_lt_ofNat (Rat.cast_pos.mpr f64Rat_EPS_pos) (Rat.cast_le.mpr hlow)
  exact IsRne.between isRne_logb_EPS (log10R_isRne hfin hpos) (isRne_f64Rat (by decide) (by decide)) hmono
    (logb_le_of_isFin hfin hpos) (by decide) (by decide)

/-- The product is a zero where the logarithm is, and the rounding of a nonzero product elsewhere. -/
theorem fmul_TEN_bounds (hfin : isFin v = true) (hlow : f64Rat 0xC018000000000000#64 ≤ f64Rat v)
    (hhigh : f64Rat v ≤ f64Rat 0x4080000000000000#64) :
    isFin (fmul TEN v) = true ∧ f64Rat 0xC04E000000000000#64 ≤ f64Rat (fmul TEN v) := by
  obtain ⟨-, hmax, hsixty⟩ := f64Rat_log_bounds
  have hlow' := hsixty.symm.trans_le (mul_le_mul_of_nonneg_left hlow (le_of_lt f64Rat_TEN_pos))
  have hhigh' := (mul_le_mul_of_nonneg_left hhigh (le_of_lt f64Rat_TEN_pos)).trans_eq hmax
  by_cases hzero : f64Rat TEN * f64Rat v = 0
  · rw [fmul_eq_zero isFin_TEN hfin hzero, f64Rat_f64Zero, ← hzero]
    exact ⟨isFin_f64Zero _, hlow'⟩
  · obtain ⟨hmFin, hm, -⟩ := IsRne.between (isRne_f64Rat (by decide) (by decide)) (isRne_fmul isFin_TEN hfin hzero)
      (isRne_f64Rat (by decide) (by decide)) (Rat.cast_le.mpr hlow') (Rat.cast_le.mpr hhigh') (by decide) (by decide)
    exact ⟨hmFin, hm⟩

/-- A value that the exact result has is that result. -/
theorem IsRne.eq_of_f64Rat {w : F64} {q : ℚ} (h : IsRne (q : ℝ) v) (hw : isFin w = true) (hval : f64Rat w = q)
    (hq : q ≠ 0) : v = w :=
  h.unique (hval ▸ isRne_f64Rat hw fun hz => hq (by rw [← hval, hz, f64Rat_f64Zero]))

/-- Every rounding but that of the logarithm is exact. -/
theorem logMag_zero : logMag 0 = 0xC04E000000000000#64 := by
  obtain ⟨-, -, hprod⟩ := f64Rat_log_bounds
  have hsum : f64Rat EPS = f64Rat 0 + f64Rat EPS :=
    (zero_add _).symm.trans (congrArg (· + f64Rat EPS) (f64Rat_f64Zero false).symm)
  have hsum0 := hsum ▸ ne_of_gt f64Rat_EPS_pos
  have hprod0 := hprod.trans_ne (mt (f64Rat_eq_zero_iff 0xC04E000000000000#64).mp (by decide))
  rw [logMag, IsRne.eq_of_f64Rat (isRne_fadd (a := 0) (by decide) isFin_EPS hsum0) isFin_EPS hsum hsum0, log10R_EPS,
    IsRne.eq_of_f64Rat (isRne_fmul isFin_TEN (by decide) hprod0) (by decide) hprod.symm hprod0]

/-- Each rounding keeps the bounds of the one before it. -/
theorem logMag_of_nonneg (hfin : isFin v = true) (hpos : 0 ≤ f64Rat v) :
    isFin (logMag v) = true ∧ flt (logMag v) 0xC04E000000000000#64 = false := by
  obtain ⟨hsFin, hs⟩ := fadd_EPS_bounds hfin hpos
  obtain ⟨hwFin, hlow, hhigh⟩ := log10R_bounds hsFin hs
  obtain ⟨hmFin, hm⟩ := fmul_TEN_bounds hwFin hlow hhigh
  exact ⟨hmFin, Bool.eq_false_iff.mpr fun hlt => hm.not_gt ((flt_iff hmFin (by decide)).mp hlt)⟩

/-! ### Values without a logarithm -/

theorem isFin_eq_false_iff (v : F64) : isFin v = false ↔ isNaN v = true ∨ v = f64Inf (f64Sign v) := by
  have hinf : v = f64Inf (f64Sign v) ↔ v.toNat % 2 ^ 63 = infBits :=
    ⟨fun h => by rw [h, lowBits_f64Inf], fun h => f64_ext (f64Sign_f64Inf _).symm (h.trans (lowBits_f64Inf _).symm)⟩
  rw [Bool.eq_false_iff, ne_eq, isFin_iff, isNaN_iff, hinf, not_lt, le_iff_lt_or_eq, eq_comm]

theorem isFin_fadd_EPS_eq_false (h : isFin v = false) : isFin (fadd v EPS) = false := by
  rcases (isFin_eq_false_iff v).mp h with hnan | hinf
  · rw [fadd_of_isNaN (.inl hnan)]
    rfl
  · rw [hinf, fadd_f64Inf_left isFin_EPS]
    cases f64Sign v <;> rfl

/-- A non-finite value, a zero or a negative value has no finite logarithm. -/
theorem isFin_log10R_eq_false (h : isFin v = true → isZero v = true ∨ f64Sign v = true) : isFin (log10R v) = false := by
  cases hfin : isFin v
  · rcases (isFin_eq_false_iff v).mp hfin with hnan | hinf
    · rw [log10R_of_isNaN hnan]
      rfl
    · rw [hinf]
      cases f64Sign v <;> rfl
  · cases hzero : isZero v
    · rw [log10R_of_neg ((h hfin).resolve_left (by simp [hzero])) hzero]
      rfl
    · rw [eq_f64Zero_of_isZero hzero, log10R_f64Zero]
      rfl

theorem isFin_fmul_TEN_eq_false (h : isFin v = false) : isFin (fmul TEN v) = false := by
  rcases (isFin_eq_false_iff v).mp h with hnan | hinf
  · rw [fmul_of_isNaN (.inr hnan)]
    rfl
  · rw [hinf, fmul_f64Inf_right (by decide)]
    cases f64Sign v <;> rfl

/-- A finite v ≤ -EPS gives a sum that is a zero or negative. -/
theorem fadd_EPS_of_le (hfin : isFin v = true) (hle : f64Rat v ≤ f64Rat (fneg EPS)) :
    isZero (fadd v EPS) = true ∨ f64Sign (fadd v EPS) = true := by
  rw [f64Rat_fneg] at hle
  rcases hle.eq_or_lt with heq | hlt
  · rw [fadd_eq_zero hfin isFin_EPS (by rw [heq, neg_add_cancel])]
    exact .inl (isZero_f64Zero _)
  · have hneg := lt_neg_iff_add_neg.mp hlt
    exact .inr ((isRne_fadd hfin isFin_EPS hneg.ne).sign.mpr (Rat.cast_lt_zero.mpr hneg))

theorem logMag_not_isFin (h : isNaN v = true ∨ v = f64Inf false ∨ flt (fneg EPS) v = false) :
    isFin (logMag v) = false := by
  refine isFin_fmul_TEN_eq_false (isFin_log10R_eq_false fun hsum => ?_)
  have hfin : isFin v = true := by
    by_contra hv
    rw [isFin_fadd_EPS_eq_false (Bool.eq_false_iff.mpr hv)] at hsum
    cases hsum
  refine fadd_EPS_of_le hfin (not_lt.mp ?_)
  rw [← flt_iff (by decide) hfin]
  rcases h with hnan | rfl | hle
  · rw [isNaN_eq_false_of_isFin hfin] at hnan
    cases hnan
  · cases hfin
  · rw [hle]
    exact Bool.false_ne_true

/-- Settles O31: the bounds of the three roundings, and the values that have no logarithm. -/
theorem logMagnitude : Obligations.LogMagnitude := by
  refine ⟨fun _ => rfl, logMag_zero, log10R_EPS, fun v hfin hpos => logMag_of_nonneg hfin (not_lt.mp ?_),
    fun v => logMag_not_isFin⟩
  rw [← f64Rat_f64Zero false]
  exact fun hlt => Bool.false_ne_true (hpos.symm.trans ((flt_iff hfin (isFin_f64Zero false)).mpr hlt))

end

section
/-! The statement of `43_quantizer.md` R209: what the sequencer's turn leaves unchanged, said once for any observation
of the state that the named operations of a completion leave unchanged. -/

variable {s t : State}

/-! ### The sequencer's turn -/

/-- The sequencer's turn changes nothing, or it is a completion in one of its two forms with the race settled. -/
theorem coreTurn_cases (h : s.coreTurn = .next t) : t = s ∨ ∃ l u, s.inFlight = some l ∧ t = u.settleRace l ∧
    ((∃ e, u = s.errorComplete e) ∨ ∃ i, l.op = .command i ∧ u = (commandEffects i s).successComplete) := by
  cases hr : s.resetLevel with
  | true => exact .inl (by simpa [State.coreTurn, hr] using h.symm)
  | false =>
    cases hl : s.inFlight with
    | none => exact .inl (by simpa [State.coreTurn, hr, hl] using h.symm)
    | some l =>
      cases hop : l.op with
      | illegal =>
        rw [coreTurn_illegal hr hl hop] at h
        exact .inr ⟨l, _, rfl, (Host.Outcome.next.inj h).symm, .inl ⟨_, rfl⟩⟩
      | command i =>
        rcases exec_cases i s with ⟨e, -, hx⟩ | ⟨-, hx⟩ <;> rw [coreTurn_command hr hl hop hx] at h
        · exact .inr ⟨l, _, rfl, (Host.Outcome.next.inj h).symm, .inl ⟨e, rfl⟩⟩
        · exact .inr ⟨l, _, rfl, (Host.Outcome.next.inj h).symm, .inr ⟨i, hop, rfl⟩⟩

/-- An observation that the operations of a completion leave unchanged is unchanged by the sequencer's turn. -/
theorem coreTurn_keeps {α : Type} (obs : State → α) (herror : ∀ e, obs (s.errorComplete e) = obs s)
    (hsuccess : ∀ l i, s.inFlight = some l → l.op = .command i → obs (commandEffects i s).successComplete = obs s)
    (hdraw : ∀ u fs, obs (State.drawFootprints u fs) = obs u) (h : s.coreTurn = .next t) : obs t = obs s := by
  rcases coreTurn_cases h with rfl | ⟨l, u, hl, rfl, hu⟩
  · rfl
  · have hrace : obs (u.settleRace l) = obs u := by
      cases hr : l.raced with
      | true => rw [settleRace_raced hr, hdraw]
      | false => rw [settleRace_not_raced hr]
    rw [hrace]
    rcases hu with ⟨e, rfl⟩ | ⟨i, hop, rfl⟩
    · exact herror e
    · exact hsuccess l i hl hop

/-- The sequencer's turn, or the idle turn of a HOST that has finished. -/
theorem step_of_coreMoves_or_idle (h : step s = .next t) (hturn : s.coreMoves = true ∨ s.script = []) :
    s.passTurn.coreTurn = .next t ∨ t = s.passTurn := by
  cases hm : s.coreMoves with
  | true => exact .inl (step_of_coreMoves hm ▸ h)
  | false =>
    have hscript : s.passTurn.script = [] := hturn.resolve_left (by simp [hm])
    rw [step_of_hostMoves hm, hostTurn_nil hscript] at h
    exact .inr (Host.Outcome.next.inj h).symm

/-! ### What QENC alone writes, and what no command writes -/

/-- QMIN, QMAX and META_VALID: what QENC alone of the commands writes beside DMEM and STATUS. -/
def State.rangeRegs (s : State) :=
  (s.regs.qminLo, s.regs.qminHi, s.regs.qmaxLo, s.regs.qmaxHi, s.metaValid)

/-- What only the HOST and resets write. -/
def State.hostOwned (s : State) :=
  (s.script, s.ctrl, s.cmd, s.srate, s.status.busyWr, s.status.lastOp, s.params, s.coldDraw, s.rdata, s.regs.src,
    s.regs.dst, s.regs.scr, s.regs.size, s.regs.stride, s.regs.sigLen, s.regs.wsize, s.regs.overlap)

theorem rangeRegs_success {i : Instr} (hi : i ≠ .qenc) (s : State) :
    (commandEffects i s).successComplete.rangeRegs = s.rangeRegs := by
  cases i with
  | qenc => exact absurd rfl hi
  | _ => simp [State.rangeRegs, commandEffects]

theorem hostOwned_success (i : Instr) (s : State) : (commandEffects i s).successComplete.hostOwned = s.hostOwned := by
  cases i <;> simp [State.hostOwned, commandEffects]

theorem step_keeps_rangeRegs (h : step s = .next t) (hturn : s.coreMoves = true ∨ s.script = [])
    (hop : ∀ l, s.inFlight = some l → l.op ≠ .command .qenc) : t.rangeRegs = s.rangeRegs := by
  rcases step_of_coreMoves_or_idle h hturn with hcore | rfl
  · exact coreTurn_keeps (s := s.passTurn) State.rangeRegs (fun _ => rfl)
      (fun l i hl hi => rangeRegs_success (fun hq => hop l hl (hq ▸ hi)) _) (fun _ _ => rfl) hcore
  · rfl

theorem step_keeps_hostOwned (h : step s = .next t) (hturn : s.coreMoves = true ∨ s.script = []) :
    t.hostOwned = s.hostOwned := by
  rcases step_of_coreMoves_or_idle h hturn with hcore | rfl
  · exact coreTurn_keeps (s := s.passTurn) State.hostOwned (fun _ => rfl)
      (fun _ i _ _ => hostOwned_success i _) (fun _ _ => rfl) hcore
  · rfl

/-- Settles O60: each of the two observations, read off field by field. -/
theorem whatAStepMayWrite : Obligations.WhatAStepMayWrite := by
  refine fun s t h => ⟨fun hop hturn => ?_, fun hturn => ?_⟩
  · simpa only [State.rangeRegs, Prod.mk.injEq] using step_keeps_rangeRegs h hturn hop
  · simpa only [State.hostOwned, Prod.mk.injEq] using step_keeps_hostOwned h hturn

end

end Sys2Proof.Machine
end

section
/-! The statements of `45_control.md`: acceptance and completion of a command, whose turn a step is, writes while BUSY,
the acknowledgement, the soft reset, and register reads with the HOST's `wait` loop. -/
namespace Sys2Proof.Machine

variable {s : State} {l : Latched} {i : Instr}

/-! ### Acceptance (`45_control.md` R250) -/

/-- Acceptance clears both sources of the interrupt line. -/
theorem irq_accept (s : State) (c : Word) : (s.accept c).irq = false := by simp [State.irq]

/-- Settles O3: at idle the write to CMD is accepted. -/
theorem acceptanceOfAWord : Obligations.AcceptanceOfAWord := by
  intro s c hb hr
  refine ⟨s.accept c, ?_, rfl, rfl, irq_accept s c⟩
  calc s.onRegWrite 0x014#12 4 c = .next (s.writeReg .CMD c) := onRegWrite_regOffset hr .CMD c
    _ = .next (s.accept c) := congrArg _ (writeReg_accepted hb rfl c)

/-! ### Completion and turns (`45_control.md` R252) -/

/-- The race of a latched command draws the command's write footprints. -/
theorem settleRace_command (hop : l.op = .command i) :
    s.settleRace l = if l.raced then s.drawFootprints (writeFootprints i l.snap) else s := by
  rw [State.settleRace, Latched.writes, hop]

/-- A step is the sequencer's turn when the turns give it that turn, or are used up with a command to complete. -/
theorem step_of_latched {rest : List Turn} (hl : s.inFlight = some l) (hr : s.resetLevel = false)
    (ht : s.turns = .core :: rest ∨ s.turns = [] ∧ rest = []) :
    step s = State.coreTurn { s with turns := rest } := by
  rcases ht with h | ⟨h, rfl⟩
  · rw [step_of_coreMoves (coreMoves_iff.mpr (.inl (by rw [h, List.head?_cons]))), State.passTurn, h, List.tail_cons]
  · rw [step_of_coreMoves (coreMoves_iff.mpr (.inr ⟨h, by rw [hl, Option.isSome_some], hr⟩)), State.passTurn, h,
      List.tail_nil]

/-- Settles O4: the step is the sequencer's turn, which is `exec` and then the race; a word just accepted has none. -/
theorem stepRunsTheLatchedCommand : Obligations.StepRunsTheLatchedCommand := by
  refine ⟨fun s c i hop => ?_, fun s l i rest hl hop hr ht => ?_⟩
  · obtain ⟨t, hexec⟩ := exec_answers i (s.placeCommand c)
    have hl : (s.placeCommand c).inFlight = some { op := decode c, snap := s.snapshot, raced := false } := rfl
    rw [step_of_latched hl rfl (.inr ⟨rfl, rfl⟩), hexec]
    exact (coreTurn_command rfl hl hop hexec).trans (congrArg _ (settleRace_not_raced rfl))
  · obtain ⟨t, hexec⟩ := exec_answers i { s with turns := rest }
    rw [step_of_latched hl hr ht, hexec]
    simp only [← settleRace_command hop]
    exact coreTurn_command (s := { s with turns := rest }) hr hl hop hexec

theorem coreTurn_idle (h : s.inFlight = none ∨ s.resetLevel = true) : s.coreTurn = .next s := by
  rw [State.coreTurn]
  split
  · rfl
  · next hr => rw [h.resolve_right hr]

/-- Settles O5: neither agent has anything to do at the end of a run, and the HOST's turn takes the head of the
script. -/
theorem turnWithoutACommand : Obligations.TurnWithoutACommand := by
  refine fun s => ⟨coreTurn_idle, fun ⟨hscript, hidle⟩ => ?_, fun e rest hscript hturn => ?_⟩
  · cases hm : s.coreMoves with
    | true => exact (step_of_coreMoves hm).trans (coreTurn_idle (s := s.passTurn) (.inl hidle))
    | false => exact (step_of_hostMoves hm).trans (hostTurn_nil (s := s.passTurn) hscript)
  · exact (step_of_hostMoves (coreMoves_eq_false.mpr hturn)).trans (hostTurn_cons (s := s.passTurn) hscript)

/-- Settles O17: the two forms of a completion, and no effect of a command is on STATUS. -/
theorem everyCommandCompletes : Obligations.EveryCommandCompletes := by
  intro i s
  rcases exec_cases i s with ⟨e, -, hexec⟩ | ⟨-, hexec⟩
  · exact .inr ⟨e, hexec⟩
  · obtain ⟨-, -, hstatus, -⟩ := commandEffects_frame i s
    exact .inl ⟨_, hexec, by rw [successComplete_status, hstatus], rfl⟩

/-- Settles O7: NOP has no check and no effects, and the word 0 decodes to it. -/
theorem nopCompletes : Obligations.NopCompletes := by
  have hnop : ∀ s : State, exec .nop s = .next s.successComplete := fun _ => exec_success rfl
  refine ⟨hnop, fun s hr => ⟨(s.accept 0).successComplete, ?_, ?_, rfl⟩⟩
  · exact coreTurn_command (s := s.accept 0) hr (accept_inFlight s 0) (decode_encode .nop) (hnop _)
  · rw [irq_of_done rfl]
    simp

/-! ### Writes while BUSY, and the acknowledgement (`45_control.md` R254, R255, R259) -/

/-- While BUSY the write to a register that the busy-write rule guards is ignored. -/
theorem writeReg_busy (hb : s.busy = true) {n : RegName} (hg : busyGuarded n = true) (v : Word) :
    s.writeReg n v = s.setBusyWr := if_pos (by rw [hg, hb, Bool.and_self])

/-- Every mapped register but the read-only ones, CTRL and STATUS. -/
def guardedRegs : List RegName :=
  [.CMD, .META_VALID, .SRC, .DST, .SCR, .SIZE, .STRIDE, .SIG_LEN, .WSIZE, .OVERLAP, .SRATE, .NBINS, .NFRAMES, .QMIN_LO,
    .QMIN_HI, .QMAX_LO, .QMAX_HI]

theorem busyGuarded_guardedRegs : ∀ n ∈ guardedRegs, busyGuarded n = true := by decide

theorem onRegWrite_STATUS (hr : s.resetLevel = false) (v : Word) :
    s.onRegWrite 0x010#12 4 v = .next (s.statusWrite v) := onRegWrite_regOffset hr .STATUS v

/-- Settles O45: by the kind of the register written. -/
theorem busyWrites : Obligations.BusyWrites := by
  refine fun s v hr => ⟨fun hb n hn => ?_, fun hv => ?_, onRegWrite_STATUS hr v, fun n hn => ?_,
    fun off ha hoff => onRegWrite_reserved hr ha (regAt_reserved off hoff) v⟩
  · rw [onRegWrite_regOffset hr, writeReg_busy hb (busyGuarded_guardedRegs n hn), State.setBusyWr]
  · rw [← ctrlWrite_enables s hv]
    exact onRegWrite_regOffset hr .CTRL v
  · rw [onRegWrite_regOffset hr, writeReg_readOnly s hn]

/-- Settles O46: the write is `statusWrite`, which leaves CTRL. -/
theorem statusAcknowledge : Obligations.StatusAcknowledge :=
  fun s v hr => ⟨s.statusWrite v, onRegWrite_STATUS hr v, rfl, rfl, rfl, rfl, rfl⟩

/-! ### The soft reset (`45_control.md` R258) -/

theorem ctrlWrite_srst (s : State) {v : Word} (h : v.getLsbD 31 = true) : s.ctrlWrite v = s.softReset := if_pos h

/-- CTRL, STATUS and META_VALID are words of flags; every other register is reset to its value itself. -/
theorem readReg_resetRegs (s : State) (n : RegName) : s.resetRegs.readReg n = resetWord s n := by
  cases n with
  | CTRL =>
    rw [State.readReg, State.ctrlWord, resetRegs_ctrl]
    change _ = 0#32
    decide
  | STATUS =>
    rw [State.readReg, State.statusWord, State.busy, resetRegs_status, resetRegs_inFlight]
    change _ = 0#32
    decide
  | META_VALID =>
    rw [State.readReg, resetRegs_metaValid]
    change _ = 0#32
    decide
  | _ => rfl

/-- What a reset gives the registers depends on the parameters alone, through CAP. -/
theorem resetWord_congr {s t : State} (h : t.params = s.params) (n : RegName) : resetWord t n = resetWord s n := by
  cases n with
  | CAP => rw [resetWord, resetWord, State.capWord, h, State.capWord]
  | _ => rfl

theorem abandon_params (s : State) : s.abandon.params = s.params := by
  unfold State.abandon
  split <;> rfl

theorem readReg_softReset (s : State) (n : RegName) : s.softReset.readReg n = resetWord s n := by
  rw [State.softReset, readReg_resetRegs, resetWord_congr (abandon_params s)]

theorem byteAt_softReset_idle (h : s.inFlight = none) (a : Nat) : s.softReset.byteAt a = s.byteAt a := by
  rw [State.softReset, byteAt_resetRegs, State.abandon, h]

/-- With a command in flight the soft reset draws its write footprints. -/
theorem byteAt_softReset_latched (h : s.inFlight = some l) (a : Nat) :
    s.softReset.byteAt a =
      if anyHas l.writes a = true ∧ a < s.params.dmemSize then Config.draw s.draws a else s.byteAt a := by
  rw [State.softReset, byteAt_resetRegs, State.abandon, h]
  exact byteAt_drawFootprints s l.writes a

theorem anyHas_iff (fs : List Footprint) (a : Nat) :
    anyHas fs a = true ↔ ∃ f ∈ fs, f.base ≤ a ∧ a < f.base + f.len := by
  simp [anyHas, Footprint.has]

/-- Settles O47: the registers by `resetRegs`, and the bytes by what was in flight. -/
theorem softReset : Obligations.SoftReset := by
  refine fun s v hr hv => ⟨s.softReset, ?_, readReg_softReset s, rfl, rfl, byteAt_softReset_idle,
    fun l i hl hop a => ?_, fun l why hl hop a => ?_⟩
  · rw [← ctrlWrite_srst s hv]
    exact onRegWrite_regOffset hr .CTRL v
  · rw [byteAt_softReset_latched hl, Latched.writes, hop]
    exact if_congr (by rw [anyHas_iff, and_comm]) rfl rfl
  · rw [byteAt_softReset_latched hl, Latched.writes, hop, if_neg (by simp [anyHas])]

/-! ### Register reads (`45_control.md` R260) -/

/-- The register map of R34: each register with its offset and its value. -/
def State.registerMap (s : State) : List (RegName × BitVec 12 × Word) :=
  allRegs.map fun n => (n, regOffset n, s.readReg n)

/-- The four flags of STATUS, bits 0 to 3 (`10_state.md` R39). -/
theorem statusWord_flags (s : State) :
    s.statusWord.getLsbD 0 = s.busy ∧ s.statusWord.getLsbD 1 = s.status.done ∧
      s.statusWord.getLsbD 2 = s.status.err ∧ s.statusWord.getLsbD 3 = s.status.busyWr := by
  rw [State.statusWord]
  repeat rw [BitVec.getLsbD_append]
  simp

theorem statusWord_errCode (s : State) : s.statusWord.extractLsb' 8 8 = s.status.errCode := by
  rw [State.statusWord]
  iterate 5 rw [BitVec.extractLsb'_append_eq_of_le (by omega)]
  rw [BitVec.extractLsb'_append_eq_right]

theorem statusWord_lastOp (s : State) : s.statusWord.extractLsb' 16 8 = s.status.lastOp := by
  rw [State.statusWord]
  iterate 6 rw [BitVec.extractLsb'_append_eq_of_le (by omega)]
  rw [BitVec.extractLsb'_append_eq_right]

theorem ctrlWord_enables (s : State) :
    s.ctrlWord.getLsbD 0 = s.ctrl.ieDone ∧ s.ctrlWord.getLsbD 1 = s.ctrl.ieErr := by
  rw [State.ctrlWord]
  repeat rw [BitVec.getLsbD_append]
  simp

/-- Both fields of CAP are wide enough for legal parameters (`10_state.md` R37). -/
theorem capWord_fields (h : s.params.legal) :
    (s.capWord.extractLsb' 0 5).toNat = s.params.log2Nmax ∧ (s.capWord.extractLsb' 8 6).toNat = s.params.log2Dmem := by
  obtain ⟨-, hn, -, hd⟩ := h
  rw [State.capWord]
  constructor
  · rw [BitVec.extractLsb'_append_eq_right, BitVec.toNat_ofNat]
    omega
  · iterate 2 rw [BitVec.extractLsb'_append_eq_of_le (by omega)]
    rw [BitVec.extractLsb'_append_eq_right, BitVec.toNat_ofNat]
    omega

/-- A pass of the HOST's `wait` loop stays in the loop exactly while BUSY (`30_encoding.md` R121). -/
theorem onEvent_waitLoop (hr : s.resetLevel = false) : s.onEvent .waitLoop = .next { s with
    rdata := (s.readReg .STATUS).setWidth 64
    script := if s.busy = true then .waitLoop :: s.script else s.script } := by
  obtain ⟨hbusy, -⟩ := statusWord_flags s
  have hbit : ((s.readReg .STATUS).setWidth 64).getLsbD 0 = s.busy := by
    rw [BitVec.getLsbD_setWidth, State.readReg, hbusy]
    rfl
  rw [State.onEvent, State.waitPass, onRegRead_regOffset hr]
  simp only [hbit]
  split <;> rfl

/-- At idle the pass is the last one. -/
theorem onEvent_waitLoop_idle (hr : s.resetLevel = false) (hidle : s.inFlight = none) :
    s.onEvent .waitLoop = .next { s with rdata := (s.readReg .STATUS).setWidth 64 } := by
  rw [onEvent_waitLoop hr, State.busy, hidle]
  rfl

theorem settleRace_inFlight (s : State) (l : Latched) : (s.settleRace l).inFlight = s.inFlight := by
  unfold State.settleRace
  split <;> rfl

/-- With RESET released the sequencer's turn completes the command in flight. -/
theorem coreTurn_completes (hr : s.resetLevel = false) (hl : s.inFlight = some l) :
    ∃ t, s.coreTurn = .next t ∧ t.inFlight = none := by
  cases hop : l.op with
  | illegal => exact ⟨_, coreTurn_illegal hr hl hop, settleRace_inFlight _ l⟩
  | command i =>
    rcases exec_cases i s with ⟨e, -, hexec⟩ | ⟨-, hexec⟩ <;>
      exact ⟨_, coreTurn_command hr hl hop hexec, settleRace_inFlight _ l⟩

/-- What decides the next step beside the command in flight is none of the sequencer's to change. -/
theorem coreTurn_keeps_agenda {t : State} (h : s.coreTurn = .next t) :
    t.script = s.script ∧ t.turns = s.turns ∧ t.resetLevel = s.resetLevel := by
  have hkeep : (t.script, t.turns, t.resetLevel) = (s.script, s.turns, s.resetLevel) := by
    refine coreTurn_keeps (fun u => (u.script, u.turns, u.resetLevel)) (fun _ => rfl) (fun _ i _ _ => ?_)
      (fun _ _ => rfl) h
    obtain ⟨-, -, -, -, -, -, hreset, -, -, hscript, hturns, -⟩ := commandEffects_frame i s
    rw [successComplete_script, successComplete_turns, successComplete_resetLevel, hscript, hturns, hreset]
  simpa only [Prod.mk.injEq] using hkeep

/-- Settles O53: the map is every register at its offset, each field by its lemma, and once the command is completed the
next pass reads BUSY = 0. -/
theorem registerReads : Obligations.RegisterReads := by
  refine ⟨fun s n hr => onRegRead_regOffset hr n, fun s p hp => ?_, fun s => metaWord_bits s.metaValid, fun s => ?_,
    fun s hlegal => ?_, rfl, fun s hr => onEvent_waitLoop hr, fun s rest hr hb hturns hscript => ?_⟩
  · obtain ⟨n, -, rfl⟩ := List.mem_map.mp (show p ∈ s.registerMap from hp)
    exact ⟨rfl, rfl, fun hr => onRegRead_regOffset hr n⟩
  · obtain ⟨hbusy, hdone, herr, hbusyWr⟩ := statusWord_flags s
    obtain ⟨hieDone, hieErr⟩ := ctrlWord_enables s
    exact ⟨hbusy, hdone, herr, hbusyWr, statusWord_errCode s, statusWord_lastOp s, hieDone, hieErr⟩
  · obtain ⟨hnmax, hdmem⟩ := capWord_fields hlegal
    exact ⟨congrArg (2 ^ ·) hnmax, congrArg (2 ^ ·) hdmem⟩
  · obtain ⟨l, hl⟩ := Option.isSome_iff_exists.mp hb
    obtain ⟨t, hcore, hidle⟩ := coreTurn_completes hr hl
    obtain ⟨hscript', hturns', hreset⟩ := coreTurn_keeps_agenda hcore
    have hhost : t.coreMoves = false := coreMoves_eq_false.mpr (.inr ⟨hturns'.trans hturns, .inl hidle⟩)
    refine ⟨t, ?_, by rw [State.busy, hidle, Option.isSome_none], hscript', ?_⟩
    · rw [step_of_coreMoves (coreMoves_iff.mpr (.inr ⟨hturns, hb, hr⟩)), passTurn_nil hturns, hcore]
    · rw [step_of_hostMoves hhost, passTurn_nil (hturns'.trans hturns), hostTurn_cons (hscript'.trans hscript)]
      exact onEvent_waitLoop_idle (s := { t with script := rest }) (hreset.trans hr) hidle

end Sys2Proof.Machine
end

section
/-! The statement of `70_reset_and_hazards.md`: what driving the RESET input does, and what an event does while RESET is
asserted. -/
namespace Sys2Proof.Machine

variable {s t : State}

/-! ### The RESET input (R305, R306) -/

theorem driveReset_asserted (s : State) : s.driveReset true = { s with resetLevel := true } := rfl

theorem driveReset_released (hr : s.resetLevel = true) : s.driveReset false = s.hardReset := if_pos hr

theorem driveReset_low_of_low (hr : s.resetLevel = false) : s.driveReset false = s := if_neg (Bool.eq_false_iff.mp hr)

theorem driveReset_high_of_high (hr : s.resetLevel = true) : s.driveReset true = s := by
  rw [driveReset_asserted, ← hr]

/-- What the release does besides `resetRegs`, to DMEM and to the level, no register shows. -/
theorem readReg_hardReset (s : State) (n : RegName) : s.hardReset.readReg n = resetWord s n := readReg_resetRegs s n

/-- No byte is written since the release, so each one is that reset's draw. -/
theorem byteAt_hardReset (s : State) (a : Nat) : s.hardReset.byteAt a = Config.draw s.draws a := rfl

/-! ### Events while RESET is asserted (log entries 10, 11) -/

theorem onRegRead_inReset (hr : s.resetLevel = true) (n : RegName) :
    s.onRegRead (regOffset n) 4 = .next s.readInReset := by
  simp [State.onRegRead, regWidthOk, hr]

/-- The pass of the `wait` loop tests bit 0 of a free value. -/
theorem onEvent_waitLoop_inReset (hr : s.resetLevel = true) : s.onEvent .waitLoop = .next { s.readInReset with
    script := if s.readInReset.rdata.getLsbD 0 = true then .waitLoop :: s.script else s.script } := by
  rw [State.onEvent, State.waitPass, onRegRead_inReset hr]
  simp only
  split <;> rfl

/-- A write and the level that stands already leave the state; a read gives a free value and uses up its draw. -/
theorem onEvent_inReset (hr : s.resetLevel = true) {e : HostEvent} (hrel : e ≠ .resetPin false) (hwait : e ≠ .waitLoop)
    (h : s.onEvent e = .next t) : t = s ∨ t = s.readInReset := by
  rcases onEvent_cases h with ⟨-, -, -, rfl⟩ | ⟨-, -, rfl⟩ | ⟨-, -, -, -, rfl⟩ | ⟨-, -, -, rfl⟩ | ⟨level, rfl, rfl⟩ |
    ⟨rfl, -⟩
  · exact .inl (if_pos hr)
  · exact .inr (if_pos hr)
  · exact .inl (if_pos hr)
  · exact .inr (if_pos hr)
  · cases level with
    | true => exact .inl (driveReset_high_of_high hr)
    | false => exact absurd rfl hrel
  · exact absurd rfl hwait

/-- Settles O48: the release is `hardReset`, and of the other events under RESET the `wait` loop alone touches the
script. -/
theorem hardReset : Obligations.HardReset := by
  refine fun s => ⟨fun hr => ⟨⟨s.hardReset, congrArg _ (driveReset_released hr), readReg_hardReset s, rfl, rfl, rfl,
    byteAt_hardReset s⟩, fun e t hrel h => ?_⟩, fun hr => ⟨rfl, congrArg _ (driveReset_low_of_low hr)⟩⟩
  by_cases hwait : e = .waitLoop
  · subst hwait
    obtain rfl := Host.Outcome.next.inj ((onEvent_waitLoop_inReset hr).symm.trans h)
    simp only [true_and]
    rfl
  · rw [if_neg (fun hc => hwait hc.1)]
    rcases onEvent_inReset hr hrel hwait h with rfl | rfl <;> rfl

end Sys2Proof.Machine
end
